-- ==== Sys2Proof/Word.lean ====
section
/-! DEFINITION. The word types of the block: bytes, RGB565 words and 32-bit register words (R10, R12, R85). -/

namespace Sys2Proof

/-- A byte of INPUT, `Dict`, a line buffer or a palette lane (R12). -/
abbrev Byte := BitVec 8

/-- One RGB565 word, or one 16-bit accumulator sum (R85, R48). -/
abbrev Half := BitVec 16

/-- A host register, an INPUT address or a PNG big-endian field (R10, R14). -/
abbrev Word := BitVec 32

end Sys2Proof
end

