-- ==== Sys2Proof/Syntax.lean ====
section
/-! DEFINITION. The instructions: one constructor for each row of spec/opcode_table.json (R89), and the
register access a REG row is read from. -/

namespace Sys2Proof

/-- The width of a register access (R59: only aligned 32-bit accesses reach a register). -/
inductive AccessSize where
  | byte | half | word
  deriving DecidableEq, Repr

/-- One host access to the 4 KiB register window: a byte offset, a width and, for a write, the write data (R59, R89). -/
inductive Access where
  | read (offset : BitVec 12) (size : AccessSize)
  | write (offset : BitVec 12) (size : AccessSize) (data : Word)
  deriving DecidableEq, Repr

/-- The 65 rows of the opcode table. A CHUNK row carries the chunk's length field L (R73), a REG write its data. -/
inductive Instr where
  -- CMD: the 32-bit command words (R70, R71)
  | info
  | decode (scale : Byte)
  | reservedCmd (w : Word)
  -- CHUNK: the chunk types (R73, R106 to R122)
  | ihdr (len : Word)
  | plte (len : Word)
  | trns (len : Word)
  | idat (len : Word)
  | iend (len : Word)
  | otherChunk (len : Word) (type : Word)
  -- FILT: the filter bytes (R80)
  | filtNone
  | filtSub
  | filtUp
  | filtAverage
  | filtPaeth
  | badFilter (v : Byte)
  -- PIXFMT: the pixel formats (R81)
  | gray8
  | gray16
  | rgb8
  | rgb16
  | indexed8
  | grayA8
  | grayA16
  | rgba8
  | rgba16
  | unsupportedPixfmt (c d : Byte)
  -- ISTAT: the engine's statuses (R83)
  | needMoreInput
  | hasMoreOutput
  | streamDone
  | streamError
  -- REG: the register accesses (R89)
  | rdCmd
  | wrCmd (v : Word)
  | rdStatus
  | wrStatus (v : Word)
  | rdInBase
  | wrInBase (v : Word)
  | rdInLen
  | wrInLen (v : Word)
  | rdCtx
  | wrCtx (v : Word)
  | rdIrqEn
  | wrIrqEn (v : Word)
  | rdWidth
  | wrWidth (v : Word)
  | rdHeight
  | wrHeight (v : Word)
  | rdFmt
  | wrFmt (v : Word)
  | rdStride
  | wrStride (v : Word)
  | rdOutW
  | wrOutW (v : Word)
  | rdOutH
  | wrOutH (v : Word)
  | rdRows
  | wrRows (v : Word)
  | rdNidat
  | wrNidat (v : Word)
  | rdPaln
  | wrPaln (v : Word)
  | rdCapIdat
  | wrCapIdat (v : Word)
  | rdCapStride
  | wrCapStride (v : Word)
  | rsvReg (a : Access)
  -- PORT: the row sink port's one event (R84, R105)
  | rowAck
  deriving DecidableEq, Repr

end Sys2Proof
end

