-- ==== Sys2Proof/WellFormed.lean ====
section
/-! DEFINITION. Which instruction terms stand for a row of the opcode table: the operand of a catch-all row is none of the
values that a specific row claims (R89: "the specific rows win"). -/

namespace Sys2Proof

/-- A reserved CMD word, field by field (R71). -/
def reservedWord (w : Word) : Bool :=
  let op := w.extractLsb' 0 4
  let rsv0 := w.extractLsb' 4 4
  let scale := w.extractLsb' 8 8
  let rsv1 := w.extractLsb' 16 16
  (op != 1#4 && op != 2#4) || rsv0 != 0#4 || rsv1 != 0#16 || (op == 1#4 && scale != 0#8)

/-- A type that is none of IHDR, PLTE, tRNS, IDAT, IEND (R17, R121). -/
def otherType (t : Word) : Bool :=
  t != 0x49484452#32 && t != 0x504C5445#32 && t != 0x74524E53#32 && t != 0x49444154#32 && t != 0x49454E44#32

/-- The nine supported (color type, bit depth) pairs, from R112's conditions on C and D. -/
def supportedPair (c d : Byte) : Bool :=
  (d == 8#8 || d == 16#8) && (c == 0#8 || c == 2#8 || c == 3#8 || c == 4#8 || c == 6#8) && !(c == 3#8 && d == 16#8)

/-- An access that reaches no register: not 32 bits wide, not aligned, or beyond 0x40 (R59, R104). -/
def reservedAccess (a : Access) : Bool :=
  let missing := fun (offset : BitVec 12) (size : AccessSize) =>
    size != .word || offset.extractLsb' 0 2 != 0#2 || 0x44#12 ≤ offset
  match a with
  | .read offset size => missing offset size
  | .write offset size _ => missing offset size

/-- Well-formedness of an instruction term. Only the five catch-all rows restrict their operands; a DECODE word may carry
any SCALE (R70). -/
def Instr.wf (i : Instr) : Bool :=
  match i with
  | .reservedCmd w => reservedWord w
  | .otherChunk _ t => otherType t
  | .badFilter v => 4#8 < v
  | .unsupportedPixfmt c d => !supportedPair c d
  | .rsvReg a => reservedAccess a
  | .info | .decode _ | .ihdr _ | .plte _ | .trns _ | .idat _ | .iend _ => true
  | .filtNone | .filtSub | .filtUp | .filtAverage | .filtPaeth => true
  | .gray8 | .gray16 | .rgb8 | .rgb16 | .indexed8 | .grayA8 | .grayA16 | .rgba8 | .rgba16 => true
  | .needMoreInput | .hasMoreOutput | .streamDone | .streamError | .rowAck => true
  | .rdCmd | .rdStatus | .rdInBase | .rdInLen | .rdCtx | .rdIrqEn | .rdWidth | .rdHeight | .rdFmt => true
  | .rdStride | .rdOutW | .rdOutH | .rdRows | .rdNidat | .rdPaln | .rdCapIdat | .rdCapStride => true
  | .wrCmd _ | .wrStatus _ | .wrInBase _ | .wrInLen _ | .wrCtx _ | .wrIrqEn _ | .wrWidth _ | .wrHeight _ => true
  | .wrFmt _ | .wrStride _ | .wrOutW _ | .wrOutH _ | .wrRows _ | .wrNidat _ | .wrPaln _ => true
  | .wrCapIdat _ | .wrCapStride _ => true

end Sys2Proof
end

