-- ==== Sys2Proof/Decode.lean ====
section
/-! DEFINITION. The decoder of the seven formats of the opcode table (R89), total and rejecting by name, and the
encoder written from the same encodings (R70 to R83). -/

namespace Sys2Proof

/-- The encoded units the block reads, one constructor for each format of the opcode table (R89).
A chunk's unit is its 8-byte header, length then type (R73). -/
inductive Code where
  | cmd (w : Word)
  | chunk (len type : Word)
  | filt (f : Byte)
  | pixfmt (sel : Half)
  | istat (st : BitVec 2)
  | reg (a : Access)
  | port (key : BitVec 1)
  deriving DecidableEq, Repr

/-- Why a unit is no instruction. Every other unit has exactly one row (R89). -/
inductive DecodeError where
  /-- The row sink port's key 0 is no event: the port has one event, with key 1 (R89). -/
  | noPortEvent
  deriving DecidableEq, Repr

/-- The CMD word (R70, R71): DECODE has OP = 2 and RSV0 = 0 in its low byte, and RSV1 = 0. -/
def decodeCmd (w : Word) : Instr :=
  if w = 0x00000001#32 then .info
  else if w.extractLsb' 0 8 = 0x02#8 ∧ w.extractLsb' 16 16 = 0#16 then .decode (w.extractLsb' 8 8)
  else .reservedCmd w

/-- The chunk type, compared as an exact 32-bit value (R73, R17). -/
def decodeChunk (len type : Word) : Instr :=
  if type = 0x49484452#32 then .ihdr len
  else if type = 0x504C5445#32 then .plte len
  else if type = 0x74524E53#32 then .trns len
  else if type = 0x49444154#32 then .idat len
  else if type = 0x49454E44#32 then .iend len
  else .otherChunk len type

/-- The filter byte (R80). -/
def decodeFilt (f : Byte) : Instr :=
  if f = 0x00#8 then .filtNone
  else if f = 0x01#8 then .filtSub
  else if f = 0x02#8 then .filtUp
  else if f = 0x03#8 then .filtAverage
  else if f = 0x04#8 then .filtPaeth
  else .badFilter f

/-- The pixel format selector (C << 8) | D (R81). -/
def decodePixfmt (sel : Half) : Instr :=
  if sel = 0x0008#16 then .gray8
  else if sel = 0x0010#16 then .gray16
  else if sel = 0x0208#16 then .rgb8
  else if sel = 0x0210#16 then .rgb16
  else if sel = 0x0308#16 then .indexed8
  else if sel = 0x0408#16 then .grayA8
  else if sel = 0x0410#16 then .grayA16
  else if sel = 0x0608#16 then .rgba8
  else if sel = 0x0610#16 then .rgba16
  else .unsupportedPixfmt (sel.extractLsb' 8 8) (sel.extractLsb' 0 8)

/-- The engine's status code (R83). -/
def decodeIstat (st : BitVec 2) : Instr :=
  if st = 0#2 then .needMoreInput
  else if st = 1#2 then .hasMoreOutput
  else if st = 2#2 then .streamDone
  else .streamError

/-- The register a word read at this offset reads (R20 to R35), if there is one. -/
def readRow? (offset : BitVec 12) : Option Instr :=
  if offset = 0x000#12 then some .rdCmd
  else if offset = 0x004#12 then some .rdStatus
  else if offset = 0x008#12 then some .rdInBase
  else if offset = 0x00C#12 then some .rdInLen
  else if offset = 0x010#12 then some .rdCtx
  else if offset = 0x014#12 then some .rdIrqEn
  else if offset = 0x018#12 then some .rdWidth
  else if offset = 0x01C#12 then some .rdHeight
  else if offset = 0x020#12 then some .rdFmt
  else if offset = 0x024#12 then some .rdStride
  else if offset = 0x028#12 then some .rdOutW
  else if offset = 0x02C#12 then some .rdOutH
  else if offset = 0x030#12 then some .rdRows
  else if offset = 0x034#12 then some .rdNidat
  else if offset = 0x038#12 then some .rdPaln
  else if offset = 0x03C#12 then some .rdCapIdat
  else if offset = 0x040#12 then some .rdCapStride
  else none

/-- The register a word write at this offset writes (R20 to R35), if there is one. -/
def writeRow? (offset : BitVec 12) (v : Word) : Option Instr :=
  if offset = 0x000#12 then some (.wrCmd v)
  else if offset = 0x004#12 then some (.wrStatus v)
  else if offset = 0x008#12 then some (.wrInBase v)
  else if offset = 0x00C#12 then some (.wrInLen v)
  else if offset = 0x010#12 then some (.wrCtx v)
  else if offset = 0x014#12 then some (.wrIrqEn v)
  else if offset = 0x018#12 then some (.wrWidth v)
  else if offset = 0x01C#12 then some (.wrHeight v)
  else if offset = 0x020#12 then some (.wrFmt v)
  else if offset = 0x024#12 then some (.wrStride v)
  else if offset = 0x028#12 then some (.wrOutW v)
  else if offset = 0x02C#12 then some (.wrOutH v)
  else if offset = 0x030#12 then some (.wrRows v)
  else if offset = 0x034#12 then some (.wrNidat v)
  else if offset = 0x038#12 then some (.wrPaln v)
  else if offset = 0x03C#12 then some (.wrCapIdat v)
  else if offset = 0x040#12 then some (.wrCapStride v)
  else none

/-- A register access. An access that is not an aligned 32-bit word, or that names a reserved offset, is RSV_REG
(R59, R104). No register's offset is unaligned, so alignment needs no test of its own. -/
def decodeReg (a : Access) : Instr :=
  match a with
  | .read offset .word => (readRow? offset).getD (.rsvReg a)
  | .write offset .word v => (writeRow? offset v).getD (.rsvReg a)
  | .read _ .byte => .rsvReg a
  | .read _ .half => .rsvReg a
  | .write _ .byte _ => .rsvReg a
  | .write _ .half _ => .rsvReg a

/-- The decoder, total on every unit of every format (R89). -/
def decode (c : Code) : Except DecodeError Instr :=
  match c with
  | .cmd w => .ok (decodeCmd w)
  | .chunk len type => .ok (decodeChunk len type)
  | .filt f => .ok (decodeFilt f)
  | .pixfmt sel => .ok (decodePixfmt sel)
  | .istat st => .ok (decodeIstat st)
  | .reg a => .ok (decodeReg a)
  | .port key => if key = 1#1 then .ok .rowAck else .error .noPortEvent

/-- The unit of each instruction, written from the encodings of 30_encoding.md (R70, R73, R80, R81, R83, R89). -/
def encode (i : Instr) : Code :=
  match i with
  | .info => .cmd 0x00000001#32
  | .decode scale => .cmd (0x00000002#32 ||| (scale.setWidth 32 <<< 8))
  | .reservedCmd w => .cmd w
  | .ihdr len => .chunk len 0x49484452#32
  | .plte len => .chunk len 0x504C5445#32
  | .trns len => .chunk len 0x74524E53#32
  | .idat len => .chunk len 0x49444154#32
  | .iend len => .chunk len 0x49454E44#32
  | .otherChunk len type => .chunk len type
  | .filtNone => .filt 0x00#8
  | .filtSub => .filt 0x01#8
  | .filtUp => .filt 0x02#8
  | .filtAverage => .filt 0x03#8
  | .filtPaeth => .filt 0x04#8
  | .badFilter v => .filt v
  | .gray8 => .pixfmt 0x0008#16
  | .gray16 => .pixfmt 0x0010#16
  | .rgb8 => .pixfmt 0x0208#16
  | .rgb16 => .pixfmt 0x0210#16
  | .indexed8 => .pixfmt 0x0308#16
  | .grayA8 => .pixfmt 0x0408#16
  | .grayA16 => .pixfmt 0x0410#16
  | .rgba8 => .pixfmt 0x0608#16
  | .rgba16 => .pixfmt 0x0610#16
  | .unsupportedPixfmt c d => .pixfmt (c ++ d)
  | .needMoreInput => .istat 0#2
  | .hasMoreOutput => .istat 1#2
  | .streamDone => .istat 2#2
  | .streamError => .istat 3#2
  | .rdCmd => .reg (.read 0x000#12 .word)
  | .wrCmd v => .reg (.write 0x000#12 .word v)
  | .rdStatus => .reg (.read 0x004#12 .word)
  | .wrStatus v => .reg (.write 0x004#12 .word v)
  | .rdInBase => .reg (.read 0x008#12 .word)
  | .wrInBase v => .reg (.write 0x008#12 .word v)
  | .rdInLen => .reg (.read 0x00C#12 .word)
  | .wrInLen v => .reg (.write 0x00C#12 .word v)
  | .rdCtx => .reg (.read 0x010#12 .word)
  | .wrCtx v => .reg (.write 0x010#12 .word v)
  | .rdIrqEn => .reg (.read 0x014#12 .word)
  | .wrIrqEn v => .reg (.write 0x014#12 .word v)
  | .rdWidth => .reg (.read 0x018#12 .word)
  | .wrWidth v => .reg (.write 0x018#12 .word v)
  | .rdHeight => .reg (.read 0x01C#12 .word)
  | .wrHeight v => .reg (.write 0x01C#12 .word v)
  | .rdFmt => .reg (.read 0x020#12 .word)
  | .wrFmt v => .reg (.write 0x020#12 .word v)
  | .rdStride => .reg (.read 0x024#12 .word)
  | .wrStride v => .reg (.write 0x024#12 .word v)
  | .rdOutW => .reg (.read 0x028#12 .word)
  | .wrOutW v => .reg (.write 0x028#12 .word v)
  | .rdOutH => .reg (.read 0x02C#12 .word)
  | .wrOutH v => .reg (.write 0x02C#12 .word v)
  | .rdRows => .reg (.read 0x030#12 .word)
  | .wrRows v => .reg (.write 0x030#12 .word v)
  | .rdNidat => .reg (.read 0x034#12 .word)
  | .wrNidat v => .reg (.write 0x034#12 .word v)
  | .rdPaln => .reg (.read 0x038#12 .word)
  | .wrPaln v => .reg (.write 0x038#12 .word v)
  | .rdCapIdat => .reg (.read 0x03C#12 .word)
  | .wrCapIdat v => .reg (.write 0x03C#12 .word v)
  | .rdCapStride => .reg (.read 0x040#12 .word)
  | .wrCapStride v => .reg (.write 0x040#12 .word v)
  | .rsvReg a => .reg a
  | .rowAck => .port 1#1

/-- The 12-bit key of an aligned 32-bit access, `offset | dir` with dir = 1 for a write (R89). -/
def regKeyCode (key : BitVec 12) : Code :=
  if key &&& 1#12 = 1#12 then .reg (.write (key &&& 0xFFE#12) .word 0#32) else .reg (.read key .word)

/-- The unit an instruction of the opcode table stands for, given only its bits. The table's rows do not say the format,
and rows of different formats share bits, so each width has a fixed order of preference (log 14): 32 bits a known chunk
type before a command word; 16 bits a register row before a pixel format before a reserved register; 8 bits a filter byte;
the exact widths 12, 2 and 1 of the REG, ISTAT and PORT keys. -/
def tableCode (nbits w : Nat) : Option Code :=
  match nbits with
  | 32 =>
    match decodeChunk 0#32 (BitVec.ofNat 32 w) with
    | .otherChunk _ _ => some (.cmd (BitVec.ofNat 32 w))
    | _ => some (.chunk 0#32 (BitVec.ofNat 32 w))
  | 16 =>
    match decode (regKeyCode (BitVec.ofNat 12 w)), decodePixfmt (BitVec.ofNat 16 w), decide (w < 4096) with
    | .ok (.rsvReg _), .unsupportedPixfmt _ _, true => some (regKeyCode (BitVec.ofNat 12 w))
    | .ok (.rsvReg _), _, _ => some (.pixfmt (BitVec.ofNat 16 w))
    | _, _, true => some (regKeyCode (BitVec.ofNat 12 w))
    | _, _, false => some (.pixfmt (BitVec.ofNat 16 w))
  | 12 => some (regKeyCode (BitVec.ofNat 12 w))
  | 8 => some (.filt (BitVec.ofNat 8 w))
  | 2 => some (.istat (BitVec.ofNat 2 w))
  | 1 => some (.port (BitVec.ofNat 1 w))
  | _ => none

/-- The instruction the decoder reads from the bits of an opcode-table row. -/
def decodeTableWord (nbits w : Nat) : Option Instr :=
  match tableCode nbits w with
  | some c => (decode c).toOption
  | none => none

end Sys2Proof
end

