-- ==== Sys2Proof/Machine/State.lean ====
section
/-! DEFINITION. The state of the block as plain data (R18, R90): host registers, internal state, buffers, INPUT, the
engine's state, and the moves the outside world offers. -/

namespace Sys2Proof.Machine

/-- The control state (R50). -/
inductive Phase where
  | idle | setup | engine | consume | sink
  deriving DecidableEq, Repr

/-- The cause codes 0 to 14 (R173). Code 15 is never produced. -/
inductive Cause where
  | none | badCommand | badBuffer | invalidScale | truncatedInput | badSignature | badIhdr | unsupportedIhdr | noIdat
  | zeroOutput | capacity | inflateError | badFilter | streamTruncated | engineProtocol
  deriving DecidableEq, Repr

/-- The two commands (R38). -/
inductive CmdOp where
  | info | decode
  deriving DecidableEq, Repr, Inhabited

/-- The stored fields of STATUS (R21). BUSY and PHASE are views of the phase. -/
structure Status where
  done : Bool
  ok : Bool
  fail : Bool
  ignored : Bool
  cause : Cause
  deriving DecidableEq, Repr

/-- The result registers WIDTH to PALN (R26 to R34). ROWS is also the counter `out_y` (R46; log 17). -/
structure Results where
  width : Word
  height : Word
  fmt : Word
  stride : Word
  outW : Word
  outH : Word
  rows : Word
  nidat : Word
  paln : Word
  deriving DecidableEq, Repr

/-- The operands latched at command start (R38). -/
structure Latched where
  op : CmdOp
  scale : Byte
  base : Word
  len : Word
  ctx : Word
  deriving DecidableEq, Repr, Inhabited

/-- The image header values (R39). -/
structure Header where
  w : Word
  h : Word
  d : Byte
  c : Byte
  bpp : BitVec 4
  stride : Nat
  outW : BitVec 31
  outH : BitVec 31
  deriving DecidableEq, Repr, Inhabited

/-- One palette entry, or one pixel's lanes (R40, R164). -/
structure Rgb where
  r : Byte
  g : Byte
  b : Byte
  deriving DecidableEq, Repr, Inhabited

/-- One entry of `Idx`: the payload's offset from `base` and its length (R42). -/
structure IdatEntry where
  ptr : Word
  len : Word
  deriving DecidableEq, Repr, Inhabited

/-- What the chunk walk writes: `Pal`, `Alpha`, `Idx` (its recorded entries, so `n_idat` is its length; log 17), their
counts, and the walk's cursor (R40 to R42, R51; log 13). -/
structure Tables where
  pal : List Rgb
  plteN : BitVec 9
  alpha : List Byte
  trnsN : BitVec 9
  idx : List IdatEntry
  pos : Nat
  walking : Bool
  deriving DecidableEq, Repr, Inhabited

/-- A request to the engine (R82). -/
structure Request where
  inAddr : Word
  inLen : Word
  outOfs : BitVec 15
  outCap : Half
  parseHdr : Bool
  hasMore : Bool
  deriving DecidableEq, Repr, Inhabited

/-- A response of the engine (R83). -/
structure Response where
  consumed : Word
  written : Half
  status : BitVec 2
  deriving DecidableEq, Repr, Inhabited

/-- The inflate driver (R43). `fresh` is 1 from the engine's response to its check by R134 (log 12). -/
structure Driver where
  ci : Half
  curOfs : Word
  dictOfs : BitVec 15
  first : Bool
  req : Request
  resp : Response
  fresh : Bool
  spPos : Half
  spEnd : Half
  deriving DecidableEq, Repr, Inhabited

/-- The engine's opaque state `E` (R49): the state the block's reset of the engine leaves, or some image of the engine's
own (log 5). -/
inductive EngineState where
  | atReset
  | image (bytes : List Byte)
  deriving DecidableEq, Repr, Inhabited

/-- `Dict` (R44): the bytes the engine has written since the last draw, and the draw every other byte comes from (log 3). -/
structure Dictionary where
  cells : List Host.Cell
  draw : Nat
  deriving DecidableEq, Repr, Inhabited

/-- What the elements of a buffer hold that are not listed: a free draw, or one value all over (log 16). -/
inductive Rest (α : Type) where
  | drawn (n : Nat)
  | all (v : α)
  deriving DecidableEq, Repr, Inhabited

/-- A buffer of MAX_STRIDE elements (R45, R47, R48, R53): the elements from 0 on that are listed, and what every other element
holds (log 16). -/
structure Buffer (α : Type) where
  head : List α
  rest : Rest α
  deriving DecidableEq, Repr, Inhabited

/-- The scanline reassembler (R45, R46): the line buffers `Cur` and `Prev`. -/
structure Line where
  cur : Buffer Byte
  prev : Buffer Byte
  slPos : Nat
  f : BitVec 3
  y : Nat
  deriving DecidableEq, Repr, Inhabited

/-- One accumulator slot: three unsigned 16-bit sums (R48). -/
structure Sum where
  r : Half
  g : Half
  b : Half
  deriving DecidableEq, Repr, Inhabited

/-- The pixel pipeline's buffers `Out` and `Acc` (R47, R48). -/
structure Pixels where
  out : Buffer Half
  acc : Buffer Sum
  deriving DecidableEq, Repr, Inhabited

/-- The internal state and buffers (R18 b and c) but for the phase and `out_y`, which the host can read. -/
structure Internal where
  cmd : Latched
  hdr : Header
  tab : Tables
  drv : Driver
  engine : EngineState
  dict : Dictionary
  line : Line
  pix : Pixels
  deriving DecidableEq, Repr, Inhabited

/-- A row on the row sink port (R84). -/
structure Row where
  index : Word
  width : Word
  ctx : Word
  words : List Half
  deriving DecidableEq, Repr

/-- A move of the host (R90a). -/
inductive HostMove where
  | access (a : Access)
  | rowAck
  | readRow (k : Word)
  | writeInput (addr : Word) (b : Byte)
  deriving DecidableEq, Repr

/-- An answer of the engine: its response, the bytes it writes to `Dict` from `out_ofs` on, and its new state (R130). -/
structure Answer where
  resp : Response
  bytes : List Byte
  newE : EngineState
  deriving DecidableEq, Repr

/-- Whose step is next (R90; log 7). -/
inductive Turn where
  | host | block | engine | reset
  deriving DecidableEq, Repr

/-- Why the machine has no next step. -/
inductive Fault where
  /-- Raised by the scheduler in phase IDLE or SINK when the host offers no move: 93 U12 `stuck`, R199. Safe. -/
  | hostSilent
  /-- Raised by the scheduler in phase ENGINE when neither the engine nor the host offers a move: 93 U12 `stuck`, R199. Safe. -/
  | engineSilent
  deriving DecidableEq, Repr

/-- Moves the model does not make. -/
inductive Refusal where
  /-- Raised by exec's arm of an instruction that has no meaning yet. Safe. -/
  | notModelled (mnemonic : String)
  /-- Raised by a host write to INPUT in the running command's window: R67, R193, 93 U9 `refuse` (log 9). Safe. -/
  | inputWriteWhileBusy
  /-- Raised by an engine answer whose bytes are not the granted slice's: 93 U10 `refuse`, R55, R132. Safe. -/
  | engineOutsideSlice
  /-- Raised by a read of a row word outside phase SINK or past the row's width: 93 U13 `refuse`, R192. Safe. -/
  | rowReadOutsideSink
  deriving DecidableEq, Repr

/-- The machine (R18, R90). The last six fields are the model's own (log 7, 8, 18). -/
structure State where
  phase : Phase
  status : Status
  inBase : Word
  inLen : Word
  ctx : Word
  irqEn : Bool
  res : Results
  cmd : Latched
  hdr : Header
  tab : Tables
  drv : Driver
  engine : EngineState
  dict : Dictionary
  line : Line
  pix : Pixels
  mem : List Host.Cell
  bus : Word
  rowWord : Half
  presented : List Row
  draws : Nat
  hostQ : List HostMove
  engineQ : List Answer
  turns : List Turn
  deriving DecidableEq, Repr

/-- Every result register at 0 (R94, R189). -/
def Results.zero : Results := ⟨0#32, 0#32, 0#32, 0#32, 0#32, 0#32, 0#32, 0#32, 0#32⟩

/-- The state after reset (R189). The items R189 calls unspecified have the values log 2 names. -/
def State.reset : State where
  phase := .idle
  status := ⟨false, false, false, false, .none⟩
  inBase := 0#32
  inLen := 0#32
  ctx := 0#32
  irqEn := false
  res := Results.zero
  cmd := ⟨.info, 0#8, 0#32, 0#32, 0#32⟩
  hdr := ⟨0#32, 0#32, 0#8, 0#8, 0#4, 0, 0#31, 0#31⟩
  tab := ⟨List.replicate 256 ⟨0#8, 0#8, 0#8⟩, 0#9, List.replicate 256 0#8, 0#9, [], 0, false⟩
  drv := ⟨0#16, 0#32, 0#15, false, ⟨0#32, 0#32, 0#15, 0#16, false, false⟩, ⟨0#32, 0#16, 0#2⟩, false, 0#16, 0#16⟩
  engine := .image []
  dict := ⟨[], 0⟩
  line := ⟨⟨[], .drawn 0⟩, ⟨[], .drawn 1⟩, 0, 0#3, 0⟩
  pix := ⟨⟨[], .drawn 0⟩, ⟨[], .drawn 0⟩⟩
  mem := []
  bus := 0#32
  rowWord := 0#16
  presented := []
  draws := 0
  hostQ := []
  engineQ := []
  turns := []

end Sys2Proof.Machine
end

