-- ==== Sys2Proof/Config.lean ====
section
/-! DEFINITION. The parameters of this hardware (R6 to R9) and the values the spec leaves free (R37, R44, R45, R47, R48, R189). -/

namespace Sys2Proof.Config

/-- `Wd`, the size of the dictionary window in bytes (R6: fixed, not a parameter). -/
def wd : Nat := 32768

/-- `IDAT_CAP` of this hardware (R7, decision D19). -/
def idatCap : Nat := 64

/-- `MAX_STRIDE` of this hardware (R8, decision D20). -/
def maxStride : Nat := 32768

/-- `INFO_MIN_LEN` of this hardware (R9, decision D8). -/
def infoMinLen : Nat := 24

/-- FREE VALUE: what the n-th read of a diagnostic register returns while BUSY = 1 (R37, R196; log 4). -/
opaque freeRead : Nat → Word

/-- FREE VALUE: the byte of `Dict` at an address the engine has not written since draw `n` (R44; log 3). -/
opaque freeDictByte : Nat → Nat → Byte

/-- FREE VALUE: the byte of a line buffer at an index the block has not written since draw `n` (R45; log 16). -/
opaque freeLineByte : Nat → Nat → Byte

/-- FREE VALUE: the word of `Out` at an index the block has not written since draw `n` (R47; log 16). -/
opaque freeOutWord : Nat → Nat → Half

/-- FREE VALUE: the slot of `Acc` at an index the block has not written since draw `n` (R48; log 16). -/
opaque freeSum : Nat → Nat → Machine.Sum

/-- FREE VALUE: the internal state and buffers after the n-th end of a command or reset (R176, R189, 93 U8; log 15). -/
opaque freeInternal : Nat → Machine.Internal

end Sys2Proof.Config
end

