-- ==== Sys2Proof/Machine/Ops.lean ====
section
/-! DEFINITION. The shared operations: INPUT memory, `Dict`, sequencing of checks, the entry of a failure and of a success,
command start, register read-back, row presentation, and the steps of the agents that have no table row. -/

namespace Sys2Proof.Machine

/-- A step of the machine. -/
abbrev Result := Host.Outcome State Fault Refusal

/-! ## INPUT (R53, R61; log 1) -/

/-- INPUT as a sparse list of bytes, addresses strictly rising. -/
abbrev Memory := List Host.Cell

/-- What an unlisted INPUT byte reads as (DESIGN CHOICE, unsafe: log 1). -/
def Memory.blank : Byte := 0#8

/-- Read one byte of INPUT. -/
def Memory.read : Memory → Nat → Byte
  | [], _ => Memory.blank
  | (k, b) :: m, a => if k = a then b else Memory.read m a

/-- Write one byte of INPUT, keeping the canonical form. -/
def Memory.write : Memory → Nat → Byte → Memory
  | [], a, v => if v = Memory.blank then [] else [(a, v)]
  | (k, b) :: m, a, v =>
    if a < k then (if v = Memory.blank then (k, b) :: m else (a, v) :: (k, b) :: m)
    else if a = k then (if v = Memory.blank then m else (a, v) :: m)
    else (k, b) :: Memory.write m a v

/-- Every listed address is at least `lo` and below 2^32, the addresses rise strictly, and no entry reads as an unlisted
byte would. -/
def Memory.wfFrom : Nat → Memory → Bool
  | _, [] => true
  | lo, (k, b) :: m => decide (lo ≤ k) && decide (k < 2 ^ 32) && decide (b ≠ Memory.blank) && Memory.wfFrom (k + 1) m

/-- The canonical form of INPUT. -/
def Memory.wf (m : Memory) : Bool := Memory.wfFrom 0 m

/-- Write bytes at consecutive addresses. -/
def Memory.load (m : Memory) (a : Nat) : List Byte → Memory
  | [] => m
  | b :: bs => Memory.load (Memory.write m a b) (a + 1) bs

/-! ## Dict (R44, R55; log 3) -/

/-- Insert or replace one byte in a list of cells with rising addresses. -/
def putCell : List Host.Cell → Nat → Byte → List Host.Cell
  | [], a, v => [(a, v)]
  | (k, b) :: m, a, v =>
    if a < k then (a, v) :: (k, b) :: m else if a = k then (a, v) :: m else (k, b) :: putCell m a v

/-- Find a listed byte. -/
def findCell : List Host.Cell → Nat → Option Byte
  | [], _ => none
  | (k, b) :: m, a => if k = a then some b else findCell m a

/-- Read one byte of `Dict`: what the engine last wrote there, else a free value (R44). -/
def Dictionary.read (d : Dictionary) (a : Nat) : Byte := (findCell d.cells a).getD (Config.freeDictByte d.draw a)

/-- The engine's write of consecutive `Dict` bytes (R130). -/
def Dictionary.fill (d : Dictionary) (a : Nat) : List Byte → Dictionary
  | [] => d
  | b :: bs => Dictionary.fill { d with cells := putCell d.cells a b } (a + 1) bs

/-! ## LINE, OUT and ACC (R45, R47, R48; log 16) -/

/-- An element that is not listed. -/
def Rest.read {α : Type} (free : Nat → Nat → α) (r : Rest α) (k : Nat) : α :=
  match r with
  | .drawn n => free n k
  | .all v => v

/-- Read element `k`: what is listed there, else what the rest of the buffer holds. -/
def Buffer.read {α : Type} (free : Nat → Nat → α) (b : Buffer α) (k : Nat) : α := b.head.getD k (b.rest.read free k)

/-- Write element `i`. The elements below it that are not listed yet keep their values. -/
def Buffer.write {α : Type} (free : Nat → Nat → α) (b : Buffer α) (i : Nat) (v : α) : Buffer α :=
  if i < b.head.length then { b with head := b.head.set i v }
  else { b with head := (List.range i).map (b.read free) ++ [v] }

/-- Write the elements from 0 on. -/
def Buffer.load {α : Type} (b : Buffer α) (vs : List α) : Buffer α := { b with head := vs ++ b.head.drop vs.length }

/-- Element i of a line buffer (R45). -/
def byteAt (row : Buffer Byte) (i : Nat) : Byte := row.read Config.freeLineByte i

/-- Word k of `Out` (R47). -/
def wordAt (out : Buffer Half) (k : Nat) : Half := out.read Config.freeOutWord k

/-- Slot j of `Acc` (R48). -/
def sumAt (acc : Buffer Sum) (j : Nat) : Sum := acc.read Config.freeSum j

/-! ## Views of the state -/

/-- STATUS.BUSY: 1 exactly when a command runs (R21). -/
def State.busy (s : State) : Bool := s.phase != .idle

/-- `n_idat` (R42; log 17). -/
def State.nIdat (s : State) : Nat := s.tab.idx.length

/-- The address of the byte at offset `off` from the latched base (R14). -/
def State.inAddr (s : State) (off : Nat) : Nat := (s.cmd.base.toNat + off) % 2 ^ 32

/-- `In(off)` (R14). -/
def State.inByte (s : State) (off : Nat) : Byte := Memory.read s.mem (s.inAddr off)

/-- `BE32(off)`: four single-byte reads, the first most significant (R14, R56, R60). -/
def State.be32 (s : State) (off : Nat) : Word :=
  (s.inByte off ++ s.inByte (off + 1)) ++ (s.inByte (off + 2) ++ s.inByte (off + 3))

/-! ## Ends of a command -/

/-- Replace the internal state and buffers. -/
def State.withInternal (s : State) (i : Internal) : State :=
  { s with
    cmd := i.cmd, hdr := i.hdr, tab := i.tab, drv := i.drv, engine := i.engine, dict := i.dict, line := i.line, pix := i.pix }

/-- After a command's end and after a reset the internal state and buffers hold unspecified values: free values
(R91, R176, R189, 93 U8; log 15). -/
def forgetInternal (s : State) : State := { s.withInternal (Config.freeInternal s.draws) with draws := s.draws + 1 }

/-- TAKING A FAILURE: `raise Fatal(c)` (R15, R176). There is no trap return (R178): the host starts over with CMD. -/
def raiseFatal (c : Cause) (s : State) : State :=
  forgetInternal
    { s with status := { s.status with done := true, fail := true, ok := false, cause := c }, phase := .idle }

/-- `finish OK` (R177). -/
def finishOk (s : State) : State :=
  forgetInternal { s with status := { s.status with done := true, ok := true }, phase := .idle }

/-- The work of a block step so far: it goes on, or a failure has been raised and nothing after it runs (R15). -/
inductive Work where
  | ok (s : State)
  | fail (c : Cause) (s : State)

/-- Go on with `f` unless a failure has been raised. -/
def Work.andThen (r : Work) (f : State → Work) : Work :=
  match r with
  | .ok s => f s
  | .fail c s => .fail c s

/-- The state a block step leaves: the failure it raised is entered in the same step (R176). -/
def Work.settle (r : Work) : State :=
  match r with
  | .ok s => s
  | .fail c s => raiseFatal c s

/-- `if bad: raise Fatal(c)`. -/
def failIf (bad : Bool) (c : Cause) (s : State) : Work := if bad then .fail c s else .ok s

/-! ## Command start (R94, R95) -/

/-- Every line of R94 but the phase change: latch the operands, clear STATUS (IGNORED stays) and the result registers.
The list of presented rows is the command's own (log 18). -/
def latchCommand (v : Word) (s : State) : State :=
  { s with
    cmd := ⟨if v.extractLsb' 0 4 = 1#4 then .info else .decode, v.extractLsb' 8 8, s.inBase, s.inLen, s.ctx⟩
    status := { s.status with done := false, ok := false, fail := false, cause := .none }
    res := Results.zero
    presented := [] }

/-- R94 for a word that is not reserved. -/
def startCommand (v : Word) (s : State) : State := { latchCommand v s with phase := .setup }

/-- R95 for a reserved word: BAD_COMMAND in the same step. -/
def failReserved (v : Word) (s : State) : State := raiseFatal .badCommand (latchCommand v s)

/-! ## Register reads (R99, R102) -/

/-- A read returns a value to the host and has no other effect (R61, R102). -/
def returnValue (v : Word) (s : State) : State := { s with bus := v }

/-- A read of a diagnostic register: exact when BUSY = 0, a free value when BUSY = 1 (R37; log 4). -/
def returnDiagnostic (v : Word) (s : State) : State :=
  if s.busy then { s with bus := Config.freeRead s.draws, draws := s.draws + 1 } else { s with bus := v }

/-! ## The row sink port (R84, R170, R171) -/

/-- The words of a row: `Out[0..width-1]`, the width being out_w (R170). -/
def State.rowWords (s : State) : List Half := (List.range s.hdr.outW.toNat).map (wordAt s.pix.out)

/-- Row presentation (R170). -/
def presentRow (s : State) : State :=
  { s with
    res := { s.res with rows := s.res.rows + 1#32 }
    presented := s.presented ++ [⟨s.res.rows, s.hdr.outW.setWidth 32, s.cmd.ctx, s.rowWords⟩]
    phase := .sink }

/-- Row acknowledgement: ignored unless a row is presented (R105, R171). -/
def acknowledgeRow (s : State) : State := if s.phase = .sink then { s with phase := .consume } else s

/-! ## Steps without a table row (R90) -/

/-- Does an answer keep to the granted slice (R55, R132)? A response whose counts are out of bounds is not refused here:
R134 catches it (log 6). -/
def answerInSlice (req : Request) (a : Answer) : Bool :=
  decide (a.bytes.length ≤ req.outCap.toNat) && decide (req.outOfs.toNat + a.bytes.length ≤ Config.wd)
    && (decide (req.outCap.toNat < a.resp.written.toNat) || decide (a.bytes.length = a.resp.written.toNat))

/-- The engine's step (R130). Outside phase ENGINE the port accepts no response, so the answer is ignored (R190). -/
def engineStep (a : Answer) (s : State) : Result :=
  if s.phase ≠ .engine then .next s
  else if answerInSlice s.drv.req a then
    .next { s with
      dict := s.dict.fill s.drv.req.outOfs.toNat a.bytes
      engine := a.newE
      drv := { s.drv with resp := a.resp, fresh := true }
      phase := .consume }
  else .refused .engineOutsideSlice

/-- Reset (R189, R190). INPUT and the moves still to come are outside the block; the items R189 calls unspecified are
free values (log 15, log 29). -/
def resetStep (s : State) : State :=
  forgetInternal
    { State.reset with
      mem := s.mem
      draws := s.draws
      hostQ := s.hostQ
      engineQ := s.engineQ
      turns := s.turns }

/-- Is an INPUT address in the window of the latched command (R54)? -/
def State.inWindow (s : State) (a : Nat) : Bool :=
  decide (s.cmd.base.toNat ≤ a) && decide (a < s.cmd.base.toNat + s.cmd.len.toNat)

/-- Has a host move no step now? A write to INPUT outside the window has none while BUSY = 1 (R90), and it is not refused
either (R193): it waits until BUSY = 0 (log 9). -/
def State.waits (s : State) (m : HostMove) : Bool :=
  match m with
  | .writeInput addr _ => s.busy && !s.inWindow addr.toNat
  | .access _ | .rowAck | .readRow _ => false

/-- The oldest of the host's moves that does not wait, and the moves left. -/
def takeMove (waits : HostMove → Bool) : List HostMove → Option (HostMove × List HostMove)
  | [] => none
  | m :: ms => if waits m then (takeMove waits ms).map fun p => (p.1, m :: p.2) else some (m, ms)

/-- The step of a host write to INPUT: it takes place while BUSY = 0, and one that does not wait while BUSY = 1 is a write in
the window (R53, R67, R90, R193; log 9). -/
def hostWriteInput (addr : Word) (b : Byte) (s : State) : Result :=
  if s.busy then .refused .inputWriteWhileBusy
  else .next { s with mem := Memory.write s.mem addr.toNat b }

/-- A host read of word `k` of the presented row (R84, R192; log 10). -/
def hostReadRow (k : Word) (s : State) : Result :=
  if s.phase = .sink ∧ k.toNat < s.hdr.outW.toNat then .next { s with rowWord := wordAt s.pix.out k.toNat }
  else .refused .rowReadOutsideSink

end Sys2Proof.Machine
end

