-- ==== Sys2Proof/Machine/Flags.lean ====
section
/-! DEFINITION. The flags and the packed registers: STATUS, FMT, PALN, the interrupt line, and the has-more-input flag
(R21, R28, R34, R52, R128, R181). -/

namespace Sys2Proof.Machine

/-- STATUS.PHASE codes (R50). -/
def Phase.code (p : Phase) : BitVec 3 :=
  match p with
  | .idle => 0#3
  | .setup => 1#3
  | .engine => 2#3
  | .consume => 3#3
  | .sink => 4#3

/-- STATUS.CAUSE codes (R173). -/
def Cause.code (c : Cause) : BitVec 4 :=
  match c with
  | .none => 0#4
  | .badCommand => 1#4
  | .badBuffer => 2#4
  | .invalidScale => 3#4
  | .truncatedInput => 4#4
  | .badSignature => 5#4
  | .badIhdr => 6#4
  | .unsupportedIhdr => 7#4
  | .noIdat => 8#4
  | .zeroOutput => 9#4
  | .capacity => 10#4
  | .inflateError => 11#4
  | .badFilter => 12#4
  | .streamTruncated => 13#4
  | .engineProtocol => 14#4

/-- The STATUS word, its fields from bit 31 down (R21). -/
def State.statusWord (s : State) : Word :=
  0#13 ++ s.phase.code ++ 0#4 ++ s.status.cause.code ++ 0#3 ++ BitVec.ofBool s.status.ignored
    ++ BitVec.ofBool s.status.fail ++ BitVec.ofBool s.status.ok ++ BitVec.ofBool s.status.done ++ BitVec.ofBool s.busy

/-- Load FMT.D and FMT.C (R28, R111). -/
def fmtSetFormat (fmt : Word) (c d : Byte) : Word := fmt.extractLsb' 16 16 ++ c ++ d

/-- Load FMT.BPP (R28, R113). -/
def fmtSetBpp (fmt : Word) (bpp : BitVec 4) : Word := fmt.extractLsb' 20 12 ++ bpp ++ fmt.extractLsb' 0 16

/-- The PALN word (R34). -/
def palnWord (plteN trnsN : BitVec 9) : Word := 0#7 ++ trnsN ++ 0#7 ++ plteN

/-- The IRQ_EN word (R25). -/
def State.irqEnWord (s : State) : Word := 0#31 ++ BitVec.ofBool s.irqEn

/-- The interrupt line (R181). -/
def State.irq (s : State) : Bool := s.status.done && s.irqEn

/-- The entry the driver reads from. -/
def State.entry (s : State) : IdatEntry := s.tab.idx.getD s.drv.ci.toNat ⟨0#32, 0#32⟩

/-- `Idx[ci].len - cur_ofs`, the bytes of the current IDAT not consumed yet. -/
def State.left (s : State) : Nat := s.entry.len.toNat - s.drv.curOfs.toNat

/-- Is there a later IDAT: `ci + 1 < n_idat`? -/
def State.laterIdat (s : State) : Bool := decide (s.drv.ci.toNat + 1 < s.nIdat)

/-- The has-more-input flag, and R140's `more` (R128). -/
def State.hasMore (s : State) : Bool := decide (0 < s.left) || s.laterIdat

end Sys2Proof.Machine
end

