-- ==== Sys2Proof/Machine/Operands.lean ====
section
/-! DEFINITION. The operands: filter neighbours and predictors, bytes per pixel, the nine pixel extractions and RGB565
packing (R81, R113, R144 to R163). -/

namespace Sys2Proof.Machine

/-! ## Filters (R144 to R151) -/

/-- `a`, the left neighbour of data byte i (R144). -/
def State.left? (s : State) (i : Nat) : Byte :=
  if s.hdr.bpp.toNat ≤ i then byteAt s.line.cur (i - s.hdr.bpp.toNat) else 0#8

/-- `b`, the byte above (R144). -/
def State.up? (s : State) (i : Nat) : Byte := byteAt s.line.prev i

/-- `c`, the upper left neighbour (R144). -/
def State.upLeft? (s : State) (i : Nat) : Byte :=
  if s.hdr.bpp.toNat ≤ i then byteAt s.line.prev (i - s.hdr.bpp.toNat) else 0#8

/-- A predictor of the left, upper and upper-left bytes. -/
abbrev Predictor := Byte → Byte → Byte → Byte

/-- R146. -/
def predNone : Predictor := fun _ _ _ => 0#8

/-- R147. -/
def predSub : Predictor := fun a _ _ => a

/-- R148. -/
def predUp : Predictor := fun _ b _ => b

/-- R149: the sum is formed exactly, so it does not wrap before the division. -/
def predAverage : Predictor := fun a b _ => BitVec.ofNat 8 ((a.toNat + b.toNat) / 2)

/-- R150, R151: a beats b, and b beats c. -/
def predPaeth : Predictor := fun a b c =>
  let p : Int := (a.toNat : Int) + b.toNat - c.toNat
  let pa := (p - a.toNat).natAbs
  let pb := (p - b.toNat).natAbs
  let pc := (p - c.toNat).natAbs
  if pa ≤ pb ∧ pa ≤ pc then a else if pb ≤ pc then b else c

/-! ## Pixel formats (R81, R113, R154 to R162) -/

/-- Bytes per pixel from C and D (R113). -/
def bytesPerPixel (c d : Byte) : BitVec 4 :=
  let depth := d.toNat
  BitVec.ofNat 4 <|
    if c = 0#8 then depth / 8
    else if c = 2#8 then 3 * depth / 8
    else if c = 3#8 then 1
    else if c = 4#8 then 2 * depth / 8
    else 4 * depth / 8

/-- How pixel x of a completed row is read, given the palette. -/
abbrev Extract := Buffer Byte → List Rgb → Nat → Rgb

/-- Three equal lanes. -/
def gray (v : Byte) : Rgb := ⟨v, v, v⟩

/-- R154. -/
def extractGray8 : Extract := fun row _ x => gray (byteAt row x)

/-- R155. -/
def extractGray16 : Extract := fun row _ x => gray (byteAt row (2 * x))

/-- R156. -/
def extractRgb8 : Extract := fun row _ x => ⟨byteAt row (3 * x), byteAt row (3 * x + 1), byteAt row (3 * x + 2)⟩

/-- R157. -/
def extractRgb16 : Extract := fun row _ x => ⟨byteAt row (6 * x), byteAt row (6 * x + 2), byteAt row (6 * x + 4)⟩

/-- R158: the stored entry, whatever plte_n is. -/
def extractIndexed8 : Extract := fun row pal x => pal.getD (byteAt row x).toNat ⟨0#8, 0#8, 0#8⟩

/-- R159. -/
def extractGrayA8 : Extract := fun row _ x => gray (byteAt row (2 * x))

/-- R160. -/
def extractGrayA16 : Extract := fun row _ x => gray (byteAt row (4 * x))

/-- R161. -/
def extractRgba8 : Extract := fun row _ x => ⟨byteAt row (4 * x), byteAt row (4 * x + 1), byteAt row (4 * x + 2)⟩

/-- R162. -/
def extractRgba16 : Extract := fun row _ x => ⟨byteAt row (8 * x), byteAt row (8 * x + 2), byteAt row (8 * x + 4)⟩

/-- RGB565 packing, by truncation (R163). -/
def pack (p : Rgb) : Half :=
  ((p.r &&& 0xF8#8).setWidth 16 <<< 8) ||| ((p.g &&& 0xFC#8).setWidth 16 <<< 3) ||| (p.b >>> 3).setWidth 16

/-- The selector (C << 8) | D (R81). -/
def formatSelector (c d : Byte) : Half := c ++ d

/-- The latched command as its CMD word (R38, R70). -/
def Latched.word (c : Latched) : Word :=
  match c.op with
  | .info => 0x00000001#32
  | .decode => 0x00000002#32 ||| (c.scale.setWidth 32 <<< 8)

end Sys2Proof.Machine
end

