-- ==== Sys2Proof/Machine/Chunks.lean ====
section
/-! DEFINITION. The CHUNK family: the IHDR stage and the steps of the chunk walk (R106 to R123). -/

namespace Sys2Proof.Machine

/-! ## Checks shared by INFO and DECODE -/

/-- R106. -/
def windowCheck (s : State) : Work :=
  failIf (decide (2 ^ 32 < s.cmd.base.toNat + s.cmd.len.toNat)) .badBuffer s

/-- The 8 signature bytes (R72). -/
def signature : List Byte := [0x89#8, 0x50#8, 0x4E#8, 0x47#8, 0x0D#8, 0x0A#8, 0x1A#8, 0x0A#8]

/-- R107. -/
def signatureGate (s : State) : Work :=
  (failIf (decide (s.cmd.len.toNat < 8)) .truncatedInput s).andThen fun s =>
    failIf ((List.range 8).map s.inByte != signature) .badSignature s

/-- The least length R108 asks for. -/
def ihdrMinLen (op : CmdOp) : Nat :=
  match op with
  | .info => Config.infoMinLen
  | .decode => 29

/-! ## The header (R111 to R113) -/

/-- Header load (R111). -/
def loadHeader (s : State) : State :=
  { s with
    hdr := { s.hdr with w := s.be32 16, h := s.be32 20, d := s.inByte 24, c := s.inByte 25 }
    res := { s.res with
      width := s.be32 16, height := s.be32 20, fmt := fmtSetFormat s.res.fmt (s.inByte 25) (s.inByte 24) } }

/-- Is the pair (C, D) one of the nine formats? Answered by the PIXFMT decoder (R81, R112). -/
def formatSupported (c d : Byte) : Bool :=
  match decodePixfmt (formatSelector c d) with
  | .unsupportedPixfmt _ _ => false
  | _ => true

/-- The condition of R112, on the loaded header and the three method bytes. -/
def headerBad (s : State) : Bool :=
  s.hdr.w == 0#32 || s.hdr.h == 0#32 || decide (2 ^ 31 ≤ s.hdr.w.toNat) || decide (2 ^ 31 ≤ s.hdr.h.toNat)
    || !formatSupported s.hdr.c s.hdr.d || s.inByte 26 != 0#8 || s.inByte 27 != 0#8 || s.inByte 28 != 0#8

/-- R113. -/
def loadBpp (s : State) : State :=
  { s with
    hdr := { s.hdr with bpp := bytesPerPixel s.hdr.c s.hdr.d }
    res := { s.res with fmt := fmtSetBpp s.res.fmt (bytesPerPixel s.hdr.c s.hdr.d) } }

/-- The IHDR chunk as the first chunk, its length field being L: the rest of R108, then for DECODE R111 to R113. -/
def ihdrFirst (op : CmdOp) (len : Word) (s : State) : Work :=
  (failIf (decide (s.cmd.len.toNat < ihdrMinLen op)) .truncatedInput s).andThen fun s =>
    (failIf (len != 13#32) .badIhdr s).andThen fun s =>
      match op with
      | .info => .ok s
      | .decode => (failIf (headerBad (loadHeader s)) .unsupportedIhdr (loadHeader s)).andThen fun s => .ok (loadBpp s)

/-- R108 on the first chunk, whatever its type is; then the IHDR chunk. -/
def firstChunk (op : CmdOp) (s : State) : Work :=
  (failIf (decide (s.cmd.len.toNat < ihdrMinLen op)) .truncatedInput s).andThen fun s =>
    match decodeChunk (s.be32 8) (s.be32 12) with
    | .ihdr len => ihdrFirst op len s
    | _ => .fail .badIhdr s

/-! ## The chunk walk (R114 to R123) -/

/-- R114. -/
def walkInit (s : State) : State :=
  { s with tab := ⟨List.replicate 256 ⟨0#8, 0#8, 0#8⟩, 0#9, List.replicate 256 255#8, 0#9, [], 33, true⟩ }

/-- Stop the walk (R115 to R117). -/
def walkStop (s : State) : State := { s with tab := { s.tab with walking := false } }

/-- R122. -/
def walkAdvance (len : Word) (s : State) : State :=
  { s with tab := { s.tab with pos := s.tab.pos + 12 + len.toNat } }

/-- R117, then the chunk's own work on its payload offset p, then R122. -/
def chunkStep (len : Word) (work : Nat → State → State) (s : State) : State :=
  if s.cmd.len.toNat < s.tab.pos + 8 + len.toNat then walkStop s
  else walkAdvance len (work (s.tab.pos + 8) s)

/-- R118. -/
def plteWork (len : Word) (p : Nat) (s : State) : State :=
  let n := min (len.toNat / 3) 256
  let fresh := (List.range n).map fun k => (⟨s.inByte (p + 3 * k), s.inByte (p + 3 * k + 1), s.inByte (p + 3 * k + 2)⟩ : Rgb)
  { s with tab := { s.tab with pal := fresh ++ s.tab.pal.drop n, plteN := BitVec.ofNat 9 n } }

/-- R119. -/
def trnsWork (len : Word) (p : Nat) (s : State) : State :=
  if s.hdr.c = 3#8 then
    let m := min len.toNat 256
    let fresh := (List.range m).map fun k => s.inByte (p + k)
    { s with tab := { s.tab with alpha := fresh ++ s.tab.alpha.drop m, trnsN := BitVec.ofNat 9 m } }
  else s

/-- R120. -/
def idatWork (len : Word) (p : Nat) (s : State) : State :=
  if s.nIdat < Config.idatCap then
    { s with tab := { s.tab with idx := s.tab.idx ++ [⟨BitVec.ofNat 32 p, len⟩] } }
  else s

/-- R121: no state changes but `pos`. -/
def skipWork (_p : Nat) (s : State) : State := s

/-- R118 in the walk. -/
def plteStep (len : Word) (s : State) : State := chunkStep len (plteWork len) s

/-- R119 in the walk. -/
def trnsStep (len : Word) (s : State) : State := chunkStep len (trnsWork len) s

/-- R120 in the walk. -/
def idatStep (len : Word) (s : State) : State := chunkStep len (idatWork len) s

/-- R121 in the walk. -/
def skipStep (len : Word) (s : State) : State := chunkStep len skipWork s

/-- One step of the walk on the chunk at `pos`, its header being (L, T): the row of T says what it does. -/
def walkChunk (len type : Word) (s : State) : State :=
  match decodeChunk len type with
  | .plte len => plteStep len s
  | .trns len => trnsStep len s
  | .idat len => idatStep len s
  | .iend _ => walkStop s
  | _ => skipStep len s

/-- The top of a walk step: the header bound of R115, then the chunk. -/
def walkStep (s : State) : State :=
  if s.cmd.len.toNat < s.tab.pos + 8 then walkStop s
  else walkChunk (s.be32 s.tab.pos) (s.be32 (s.tab.pos + 4)) s

/-- The walk (R115 to R122). The fuel bounds its steps; R122 says how many there are at most (log 13). -/
def walk : Nat → State → State
  | 0, s => walkStop s
  | n + 1, s => if s.tab.walking then walk n (walkStep s) else s

/-- R122's bound on the number of steps, with room for the one that stops. -/
def walkFuel (s : State) : Nat := s.cmd.len.toNat / 12 + 2

/-- R123. -/
def walkEnd (s : State) : Work :=
  failIf (s.nIdat == 0) .noIdat
    { s with res := { s.res with nidat := BitVec.ofNat 32 s.nIdat, paln := palnWord s.tab.plteN s.tab.trnsN } }

/-! ## The meanings -/

/-- IHDR: the header stage when it is the first chunk (R108, R111 to R113), skipped in the walk (R121). -/
def execIhdr (len : Word) (s : State) : Result :=
  .next (if s.tab.walking then skipStep len s else (ihdrFirst s.cmd.op len s).settle)

/-- PLTE (R118). -/
def execPlte (len : Word) (s : State) : Result := .next (plteStep len s)

/-- tRNS (R119). -/
def execTrns (len : Word) (s : State) : Result := .next (trnsStep len s)

/-- IDAT (R120). -/
def execIdat (len : Word) (s : State) : Result := .next (idatStep len s)

/-- IEND: before the payload bound, whatever its length is (R116). -/
def execIend (_len : Word) (s : State) : Result := .next (walkStop s)

/-- Any other type (R121). -/
def execOtherChunk (len _type : Word) (s : State) : Result := .next (skipStep len s)

end Sys2Proof.Machine
end

