-- ==== Sys2Proof/Machine/Inflate.lean ====
section
/-! DEFINITION. The ISTAT family: taking the engine's response, ending a span and issuing requests (R126 to R140). -/

namespace Sys2Proof.Machine

/-- R127, on the cursor (ci, cur_ofs): skip entries with nothing left while a later one exists. The fuel is the number of
entries (log 27). -/
def skipEmpty (idx : List IdatEntry) : Nat → Half × Word → Half × Word
  | 0, at_ => at_
  | n + 1, (ci, ofs) =>
    if (idx.getD ci.toNat ⟨0#32, 0#32⟩).len.toNat - ofs.toNat = 0 ∧ ci.toNat + 1 < idx.length then
      skipEmpty idx n (ci + 1#16, 0#32)
    else (ci, ofs)

/-- R127 as a step on the state. -/
def skipEmptyIdats (s : State) : State :=
  let at_ := skipEmpty s.tab.idx s.nIdat (s.drv.ci, s.drv.curOfs)
  { s with drv := { s.drv with ci := at_.1, curOfs := at_.2 } }

/-- The request of R129 for the cursor as it stands, with the flag of R128. -/
def State.nextRequest (s : State) : Request where
  inAddr := s.cmd.base + s.entry.ptr + s.drv.curOfs
  inLen := BitVec.ofNat 32 s.left
  outOfs := s.drv.dictOfs
  outCap := BitVec.ofNat 16 (Config.wd - s.drv.dictOfs.toNat)
  parseHdr := s.drv.first
  hasMore := s.hasMore

/-- R129 after R127. -/
def sendRequest (s : State) : State :=
  { s with drv := { s.drv with req := s.nextRequest, first := false }, phase := .engine }

/-- R127 to R129. -/
def issueRequest (s : State) : State := sendRequest (skipEmptyIdats s)

/-- The bounds R134 checks. -/
def State.outOfBounds (s : State) : Bool :=
  decide (s.drv.req.inLen.toNat < s.drv.resp.consumed.toNat) || decide (s.drv.req.outCap.toNat < s.drv.resp.written.toNat)

/-- R135, R136: advance the input cursor, record the span, advance `dict_ofs` modulo Wd. -/
def takeResponse (s : State) : State :=
  let until_ := s.drv.dictOfs.toNat + s.drv.resp.written.toNat
  { s with drv := { s.drv with
      curOfs := s.drv.curOfs + s.drv.resp.consumed
      spPos := s.drv.dictOfs.setWidth 16
      spEnd := BitVec.ofNat 16 until_
      dictOfs := BitVec.ofNat 15 (until_ % Config.wd)
      fresh := false } }

/-- R134 for a status other than ERROR. -/
def responseCheck (s : State) : Work :=
  (failIf s.outOfBounds .engineProtocol s).andThen fun s => .ok (takeResponse s)

/-- R139. -/
def advanceIdat (s : State) : State :=
  if s.drv.curOfs = s.entry.len ∧ s.laterIdat then
    { s with drv := { s.drv with ci := s.drv.ci + 1#16, curOfs := 0#32 } }
  else s

/-- R140's guard against a response that made no progress, then the next request. -/
def nextOrStalled (s : State) : Work :=
  (failIf (s.drv.resp.consumed == 0#32 && s.drv.resp.written == 0#16) .engineProtocol s).andThen fun s => .ok (issueRequest s)

/-- R140 for NEED_MORE_INPUT. -/
def spanEndNeedMore (s : State) : Work :=
  (failIf (!(advanceIdat s).hasMore) .streamTruncated (advanceIdat s)).andThen nextOrStalled

/-- R140 for HAS_MORE_OUTPUT. -/
def spanEndHasMore (s : State) : Work := nextOrStalled (advanceIdat s)

/-- R140 for DONE. -/
def spanEndDone (s : State) : Work := .fail .streamTruncated (advanceIdat s)

/-- R134 for ERROR: the bounds first. -/
def responseError (s : State) : Work :=
  (failIf s.outOfBounds .engineProtocol s).andThen fun s => .fail .inflateError s

/-- A line buffer at DECODE start: all zero, elements 0 to S − 1 listed (R45, R126, decision D37). -/
def zeroLine (stride : Nat) : Buffer Byte := ⟨List.replicate stride 0#8, .all 0#8⟩

/-- R126, the state but for the first request. `Dict` is not cleared; its contents are a new free draw (R44; log 3), and so are
`Out` and the slots of `Acc` that are not used (R47, R48; log 16). -/
def driverInit (s : State) : State :=
  { s with
    drv := { s.drv with ci := 0#16, curOfs := 0#32, dictOfs := 0#15, first := true, fresh := false }
    engine := .atReset
    dict := ⟨[], s.draws⟩
    draws := s.draws + 1
    line := ⟨zeroLine s.hdr.stride, zeroLine s.hdr.stride, 0, 0#3, 0⟩
    res := { s.res with rows := 0#32 }
    pix := ⟨⟨[], .drawn s.draws⟩, ⟨
      if s.cmd.scale = 2#8 ∨ s.cmd.scale = 4#8 then List.replicate s.hdr.outW.toNat ⟨0#16, 0#16, 0#16⟩ else [],
      .drawn s.draws⟩⟩ }

/-! ## The meanings: the response check while the response is fresh, the end of its span afterwards (log 22) -/

/-- NEED_MORE_INPUT (R134, R140). -/
def execNeedMoreInput (s : State) : Result :=
  .next (if s.drv.fresh then responseCheck s else spanEndNeedMore s).settle

/-- HAS_MORE_OUTPUT (R134, R140). -/
def execHasMoreOutput (s : State) : Result :=
  .next (if s.drv.fresh then responseCheck s else spanEndHasMore s).settle

/-- DONE (R134, R140). -/
def execStreamDone (s : State) : Result :=
  .next (if s.drv.fresh then responseCheck s else spanEndDone s).settle

/-- ERROR (R134). -/
def execStreamError (s : State) : Result := .next (responseError s).settle

end Sys2Proof.Machine
end

