-- ==== Sys2Proof/Machine/Commands.lean ====
section
/-! DEFINITION. The CMD family: the SETUP step of INFO and of DECODE, and the reserved command (R95 to R97, R106 to R129). -/

namespace Sys2Proof.Machine

/-- The three valid scales (R110). -/
def validScale (scale : Byte) : Bool := scale == 1#8 || scale == 2#8 || scale == 4#8

/-- R110. -/
def scaleCheck (s : State) : Work := failIf (!validScale s.cmd.scale) .invalidScale s

/-- out_w and out_h: W, H at scale 1, else W div scale, H div scale (R124). -/
def loadOutput (s : State) : State :=
  let w := if s.cmd.scale = 1#8 then s.hdr.w.toNat else s.hdr.w.toNat / s.cmd.scale.toNat
  let h := if s.cmd.scale = 1#8 then s.hdr.h.toNat else s.hdr.h.toNat / s.cmd.scale.toNat
  { s with
    hdr := { s.hdr with outW := BitVec.ofNat 31 w, outH := BitVec.ofNat 31 h }
    res := { s.res with outW := BitVec.ofNat 32 w, outH := BitVec.ofNat 32 h } }

/-- R124. -/
def outputDims (s : State) : Work :=
  failIf ((loadOutput s).res.outW == 0#32 || (loadOutput s).res.outH == 0#32) .zeroOutput (loadOutput s)

/-- S = W * bpp, exactly (R125). -/
def State.strideOf (s : State) : Nat := s.hdr.w.toNat * s.hdr.bpp.toNat

/-- R125. -/
def strideCheck (s : State) : Work :=
  (failIf (decide (Config.maxStride < s.strideOf)) .capacity s).andThen fun s =>
    .ok { s with
      hdr := { s.hdr with stride := s.strideOf }
      res := { s.res with stride := BitVec.ofNat 32 s.strideOf } }

/-- INFO loads WIDTH and HEIGHT on success (R109). -/
def loadDimensions (s : State) : State :=
  { s with res := { s.res with width := s.be32 16, height := s.be32 20 } }

/-- The checks of INFO, then its loads (R96, R109). -/
def setupInfo (s : State) : Work :=
  (windowCheck s).andThen fun s => (signatureGate s).andThen fun s => (firstChunk .info s).andThen fun s =>
    .ok (finishOk (loadDimensions s))

/-- DECODE's checks before the chunk walk, in R97's order. -/
def setupHeader (s : State) : Work :=
  (windowCheck s).andThen fun s => (scaleCheck s).andThen fun s => (signatureGate s).andThen (firstChunk .decode)

/-- The whole chunk walk (R114 to R123). -/
def chunkWalk (s : State) : Work := walkEnd (walk (walkFuel s) (walkInit s))

/-- DECODE's SETUP step (R97). -/
def setupDecode (s : State) : Work :=
  (setupHeader s).andThen fun s => (chunkWalk s).andThen fun s => (outputDims s).andThen fun s =>
    (strideCheck s).andThen fun s => .ok (issueRequest (driverInit s))

/-! ## The meanings -/

/-- INFO: the SETUP step with op = INFO (R96). -/
def execInfo (s : State) : Result := .next (setupInfo { s with cmd := { s.cmd with op := .info } }).settle

/-- DECODE: the SETUP step with op = DECODE and the word's SCALE (R97). -/
def execDecode (scale : Byte) (s : State) : Result :=
  .next (setupDecode { s with cmd := { s.cmd with op := .decode, scale := scale } }).settle

/-- RESERVED_CMD (R95). -/
def execReservedCmd (w : Word) (s : State) : Result := .next (failReserved w s)

end Sys2Proof.Machine
end

