-- ==== Sys2Proof/Machine/Pixels.lean ====
section
/-! DEFINITION. The PIXFMT family: what the end of a scanline does under each pixel format (R153, R154 to R170). -/

namespace Sys2Proof.Machine

/-- Add one pixel's lanes to a slot, each lane into its own 16-bit sum (R164, R168). -/
def Sum.add (a : Sum) (p : Rgb) : Sum :=
  ⟨a.r + p.r.setWidth 16, a.g + p.g.setWidth 16, a.b + p.b.setWidth 16⟩

/-- Each sum divided by n, truncated, as an 8-bit lane (R169). -/
def Sum.mean (a : Sum) (n : Nat) : Rgb :=
  ⟨BitVec.ofNat 8 (a.r.toNat / n), BitVec.ofNat 8 (a.g.toNat / n), BitVec.ofNat 8 (a.b.toNat / n)⟩

/-- A slot at zero. -/
def Sum.zero : Sum := ⟨0#16, 0#16, 0#16⟩

/-- The latched scale factor s. -/
def State.scale (s : State) : Nat := s.cmd.scale.toNat

/-- Direct mode: the words of the row (R166). -/
def directWords (ex : Extract) (s : State) : List Half :=
  (List.range s.hdr.w.toNat).map fun x => pack (ex s.line.cur s.tab.pal x)

/-- The s input columns x with x div s = j, added to slot j (R168). -/
def slotSum (ex : Nat → Rgb) (scale j : Nat) (a : Sum) : Sum :=
  (List.range scale).foldl (fun a k => a.add (ex (j * scale + k))) a

/-- `Acc` after the contributions of row y: columns 0 to out_w·s − 1, if y < out_h·s (R167, R168). -/
def accumulated (ex : Extract) (s : State) : Buffer Sum :=
  if s.line.y < s.hdr.outH.toNat * s.scale then
    s.pix.acc.load ((List.range s.hdr.outW.toNat).map fun j =>
      slotSum (ex s.line.cur s.tab.pal) s.scale j (sumAt s.pix.acc j))
  else s.pix.acc

/-- Is row y the last row of a block row (R169)? -/
def blockRowEnds (s : State) : Bool :=
  decide (s.line.y < s.hdr.outH.toNat * s.scale) && s.line.y % s.scale == s.scale - 1

/-- Block row emission: the packed means into `Out`, and the accumulator zeroed (R169). -/
def emitMeans (acc : Buffer Sum) (s : State) : Pixels :=
  ⟨s.pix.out.load ((List.range s.hdr.outW.toNat).map fun j => pack ((sumAt acc j).mean (s.scale * s.scale))),
    acc.load (List.replicate s.hdr.outW.toNat Sum.zero)⟩

/-- R165: the pipeline's work on the completed row. The second part says whether a row is presented. -/
def rowDispatch (ex : Extract) (s : State) : State × Bool :=
  if s.scale = 1 then ({ s with pix := { s.pix with out := s.pix.out.load (directWords ex s) } }, true)
  else if blockRowEnds s then ({ s with pix := emitMeans (accumulated ex s) s }, true)
  else ({ s with pix := { s.pix with acc := accumulated ex s } }, false)

/-- The swap of `Cur` and `Prev`, the zeroing of elements 0 to S − 1 of the new `Cur`, and the next row's counters (R153). -/
def swapLines (s : State) : State :=
  { s with line := { s.line with
      prev := s.line.cur, cur := s.line.prev.load (List.replicate s.hdr.stride 0#8), y := s.line.y + 1, slPos := 0 } }

/-- Row end (R153). -/
def rowEnd (ex : Extract) (s : State) : State :=
  if (rowDispatch ex s).2 then presentRow (swapLines (rowDispatch ex s).1) else swapLines (rowDispatch ex s).1

/-- A pair (C, D) that is none of the nine formats (R112). -/
def rejectFormat (s : State) : State := raiseFatal .unsupportedIhdr s

/-- Row end under the format the header selects. -/
def formatRowEnd (s : State) : State :=
  match decodePixfmt (formatSelector s.hdr.c s.hdr.d) with
  | .gray8 => rowEnd extractGray8 s
  | .gray16 => rowEnd extractGray16 s
  | .rgb8 => rowEnd extractRgb8 s
  | .rgb16 => rowEnd extractRgb16 s
  | .indexed8 => rowEnd extractIndexed8 s
  | .grayA8 => rowEnd extractGrayA8 s
  | .grayA16 => rowEnd extractGrayA16 s
  | .rgba8 => rowEnd extractRgba8 s
  | .rgba16 => rowEnd extractRgba16 s
  | _ => rejectFormat s

/-! ## The meanings -/

/-- GRAY8 (R154). -/
def execGray8 (s : State) : Result := .next (rowEnd extractGray8 s)

/-- GRAY16 (R155). -/
def execGray16 (s : State) : Result := .next (rowEnd extractGray16 s)

/-- RGB8 (R156). -/
def execRgb8 (s : State) : Result := .next (rowEnd extractRgb8 s)

/-- RGB16 (R157). -/
def execRgb16 (s : State) : Result := .next (rowEnd extractRgb16 s)

/-- INDEXED8 (R158). -/
def execIndexed8 (s : State) : Result := .next (rowEnd extractIndexed8 s)

/-- GRAYA8 (R159). -/
def execGrayA8 (s : State) : Result := .next (rowEnd extractGrayA8 s)

/-- GRAYA16 (R160). -/
def execGrayA16 (s : State) : Result := .next (rowEnd extractGrayA16 s)

/-- RGBA8 (R161). -/
def execRgba8 (s : State) : Result := .next (rowEnd extractRgba8 s)

/-- RGBA16 (R162). -/
def execRgba16 (s : State) : Result := .next (rowEnd extractRgba16 s)

/-- UNSUPPORTED_PIXFMT: the failure UNSUPPORTED_IHDR (R112). -/
def execUnsupportedPixfmt (_c _d : Byte) (s : State) : Result := .next (rejectFormat s)

end Sys2Proof.Machine
end

