-- ==== Sys2Proof/Machine/Filters.lean ====
section
/-! DEFINITION. The FILT family: one byte of the span under the filter in force (R137, R141 to R152). -/

namespace Sys2Proof.Machine

/-- The span byte at `sp_pos` (R137). -/
def State.spanByte (s : State) : Byte := s.dict.read s.drv.spPos.toNat

/-- `sp_pos <- sp_pos + 1` (R137). -/
def takeSpanByte (s : State) : State := { s with drv := { s.drv with spPos := s.drv.spPos + 1#16 } }

/-- R142: the filter byte of a scanline record. -/
def latchFilter (f : BitVec 3) (s : State) : State := { s with line := { s.line with f := f, slPos := 1 } }

/-- The reconstructed byte i for the raw byte v (R144, R145, R152). -/
def reconstruct (pred : Predictor) (v : Byte) (i : Nat) (s : State) : Byte :=
  v + pred (s.left? i) (s.up? i) (s.upLeft? i)

/-- R145, up to the test for the row's end. -/
def storeDataByte (pred : Predictor) (v : Byte) (s : State) : State :=
  { s with line := { s.line with
      cur := s.line.cur.write Config.freeLineByte (s.line.slPos - 1) (reconstruct pred v (s.line.slPos - 1) s)
      slPos := s.line.slPos + 1 } }

/-- R145: the data byte, and the row's end when it was the S-th. -/
def dataByte (pred : Predictor) (v : Byte) (s : State) : State :=
  if (storeDataByte pred v s).line.slPos = s.hdr.stride + 1 then formatRowEnd (storeDataByte pred v s)
  else storeDataByte pred v s

/-- R137 and R141 for a valid filter: its byte when a record begins, else a data byte under its predictor (log 23). -/
def filterStep (f : BitVec 3) (pred : Predictor) (s : State) : State :=
  if s.line.slPos = 0 then latchFilter f (takeSpanByte s) else dataByte pred s.spanByte (takeSpanByte s)

/-! ## The meanings -/

/-- NONE (R146). -/
def execFiltNone (s : State) : Result := .next (filterStep 0#3 predNone s)

/-- SUB (R147). -/
def execFiltSub (s : State) : Result := .next (filterStep 1#3 predSub s)

/-- UP (R148). -/
def execFiltUp (s : State) : Result := .next (filterStep 2#3 predUp s)

/-- AVERAGE (R149). -/
def execFiltAverage (s : State) : Result := .next (filterStep 3#3 predAverage s)

/-- PAETH (R150, R151). -/
def execFiltPaeth (s : State) : Result := .next (filterStep 4#3 predPaeth s)

/-- BAD_FILTER (R143). -/
def execBadFilter (_v : Byte) (s : State) : Result := .next (raiseFatal .badFilter (takeSpanByte s))

end Sys2Proof.Machine
end

