-- ==== Sys2Proof/Machine/HostRegs.lean ====
section
/-! DEFINITION. The REG family: every read and write of the host register window (R92 to R104). -/

namespace Sys2Proof.Machine

/-! ## Writes -/

/-- An operand register is written only while BUSY = 0 (R100). -/
def writeOperand (put : State → State) (s : State) : State := if s.busy then s else put s

/-- A write the register ignores (R103, R104). -/
def ignoreWrite (s : State) : State := s

/-- R93 while BUSY = 1, else R92: a reserved word by R95, any other by R94. -/
def writeCmd (v : Word) (s : State) : State :=
  if s.busy then { s with status := { s.status with ignored := true } }
  else
    match decodeCmd v with
    | .reservedCmd w => failReserved w s
    | _ => startCommand v s

/-- R98. -/
def writeStatus (v : Word) (s : State) : State :=
  { s with status := { s.status with
      done := s.status.done && !v.getLsbD 1
      ignored := s.status.ignored && !v.getLsbD 4 } }

/-- WR_CMD (R92, R93). -/
def execWrCmd (v : Word) (s : State) : Result := .next (writeCmd v s)

/-- WR_STATUS (R98). -/
def execWrStatus (v : Word) (s : State) : Result := .next (writeStatus v s)

/-- WR_IN_BASE (R100). -/
def execWrInBase (v : Word) (s : State) : Result := .next (writeOperand (fun s => { s with inBase := v }) s)

/-- WR_IN_LEN (R100). -/
def execWrInLen (v : Word) (s : State) : Result := .next (writeOperand (fun s => { s with inLen := v }) s)

/-- WR_CTX (R100). -/
def execWrCtx (v : Word) (s : State) : Result := .next (writeOperand (fun s => { s with ctx := v }) s)

/-- WR_IRQ_EN (R101). -/
def execWrIrqEn (v : Word) (s : State) : Result := .next { s with irqEn := v.getLsbD 0 }

/-- WR_WIDTH (R103). -/
def execWrWidth (_v : Word) (s : State) : Result := .next (ignoreWrite s)

/-- WR_HEIGHT (R103). -/
def execWrHeight (_v : Word) (s : State) : Result := .next (ignoreWrite s)

/-- WR_FMT (R103). -/
def execWrFmt (_v : Word) (s : State) : Result := .next (ignoreWrite s)

/-- WR_STRIDE (R103). -/
def execWrStride (_v : Word) (s : State) : Result := .next (ignoreWrite s)

/-- WR_OUT_W (R103). -/
def execWrOutW (_v : Word) (s : State) : Result := .next (ignoreWrite s)

/-- WR_OUT_H (R103). -/
def execWrOutH (_v : Word) (s : State) : Result := .next (ignoreWrite s)

/-- WR_ROWS (R103). -/
def execWrRows (_v : Word) (s : State) : Result := .next (ignoreWrite s)

/-- WR_NIDAT (R103). -/
def execWrNidat (_v : Word) (s : State) : Result := .next (ignoreWrite s)

/-- WR_PALN (R103). -/
def execWrPaln (_v : Word) (s : State) : Result := .next (ignoreWrite s)

/-- WR_CAP_IDAT (R103). -/
def execWrCapIdat (_v : Word) (s : State) : Result := .next (ignoreWrite s)

/-- WR_CAP_STRIDE (R103). -/
def execWrCapStride (_v : Word) (s : State) : Result := .next (ignoreWrite s)

/-! ## Reads -/

/-- RD_CMD (R102). -/
def execRdCmd (s : State) : Result := .next (returnValue 0#32 s)

/-- RD_STATUS (R99). -/
def execRdStatus (s : State) : Result := .next (returnValue s.statusWord s)

/-- RD_IN_BASE (R102). -/
def execRdInBase (s : State) : Result := .next (returnValue s.inBase s)

/-- RD_IN_LEN (R102). -/
def execRdInLen (s : State) : Result := .next (returnValue s.inLen s)

/-- RD_CTX (R102). -/
def execRdCtx (s : State) : Result := .next (returnValue s.ctx s)

/-- RD_IRQ_EN (R102). -/
def execRdIrqEn (s : State) : Result := .next (returnValue s.irqEnWord s)

/-- RD_WIDTH (R37, R102). -/
def execRdWidth (s : State) : Result := .next (returnDiagnostic s.res.width s)

/-- RD_HEIGHT (R37, R102). -/
def execRdHeight (s : State) : Result := .next (returnDiagnostic s.res.height s)

/-- RD_FMT (R37, R102). -/
def execRdFmt (s : State) : Result := .next (returnDiagnostic s.res.fmt s)

/-- RD_STRIDE (R37, R102). -/
def execRdStride (s : State) : Result := .next (returnDiagnostic s.res.stride s)

/-- RD_OUT_W (R37, R102). -/
def execRdOutW (s : State) : Result := .next (returnDiagnostic s.res.outW s)

/-- RD_OUT_H (R37, R102). -/
def execRdOutH (s : State) : Result := .next (returnDiagnostic s.res.outH s)

/-- RD_ROWS (R102). -/
def execRdRows (s : State) : Result := .next (returnValue s.res.rows s)

/-- RD_NIDAT (R37, R102). -/
def execRdNidat (s : State) : Result := .next (returnDiagnostic s.res.nidat s)

/-- RD_PALN (R37, R102). -/
def execRdPaln (s : State) : Result := .next (returnDiagnostic s.res.paln s)

/-- RD_CAP_IDAT (R35, R102). -/
def execRdCapIdat (s : State) : Result := .next (returnValue (BitVec.ofNat 32 Config.idatCap) s)

/-- RD_CAP_STRIDE (R35, R102). -/
def execRdCapStride (s : State) : Result := .next (returnValue (BitVec.ofNat 32 Config.maxStride) s)

/-- RSV_REG: a read returns 0, a write is ignored (R36, R59, R104). -/
def execRsvReg (a : Access) (s : State) : Result :=
  match a with
  | .read _ _ => .next (returnValue 0#32 s)
  | .write _ _ _ => .next (ignoreWrite s)

end Sys2Proof.Machine
end

