-- ==== Sys2Proof/Machine/RowPort.lean ====
section
/-! DEFINITION. The PORT family: the row sink port's one event (R105, R171). -/

namespace Sys2Proof.Machine

/-- ROW_ACK (R105). -/
def execRowAck (s : State) : Result := .next (acknowledgeRow s)

end Sys2Proof.Machine
end

