-- ==== Sys2Proof/Machine/Dispatch.lean ====
section
/-! DEFINITION. The meaning of every instruction, one arm for each row of the opcode table. -/

namespace Sys2Proof.Machine

def exec (i : Instr) (s : State) : Host.Outcome State Fault Refusal :=
  match i with
  | .info => Sys2Proof.Machine.execInfo s
  | .decode scale => Sys2Proof.Machine.execDecode scale s
  | .reservedCmd w => Sys2Proof.Machine.execReservedCmd w s
  | .ihdr len => Sys2Proof.Machine.execIhdr len s
  | .plte len => Sys2Proof.Machine.execPlte len s
  | .trns len => Sys2Proof.Machine.execTrns len s
  | .idat len => Sys2Proof.Machine.execIdat len s
  | .iend len => Sys2Proof.Machine.execIend len s
  | .otherChunk len type => Sys2Proof.Machine.execOtherChunk len type s
  | .filtNone => Sys2Proof.Machine.execFiltNone s
  | .filtSub => Sys2Proof.Machine.execFiltSub s
  | .filtUp => Sys2Proof.Machine.execFiltUp s
  | .filtAverage => Sys2Proof.Machine.execFiltAverage s
  | .filtPaeth => Sys2Proof.Machine.execFiltPaeth s
  | .badFilter v => Sys2Proof.Machine.execBadFilter v s
  | .gray8 => Sys2Proof.Machine.execGray8 s
  | .gray16 => Sys2Proof.Machine.execGray16 s
  | .rgb8 => Sys2Proof.Machine.execRgb8 s
  | .rgb16 => Sys2Proof.Machine.execRgb16 s
  | .indexed8 => Sys2Proof.Machine.execIndexed8 s
  | .grayA8 => Sys2Proof.Machine.execGrayA8 s
  | .grayA16 => Sys2Proof.Machine.execGrayA16 s
  | .rgba8 => Sys2Proof.Machine.execRgba8 s
  | .rgba16 => Sys2Proof.Machine.execRgba16 s
  | .unsupportedPixfmt c d => Sys2Proof.Machine.execUnsupportedPixfmt c d s
  | .needMoreInput => Sys2Proof.Machine.execNeedMoreInput s
  | .hasMoreOutput => Sys2Proof.Machine.execHasMoreOutput s
  | .streamDone => Sys2Proof.Machine.execStreamDone s
  | .streamError => Sys2Proof.Machine.execStreamError s
  | .rdCmd => Sys2Proof.Machine.execRdCmd s
  | .wrCmd v => Sys2Proof.Machine.execWrCmd v s
  | .rdStatus => Sys2Proof.Machine.execRdStatus s
  | .wrStatus v => Sys2Proof.Machine.execWrStatus v s
  | .rdInBase => Sys2Proof.Machine.execRdInBase s
  | .wrInBase v => Sys2Proof.Machine.execWrInBase v s
  | .rdInLen => Sys2Proof.Machine.execRdInLen s
  | .wrInLen v => Sys2Proof.Machine.execWrInLen v s
  | .rdCtx => Sys2Proof.Machine.execRdCtx s
  | .wrCtx v => Sys2Proof.Machine.execWrCtx v s
  | .rdIrqEn => Sys2Proof.Machine.execRdIrqEn s
  | .wrIrqEn v => Sys2Proof.Machine.execWrIrqEn v s
  | .rdWidth => Sys2Proof.Machine.execRdWidth s
  | .wrWidth v => Sys2Proof.Machine.execWrWidth v s
  | .rdHeight => Sys2Proof.Machine.execRdHeight s
  | .wrHeight v => Sys2Proof.Machine.execWrHeight v s
  | .rdFmt => Sys2Proof.Machine.execRdFmt s
  | .wrFmt v => Sys2Proof.Machine.execWrFmt v s
  | .rdStride => Sys2Proof.Machine.execRdStride s
  | .wrStride v => Sys2Proof.Machine.execWrStride v s
  | .rdOutW => Sys2Proof.Machine.execRdOutW s
  | .wrOutW v => Sys2Proof.Machine.execWrOutW v s
  | .rdOutH => Sys2Proof.Machine.execRdOutH s
  | .wrOutH v => Sys2Proof.Machine.execWrOutH v s
  | .rdRows => Sys2Proof.Machine.execRdRows s
  | .wrRows v => Sys2Proof.Machine.execWrRows v s
  | .rdNidat => Sys2Proof.Machine.execRdNidat s
  | .wrNidat v => Sys2Proof.Machine.execWrNidat v s
  | .rdPaln => Sys2Proof.Machine.execRdPaln s
  | .wrPaln v => Sys2Proof.Machine.execWrPaln v s
  | .rdCapIdat => Sys2Proof.Machine.execRdCapIdat s
  | .wrCapIdat v => Sys2Proof.Machine.execWrCapIdat v s
  | .rdCapStride => Sys2Proof.Machine.execRdCapStride s
  | .wrCapStride v => Sys2Proof.Machine.execWrCapStride v s
  | .rsvReg a => Sys2Proof.Machine.execRsvReg a s
  | .rowAck => Sys2Proof.Machine.execRowAck s

end Sys2Proof.Machine
end

