-- ==== Sys2Proof/Machine/Fetch.lean ====
section
/-! DEFINITION. Whose step is next and which instruction it decodes (R50, R90, R137; log 7), and how a unit is placed so
that the next step runs it (log 8). -/

namespace Sys2Proof.Machine

/-- What the next step does: run a decoded instruction on a state, or an agent's step that has no table row. -/
inductive Fetched where
  | run (i : Instr) (s : State)
  | act (o : Result)

/-- A host move (R90a). The port event's key is 1 and every access decodes, so the decoder refuses neither. -/
def hostMove (m : HostMove) (s : State) : Fetched :=
  match m with
  | .access a => .run (decodeReg a) s
  | .rowAck => .run .rowAck s
  | .readRow k => .act (hostReadRow k s)
  | .writeInput addr b => .act (hostWriteInput addr b s)

/-- The filter byte in force: the span byte when a record begins, else the latched F (R141, R145). -/
def State.controlByte (s : State) : Byte := if s.line.slPos = 0 then s.spanByte else s.line.f.setWidth 8

/-- The block's step (R90b). SETUP decodes the latched command. CONSUME checks a fresh response (R134), then tests for
success (R138), then takes a span byte, then ends the span (R137, R140). -/
def blockMove (s : State) : Fetched :=
  match s.phase with
  | .setup => .run (decodeCmd s.cmd.word) s
  | .consume =>
    if s.drv.fresh then .run (decodeIstat s.drv.resp.status) s
    else if s.line.y = s.hdr.h.toNat then .act (.next (finishOk s))
    else if s.drv.spPos.toNat < s.drv.spEnd.toNat then .run (decodeFilt s.controlByte) s
    else .run (decodeIstat s.drv.resp.status) s
  | .idle | .engine | .sink => .act (.next s)

/-- An agent's turn. The host takes the oldest of its moves that has a step. An agent with no step to take passes. -/
def takeTurn (t : Turn) (s : State) : Fetched :=
  match t with
  | .host =>
    match takeMove s.waits s.hostQ with
    | none => .act (.next s)
    | some (m, ms) => hostMove m { s with hostQ := ms }
  | .block => blockMove s
  | .engine =>
    match s.engineQ with
    | [] => .act (.next s)
    | a :: as => .act (engineStep a { s with engineQ := as })
  | .reset => .act (.next (resetStep s))

/-- The turn when `turns` says nothing: the block if it has a step, the engine if it has an answer, else the host; with no
move at all the machine is stuck (93 U12, R199; log 7). -/
def defaultTurn (s : State) : Fetched :=
  match s.phase with
  | .setup | .consume => takeTurn .block s
  | .engine =>
    match s.engineQ, takeMove s.waits s.hostQ with
    | _ :: _, _ => takeTurn .engine s
    | [], some _ => takeTurn .host s
    | [], none => .act (.fault .engineSilent)
  | .idle | .sink =>
    match takeMove s.waits s.hostQ with
    | some _ => takeTurn .host s
    | none => .act (.fault .hostSilent)

/-- The next step. -/
def fetch (s : State) : Fetched :=
  match s.turns with
  | t :: ts => takeTurn t { s with turns := ts }
  | [] => defaultTurn s

/-! ## Placing a unit (log 8) -/

/-- Offer a host move for the next step. -/
def offer (m : HostMove) (s : State) : State :=
  { s with hostQ := m :: s.hostQ, turns := .host :: s.turns }

/-- A 41-byte file whose chunk at offset 33 has length 0 and the given type: signature, IHDR of a 1×1 gray image, chunk. -/
def chunkFile (len type : Word) : List Byte :=
  signature ++ [0#8, 0#8, 0#8, 13#8, 0x49#8, 0x48#8, 0x44#8, 0x52#8]
    ++ [0#8, 0#8, 0#8, 1#8, 0#8, 0#8, 0#8, 1#8, 8#8, 0#8, 0#8, 0#8, 0#8, 0#8, 0#8, 0#8, 0#8]
    ++ (List.range 4).map (fun k => len.extractLsb' (24 - 8 * k) 8)
    ++ (List.range 4).map (fun k => type.extractLsb' (24 - 8 * k) 8)

/-- A state whose next step is the block's SETUP step for this command word. -/
def placeCommand (w : Word) (s : State) : State :=
  { s with
    phase := .setup
    cmd := { s.cmd with op := if w = 1#32 then .info else .decode, scale := w.extractLsb' 8 8 }
    turns := .block :: s.turns }

/-- A state whose next step takes the one span byte v at the given position of a 1×1 image's scanline. -/
def placeSpanByte (v : Byte) (slPos : Nat) (s : State) : State :=
  { s with
    phase := .consume
    hdr := { s.hdr with w := 1#32, h := 1#32, stride := 8, outW := 1#31, outH := 1#31 }
    cmd := { s.cmd with op := .decode, scale := 1#8 }
    drv := { s.drv with fresh := false, spPos := 0#16, spEnd := 1#16 }
    dict := { s.dict with cells := putCell s.dict.cells 0 v }
    line := ⟨⟨List.replicate 8 0#8, .all 0#8⟩, ⟨List.replicate 8 0#8, .all 0#8⟩, slPos, 0#3, 0⟩
    turns := .block :: s.turns }

/-- Place a unit where the next step reads its unit of that format: a CMD word as the latched command (a reserved word as
the host's write of it), a chunk in INPUT at the walk's first offset with a DECODE latched, a filter byte at the start of
a record, a pixel format in the header with the row's last byte due, a status in a fresh response, an access or an
acknowledgement as the host's move. -/
def placeCode (c : Code) (s : State) : State :=
  match c with
  | .cmd w =>
    match decodeCmd w with
    | .reservedCmd w => offer (.access (.write 0#12 .word w)) s
    | _ => placeCommand w s
  | .chunk len type =>
    { placeCommand 0x00000102#32 s with
      cmd := ⟨.decode, 1#8, 0#32, 41#32, s.cmd.ctx⟩
      mem := Memory.load s.mem 0 (chunkFile len type) }
  | .filt f => placeSpanByte f 0 s
  | .pixfmt sel =>
    let t := placeSpanByte 0#8 8 s
    { t with hdr := { t.hdr with c := sel.extractLsb' 8 8, d := sel.extractLsb' 0 8 } }
  | .istat st =>
    { s with
      phase := .consume
      drv := { s.drv with resp := { s.drv.resp with status := st }, fresh := true }
      turns := .block :: s.turns }
  | .reg a => offer (.access a) s
  | .port _ => offer .rowAck s

end Sys2Proof.Machine
end

