-- ==== Sys2Proof/Machine/Step.lean ====
section
/-! DEFINITION. One step of the machine (R90), and placing a table word where the next step runs it. -/

namespace Sys2Proof.Machine

/-- One step: the instruction the next agent decodes is run, or the agent's own step is taken. -/
def step (s : State) : Host.Outcome State Fault Refusal :=
  match fetch s with
  | .run i t => exec i t
  | .act o => o

/-- `s` with the unit of a table word placed for the next step (log 8, log 14). A word of no format changes nothing. -/
def State.withFetchWord (s : State) (nbits w : Nat) : State :=
  match tableCode nbits w with
  | some c => placeCode c s
  | none => s

end Sys2Proof.Machine
end

