-- ==== Sys2Proof/Safety.lean ====
section
/-! DEFINITION. What claims call a failure, a safe state and a safe run: the end states and the invariants the spec states. -/

namespace Sys2Proof.Machine

/-! ## Comparing two states -/

/-- What no step of the block itself changes: the registers the host writes, INPUT, the values returned to the host, and
the moves still to come. -/
def SameOutside (s t : State) : Prop :=
  t.inBase = s.inBase ∧ t.inLen = s.inLen ∧ t.ctx = s.ctx ∧ t.irqEn = s.irqEn ∧ t.mem = s.mem ∧ t.bus = s.bus
    ∧ t.rowWord = s.rowWord ∧ t.hostQ = s.hostQ ∧ t.engineQ = s.engineQ ∧ t.turns = s.turns

/-- R176: `t` is `s` after the failure `c`, with the result registers and the presented rows as given. -/
def FailedWith (c : Cause) (res : Results) (s t : State) : Prop :=
  t.phase = .idle
    ∧ t.status = { done := true, ok := false, fail := true, ignored := s.status.ignored, cause := c }
    ∧ t.res = res ∧ t.presented = s.presented ∧ SameOutside s t

/-- R177: `t` is `s` after a success, with the result registers as given. -/
def SucceededWith (res : Results) (s t : State) : Prop :=
  t.phase = .idle ∧ t.status = { s.status with done := true, ok := true }
    ∧ t.res = res ∧ t.presented = s.presented ∧ SameOutside s t

/-! ## Invariants -/

/-- R21's invariants of STATUS: OK and FAIL are never both 1; while BUSY is 1, DONE, OK, FAIL and CAUSE are 0. -/
def State.StatusInv (s : State) : Prop :=
  ¬(s.status.ok = true ∧ s.status.fail = true) ∧
    (s.busy = true → s.status.done = false ∧ s.status.ok = false ∧ s.status.fail = false ∧ s.status.cause = .none)

/-- DECODE has issued its first request and has not ended (R50). -/
def State.streaming (s : State) : Bool :=
  match s.phase with
  | .engine | .consume | .sink => true
  | .idle | .setup => false

/-- A request is outstanding, or its response has not been checked yet (R130, R134). -/
def State.awaiting (s : State) : Bool := s.phase == .engine || (s.phase == .consume && s.drv.fresh)

/-- The transitions of R50, and staying in a phase. -/
def Phase.canFollow (p q : Phase) : Bool :=
  match p, q with
  | .idle, .setup | .setup, .idle | .setup, .engine | .engine, .consume | .consume, .sink | .sink, .consume
  | .consume, .engine | .consume, .idle => true
  | _, _ => p == q

/-- While DECODE streams: the window is inside INPUT, every recorded IDAT is inside the window, the cursor is inside its
entry, an outstanding request's slice is the rest of that entry (the address of an empty slice does not matter; log 28), and no
response waits for its check while a row is presented (R54, R117, R129, R135, R137). -/
def State.InputInv (s : State) : Prop :=
  s.streaming = true →
    s.cmd.base.toNat + s.cmd.len.toNat ≤ 2 ^ 32
      ∧ (∀ e ∈ s.tab.idx, e.ptr.toNat + e.len.toNat ≤ s.cmd.len.toNat)
      ∧ s.drv.ci.toNat < s.nIdat ∧ s.nIdat ≤ Config.idatCap
      ∧ s.drv.curOfs.toNat ≤ s.entry.len.toNat
      ∧ (s.awaiting = true →
          s.drv.req.inLen.toNat = s.left
            ∧ (0 < s.left → s.drv.req.inAddr.toNat = s.cmd.base.toNat + s.entry.ptr.toNat + s.drv.curOfs.toNat))
      ∧ (s.phase = .sink → s.drv.fresh = false)

/-- While DECODE streams: an outstanding request grants `Dict` from `dict_ofs` to its end, and the span being consumed lies
in `Dict` (R43, R55, R82, R129, R136). -/
def State.DictInv (s : State) : Prop :=
  (s.awaiting = true →
      s.drv.req.outOfs = s.drv.dictOfs ∧ s.drv.req.outCap.toNat + s.drv.dictOfs.toNat = Config.wd)
    ∧ (s.streaming = true → s.awaiting = false →
        s.drv.spPos.toNat ≤ s.drv.spEnd.toNat ∧ s.drv.spEnd.toNat ≤ Config.wd ∧ s.drv.fresh = false)

/-- While DECODE streams: elements 0 to S − 1 of both line buffers are listed, `sl_pos` is 0 to S between steps, F is a filter, and no more than
H scanlines are reconstructed (R45, R46, R141). -/
def State.LineInv (s : State) : Prop :=
  s.streaming = true →
    1 ≤ s.hdr.stride ∧ s.hdr.stride ≤ Config.maxStride ∧ s.line.cur.head.length = s.hdr.stride
      ∧ s.line.prev.head.length = s.hdr.stride ∧ s.line.slPos ≤ s.hdr.stride ∧ s.line.f.toNat ≤ 4
      ∧ s.line.y ≤ s.hdr.h.toNat

/-- The three sums of a slot are at most `bound`. -/
def Sum.AtMost (a : Sum) (bound : Nat) : Prop := a.r.toNat ≤ bound ∧ a.g.toNat ≤ bound ∧ a.b.toNat ≤ bound

/-- While DECODE streams: the scale is valid, the widths and heights are R124's and R125's, ROWS is y div s (so it never passes
OUT_H), nothing is listed past MAX_STRIDE in `Out` and `Acc`, and no sum of `Acc` exceeds what the y mod s rows added to
it allow, so that none wraps (R46, R47, R48, R124, R125, R168). -/
def State.PixelInv (s : State) : Prop :=
  s.streaming = true →
    (s.cmd.scale = 1#8 ∨ s.cmd.scale = 2#8 ∨ s.cmd.scale = 4#8)
      ∧ 1 ≤ s.hdr.bpp.toNat ∧ s.hdr.stride = s.hdr.w.toNat * s.hdr.bpp.toNat
      ∧ s.hdr.outW.toNat = s.hdr.w.toNat / s.cmd.scale.toNat ∧ s.hdr.outH.toNat = s.hdr.h.toNat / s.cmd.scale.toNat
      ∧ s.res.rows.toNat = s.line.y / s.cmd.scale.toNat
      ∧ s.pix.out.head.length ≤ Config.maxStride ∧ s.pix.acc.head.length ≤ Config.maxStride
      ∧ (s.cmd.scale ≠ 1#8 → ∀ j, j < s.hdr.outW.toNat →
          (sumAt s.pix.acc j).AtMost (255 * s.cmd.scale.toNat * (s.line.y % s.cmd.scale.toNat)))

/-- The rows presented so far carry the indices 0, 1, 2, ..., ROWS counts them, and a command in SETUP has presented none
(R32, R94, R170). -/
def State.RowsInv (s : State) : Prop :=
  s.res.rows = BitVec.ofNat 32 s.presented.length
    ∧ (s.phase = .setup → s.presented = [])
    ∧ ∀ k row, s.presented[k]? = some row → row.index = BitVec.ofNat 32 k

end Sys2Proof.Machine
end

