-- ==== Sys2Proof/Certificates/Slice0/Obligations.lean ====
section
/-! DEFINITION. The statements for the provers. Each docstring names the rules of spec/ it formalises. -/

open Sys2Proof Sys2Proof.Machine

/-! ## Vocabulary of the statements -/

/-- The filter rows with the code F latches (R80) and the predictor of their rule (R146 to R151). -/
def Sys2Proof.Claims.filterTable : List (Instr × BitVec 3 × Predictor) :=
  [(.filtNone, 0#3, predNone), (.filtSub, 1#3, predSub), (.filtUp, 2#3, predUp), (.filtAverage, 3#3, predAverage),
    (.filtPaeth, 4#3, predPaeth)]

/-- The nine pixel formats with the lanes of pixel x, written out from R154 to R162. -/
def Sys2Proof.Claims.formatTable : List (Instr × (Buffer Byte → List Rgb → Nat → Rgb)) :=
  [(.gray8, fun row _ x => ⟨byteAt row x, byteAt row x, byteAt row x⟩),
    (.gray16, fun row _ x => ⟨byteAt row (2 * x), byteAt row (2 * x), byteAt row (2 * x)⟩),
    (.rgb8, fun row _ x => ⟨byteAt row (3 * x), byteAt row (3 * x + 1), byteAt row (3 * x + 2)⟩),
    (.rgb16, fun row _ x => ⟨byteAt row (6 * x), byteAt row (6 * x + 2), byteAt row (6 * x + 4)⟩),
    (.indexed8, fun row pal x => pal.getD (byteAt row x).toNat ⟨0#8, 0#8, 0#8⟩),
    (.grayA8, fun row _ x => ⟨byteAt row (2 * x), byteAt row (2 * x), byteAt row (2 * x)⟩),
    (.grayA16, fun row _ x => ⟨byteAt row (4 * x), byteAt row (4 * x), byteAt row (4 * x)⟩),
    (.rgba8, fun row _ x => ⟨byteAt row (4 * x), byteAt row (4 * x + 1), byteAt row (4 * x + 2)⟩),
    (.rgba16, fun row _ x => ⟨byteAt row (8 * x), byteAt row (8 * x + 2), byteAt row (8 * x + 4)⟩)]

/-- The lines after the row end of R153: the old `Cur` is `Prev`, the old `Prev` is `Cur` with elements 0 to S − 1 zeroed. -/
def Sys2Proof.Claims.NextRow (s : State) (l : Line) : Prop :=
  l.prev = s.line.cur ∧ l.slPos = 0 ∧ l.f = s.line.f ∧ l.y = s.line.y + 1
    ∧ ∀ k, byteAt l.cur k = if k < s.hdr.stride then 0#8 else byteAt s.line.prev k

/-- The state after row y is presented (R170): ROWS counts it, and the row carries the first out_w words of `Out`. -/
def Sys2Proof.Claims.rowPresented (s : State) (l : Line) (p : Pixels) : State :=
  { s with
    line := l, pix := p, phase := .sink, res := { s.res with rows := s.res.rows + 1#32 }
    presented := s.presented
      ++ [⟨s.res.rows, s.hdr.outW.setWidth 32, s.cmd.ctx, (List.range s.hdr.outW.toNat).map (wordAt p.out)⟩] }

/-- The sum of one lane over the s input columns of output column j (R168). -/
def Sys2Proof.Claims.laneSum (lane : Rgb → Byte) (ex : Nat → Rgb) (scale j : Nat) : Nat :=
  ((List.range scale).map fun k => (lane (ex (j * scale + k))).toNat).sum

/-- The slot of output column j after row y has been added (R168). -/
def Sys2Proof.Claims.slotAfter (a : Sum) (ex : Nat → Rgb) (scale j : Nat) : Sum :=
  ⟨a.r + BitVec.ofNat 16 (Claims.laneSum Rgb.r ex scale j), a.g + BitVec.ofNat 16 (Claims.laneSum Rgb.g ex scale j),
    a.b + BitVec.ofNat 16 (Claims.laneSum Rgb.b ex scale j)⟩

/-- R112's condition on the header bytes of the file, field by field. -/
def Sys2Proof.Claims.UnsupportedHeader (s : State) : Prop :=
  s.be32 16 = 0#32 ∨ s.be32 20 = 0#32 ∨ 2 ^ 31 ≤ (s.be32 16).toNat ∨ 2 ^ 31 ≤ (s.be32 20).toNat
    ∨ (s.inByte 24 ≠ 8#8 ∧ s.inByte 24 ≠ 16#8)
    ∨ (s.inByte 25 ≠ 0#8 ∧ s.inByte 25 ≠ 2#8 ∧ s.inByte 25 ≠ 3#8 ∧ s.inByte 25 ≠ 4#8 ∧ s.inByte 25 ≠ 6#8)
    ∨ (s.inByte 25 = 3#8 ∧ s.inByte 24 = 16#8)
    ∨ s.inByte 26 ≠ 0#8 ∨ s.inByte 27 ≠ 0#8 ∨ s.inByte 28 ≠ 0#8

/-- bpp as R113 gives it for the header bytes. -/
def Sys2Proof.Claims.bppOf (c d : Byte) : Nat :=
  if c = 0#8 then d.toNat / 8 else if c = 2#8 then 3 * d.toNat / 8 else if c = 3#8 then 1
  else if c = 4#8 then 2 * d.toNat / 8 else 4 * d.toNat / 8

/-- The 8 signature bytes stand at offsets 0 to 7 (R72). -/
def Sys2Proof.Claims.HasSignature (s : State) : Prop :=
  s.be32 0 = 0x89504E47#32 ∧ s.be32 4 = 0x0D0A1A0A#32

/-- The first chunk is IHDR with declared length 13 (R74, R108). -/
def Sys2Proof.Claims.HasIhdr (s : State) : Prop := s.be32 8 = 13#32 ∧ s.be32 12 = 0x49484452#32

/-- The state in which DECODE has loaded a supported header (R111, R113). -/
def Sys2Proof.Claims.headerLoaded (s : State) : State :=
  { s with
    hdr := { s.hdr with
      w := s.be32 16, h := s.be32 20, d := s.inByte 24, c := s.inByte 25
      bpp := BitVec.ofNat 4 (Claims.bppOf (s.inByte 25) (s.inByte 24)) }
    res := { s.res with
      width := s.be32 16, height := s.be32 20
      fmt := s.res.fmt.extractLsb' 20 12 ++ BitVec.ofNat 4 (Claims.bppOf (s.inByte 25) (s.inByte 24)) ++ s.inByte 25
        ++ s.inByte 24 } }

/-! ## Encodings -/

/-- 30_encoding.md: words written out from the tables of R70, R17, R80, R81, R83 and R89. -/
def Obligations.SpecWordsDecode : Prop :=
  decode (.cmd 0x00000001#32) = .ok .info ∧ decode (.cmd 0x00000402#32) = .ok (.decode 4#8)
    ∧ decode (.cmd 0x00000101#32) = .ok (.reservedCmd 0x00000101#32)
    ∧ decode (.chunk 13#32 0x49484452#32) = .ok (.ihdr 13#32) ∧ decode (.chunk 2#32 0x74524E53#32) = .ok (.trns 2#32)
    ∧ decode (.filt 4#8) = .ok .filtPaeth ∧ decode (.filt 5#8) = .ok (.badFilter 5#8)
    ∧ decode (.pixfmt 0x0610#16) = .ok .rgba16 ∧ decode (.pixfmt 0x0310#16) = .ok (.unsupportedPixfmt 3#8 16#8)
    ∧ decode (.istat 3#2) = .ok .streamError ∧ decode (.reg (.read 0x040#12 .word)) = .ok .rdCapStride
    ∧ decode (.reg (.write 0x000#12 .word 7#32)) = .ok (.wrCmd 7#32) ∧ decode (.port 1#1) = .ok .rowAck

/-- R89: the encoder and the decoder agree on every well-formed instruction. -/
def Obligations.EncodedInstructionDecodesBack : Prop :=
  ∀ i : Instr, i.wf = true → decode (encode i) = .ok i

/-- R89: every unit but the port key 0 has exactly one well-formed instruction. -/
def Obligations.EveryUnitHasOneInstruction : Prop :=
  ∀ c : Code, c ≠ .port 0#1 → ∃ i : Instr, i.wf = true ∧ encode i = c ∧ ∀ j : Instr, j.wf = true → encode j = c → j = i

/-! ## Reset -/

/-- R189: a reset step, in any state. -/
def Obligations.ResetStepSetsItsTable : Prop :=
  ∀ (s : State) (ts : List Turn), s.turns = .reset :: ts →
    ∃ t, step s = .next t ∧ t.phase = .idle ∧ t.statusWord = 0#32 ∧ t.inBase = 0#32 ∧ t.inLen = 0#32 ∧ t.ctx = 0#32
      ∧ t.irqEnWord = 0#32 ∧ t.res = ⟨0#32, 0#32, 0#32, 0#32, 0#32, 0#32, 0#32, 0#32, 0#32⟩ ∧ t.irq = false
      ∧ exec .rdCmd t = .next { t with bus := 0#32 }
      ∧ exec .rdCapIdat t = .next { t with bus := 0x40#32 } ∧ exec .rdCapStride t = .next { t with bus := 0x8000#32 }

/-! ## Host registers -/

/-- R99 with R21's fields. -/
def Obligations.StatusReadReturnsItsFields : Prop :=
  ∀ s : State, ∃ v : Word, exec .rdStatus s = .next { s with bus := v }
    ∧ v.getLsbD 0 = s.busy ∧ v.getLsbD 1 = s.status.done ∧ v.getLsbD 2 = s.status.ok ∧ v.getLsbD 3 = s.status.fail
    ∧ v.getLsbD 4 = s.status.ignored ∧ v.extractLsb' 5 3 = 0#3 ∧ v.extractLsb' 8 4 = s.status.cause.code
    ∧ v.extractLsb' 12 4 = 0#4 ∧ v.extractLsb' 16 3 = s.phase.code ∧ v.extractLsb' 19 13 = 0#13

/-- R102: the registers whose reads are exact at all times, and those whose reads are exact only while BUSY = 0 (R37). While
BUSY = 1 the value is free, and the counter `draws` that such a read advances is the model's own (log 4, log 18). -/
def Obligations.RegisterReadsReturnTheirValues : Prop :=
  ∀ s : State,
    (exec .rdCmd s = .next { s with bus := 0#32 } ∧ exec .rdInBase s = .next { s with bus := s.inBase }
      ∧ exec .rdInLen s = .next { s with bus := s.inLen } ∧ exec .rdCtx s = .next { s with bus := s.ctx }
      ∧ exec .rdIrqEn s = .next { s with bus := if s.irqEn then 1#32 else 0#32 }
      ∧ exec .rdRows s = .next { s with bus := s.res.rows } ∧ exec .rdCapIdat s = .next { s with bus := 64#32 }
      ∧ exec .rdCapStride s = .next { s with bus := 32768#32 })
    ∧ ∀ p ∈ [(Instr.rdWidth, s.res.width), (.rdHeight, s.res.height), (.rdFmt, s.res.fmt), (.rdStride, s.res.stride),
        (.rdOutW, s.res.outW), (.rdOutH, s.res.outH), (.rdNidat, s.res.nidat), (.rdPaln, s.res.paln)],
      (s.busy = false → exec p.1 s = .next { s with bus := p.2 })
        ∧ (s.busy = true → ∃ v : Word, exec p.1 s = .next { s with bus := v, draws := s.draws + 1 })

/-- R100. -/
def Obligations.OperandWritesOnlyWhileIdle : Prop :=
  ∀ (s : State) (v : Word),
    (s.busy = false → exec (.wrInBase v) s = .next { s with inBase := v }
      ∧ exec (.wrInLen v) s = .next { s with inLen := v } ∧ exec (.wrCtx v) s = .next { s with ctx := v })
    ∧ (s.busy = true → exec (.wrInBase v) s = .next s ∧ exec (.wrInLen v) s = .next s ∧ exec (.wrCtx v) s = .next s)

/-- R98. -/
def Obligations.StatusWriteClearsOnlyItsOnes : Prop :=
  ∀ (s : State) (v : Word), exec (.wrStatus v) s = .next { s with status := { s.status with
    done := if v.getLsbD 1 then false else s.status.done
    ignored := if v.getLsbD 4 then false else s.status.ignored } }

/-- R101: E is written at any time, and the interrupt line follows at once. -/
def Obligations.IrqEnableIsWrittenAtAnyTime : Prop :=
  ∀ (s : State) (v : Word), ∃ t, exec (.wrIrqEn v) s = .next t ∧ t = { s with irqEn := v.getLsbD 0 }
    ∧ t.irq = (s.status.done && v.getLsbD 0)

/-- R103, and R104: reserved offsets and accesses that are not aligned 32-bit words. -/
def Obligations.ReadOnlyAndReservedAccessesChangeNothing : Prop :=
  ∀ (s : State) (v : Word),
    (∀ i ∈ [Instr.wrWidth v, .wrHeight v, .wrFmt v, .wrStride v, .wrOutW v, .wrOutH v, .wrRows v, .wrNidat v, .wrPaln v,
      .wrCapIdat v, .wrCapStride v], exec i s = .next s)
    ∧ ∀ (offset : BitVec 12) (size : AccessSize), size ≠ .word ∨ offset.toNat % 4 ≠ 0 ∨ 0x44 ≤ offset.toNat →
      decodeReg (.read offset size) = .rsvReg (.read offset size)
        ∧ decodeReg (.write offset size v) = .rsvReg (.write offset size v)
        ∧ exec (.rsvReg (.read offset size)) s = .next { s with bus := 0#32 }
        ∧ exec (.rsvReg (.write offset size v)) s = .next s

/-- R93: while BUSY = 1 the write only sets IGNORED. R92 and R94: else a word of INFO or DECODE starts its command. The list of
presented rows, which starts empty, is the model's own (log 18). -/
def Obligations.CmdWriteStartsOrIsIgnored : Prop :=
  ∀ (s : State) (v : Word),
    (s.busy = true → exec (.wrCmd v) s = .next { s with status := { s.status with ignored := true } })
    ∧ (s.busy = false → (v = 0x00000001#32 ∨ (v.extractLsb' 0 8 = 2#8 ∧ v.extractLsb' 16 16 = 0#16)) →
      exec (.wrCmd v) s = .next { s with
        phase := .setup
        cmd := ⟨if v = 0x00000001#32 then .info else .decode, v.extractLsb' 8 8, s.inBase, s.inLen, s.ctx⟩
        status := { s.status with done := false, ok := false, fail := false, cause := .none }
        res := ⟨0#32, 0#32, 0#32, 0#32, 0#32, 0#32, 0#32, 0#32, 0#32⟩
        presented := [] })

/-- R95: a reserved word, as R71 lists them, fails in the step of its write. The list of presented rows, emptied as by a command
start, is the model's own (log 18). -/
def Obligations.ReservedCommandFailsAtOnce : Prop :=
  ∀ (s : State) (v : Word), s.busy = false →
    ((v.extractLsb' 0 4 ≠ 1#4 ∧ v.extractLsb' 0 4 ≠ 2#4) ∨ v.extractLsb' 4 4 ≠ 0#4 ∨ v.extractLsb' 16 16 ≠ 0#16
        ∨ (v.extractLsb' 0 4 = 1#4 ∧ v.extractLsb' 8 8 ≠ 0#8)) →
      ∃ t, exec (.wrCmd v) s = .next t ∧ exec (.reservedCmd v) s = .next t
        ∧ FailedWith .badCommand ⟨0#32, 0#32, 0#32, 0#32, 0#32, 0#32, 0#32, 0#32, 0#32⟩ { s with presented := [] } t

/-- R176, R177: what the end of a command writes, and the STATUS words the rules give. -/
def Obligations.CommandEndsWriteStatus : Prop :=
  ∀ (c : Cause) (s : State),
    FailedWith c s.res s (raiseFatal c s) ∧ SucceededWith s.res s (finishOk s)
    ∧ (s.status.ignored = false → (raiseFatal c s).statusWord = (c.code.setWidth 32 <<< 8) ||| 0x0000000A#32)
    ∧ (s.status.fail = false → s.status.cause = .none →
        (finishOk s).statusWord = if s.status.ignored then 0x00000016#32 else 0x00000006#32)

/-- R181, R176, R177: the interrupt line equals IRQ_EN.E after the end of any command. R95, R98: after a reserved word it is
raised, and clearing DONE drops it and keeps FAIL and CAUSE. -/
def Obligations.InterruptRisesAndFallsWithDone : Prop :=
  ∀ s : State, (∀ c : Cause, (raiseFatal c s).irq = s.irqEn) ∧ (finishOk s).irq = s.irqEn
    ∧ (s.busy = false → s.irqEn = true →
      ∃ t u, exec (.wrCmd 3#32) s = .next t ∧ t.irq = true ∧ exec (.wrStatus 2#32) t = .next u ∧ u.irq = false
        ∧ u.status.fail = true ∧ u.status.cause = .badCommand)

/-- R105. -/
def Obligations.RowAckActsOnlyInSink : Prop :=
  ∀ s : State, (s.phase = .sink → exec .rowAck s = .next { s with phase := .consume })
    ∧ (s.phase ≠ .sink → exec .rowAck s = .next s)

/-! ## The chunk walk -/

/-- R118: a PLTE chunk whose payload is inside the input. -/
def Obligations.PlteStoresItsTriples : Prop :=
  ∀ (s : State) (len : Word), s.tab.pos + 8 + len.toNat ≤ s.cmd.len.toNat →
    ∃ t, exec (.plte len) s = .next t
      ∧ t = { s with tab := { s.tab with
          pal := t.tab.pal, plteN := BitVec.ofNat 9 (min (len.toNat / 3) 256), pos := s.tab.pos + 12 + len.toNat } }
      ∧ ∀ k, t.tab.pal[k]? =
          if k < min (len.toNat / 3) 256 then
            some ⟨s.inByte (s.tab.pos + 8 + 3 * k), s.inByte (s.tab.pos + 8 + 3 * k + 1), s.inByte (s.tab.pos + 8 + 3 * k + 2)⟩
          else s.tab.pal[k]?

/-- R119: a tRNS chunk whose payload is inside the input. -/
def Obligations.TrnsStoresAlphaOnlyForIndexed : Prop :=
  ∀ (s : State) (len : Word), s.tab.pos + 8 + len.toNat ≤ s.cmd.len.toNat →
    (s.hdr.c ≠ 3#8 → exec (.trns len) s = .next { s with tab := { s.tab with pos := s.tab.pos + 12 + len.toNat } })
    ∧ (s.hdr.c = 3#8 → ∃ t, exec (.trns len) s = .next t
      ∧ t = { s with tab := { s.tab with
          alpha := t.tab.alpha, trnsN := BitVec.ofNat 9 (min len.toNat 256), pos := s.tab.pos + 12 + len.toNat } }
      ∧ ∀ k, t.tab.alpha[k]? =
          if k < min len.toNat 256 then some (s.inByte (s.tab.pos + 8 + k)) else s.tab.alpha[k]?)

/-- R120: an IDAT chunk whose payload is inside the input; beyond the cap it is ignored. -/
def Obligations.IdatIsRecordedUpToTheCap : Prop :=
  ∀ (s : State) (len : Word), s.tab.pos + 8 + len.toNat ≤ s.cmd.len.toNat →
    exec (.idat len) s = .next { s with tab := { s.tab with
      idx := if s.tab.idx.length < 64 then s.tab.idx ++ [⟨BitVec.ofNat 32 (s.tab.pos + 8), len⟩] else s.tab.idx
      pos := s.tab.pos + 12 + len.toNat } }

/-- R116: IEND ends the walk whatever its length field is. R121: any other type, and an IHDR met in the walk, changes only
`pos`. -/
def Obligations.IendEndsTheWalkAndOthersAreSkipped : Prop :=
  ∀ (s : State) (len type : Word),
    exec (.iend len) s = .next { s with tab := { s.tab with walking := false } }
    ∧ (s.tab.pos + 8 + len.toNat ≤ s.cmd.len.toNat →
      exec (.otherChunk len type) s = .next { s with tab := { s.tab with pos := s.tab.pos + 12 + len.toNat } }
    ∧ (s.tab.walking = true →
        exec (.ihdr len) s = .next { s with tab := { s.tab with pos := s.tab.pos + 12 + len.toNat } }))

/-- R117: a chunk whose payload runs past the input ends the walk and is not recorded. -/
def Obligations.ChunkPastTheInputEndsTheWalk : Prop :=
  ∀ (s : State) (len type : Word), s.cmd.len.toNat < s.tab.pos + 8 + len.toNat → s.tab.walking = true →
    ∀ i ∈ [Instr.plte len, .trns len, .idat len, .otherChunk len type, .ihdr len],
      exec i s = .next { s with tab := { s.tab with walking := false } }

/-- R108, R111, R112, R113: the IHDR chunk as the first chunk of a DECODE and of an INFO. -/
def Obligations.FirstIhdrIsCheckedAndLoaded : Prop :=
  ∀ (s : State) (len : Word), s.tab.walking = false → ∃ t, exec (.ihdr len) s = .next t ∧
    (if s.cmd.len.toNat < (if s.cmd.op = .info then 24 else 29) then FailedWith .truncatedInput s.res s t
    else if len ≠ 13#32 then FailedWith .badIhdr s.res s t
    else if s.cmd.op = .info then t = s
    else
      (Claims.UnsupportedHeader s → FailedWith .unsupportedIhdr { s.res with
        width := s.be32 16, height := s.be32 20
        fmt := s.res.fmt.extractLsb' 16 16 ++ s.inByte 25 ++ s.inByte 24 } s t)
      ∧ (¬Claims.UnsupportedHeader s → t = Claims.headerLoaded s))

/-- R115: a walk step without room for a header stops the walk and does nothing else. R115, R122: with room it is the instruction
the chunk's header decodes to. -/
def Obligations.WalkStepRunsTheDecodedChunk : Prop :=
  ∀ s : State,
    (s.cmd.len.toNat < s.tab.pos + 8 → walkStep s = { s with tab := { s.tab with walking := false } })
    ∧ (s.tab.walking = true → s.tab.pos + 8 ≤ s.cmd.len.toNat →
      exec (decodeChunk (s.be32 s.tab.pos) (s.be32 (s.tab.pos + 4))) s = .next (walkStep s))

/-- R114: the tables the walk starts with. R122: the walk ends by one of R115 to R117 within the bound, never by the model's fuel
(log 13). -/
def Obligations.WalkEndsWithinItsBound : Prop :=
  ∀ (s : State) (n : Nat),
    walkInit s = { s with tab := {
      pal := List.replicate 256 ⟨0#8, 0#8, 0#8⟩, plteN := 0#9, alpha := List.replicate 256 255#8, trnsN := 0#9
      idx := [], pos := 33, walking := true } }
    ∧ (walkFuel s ≤ n →
      walk n (walkInit s) = walk (walkFuel s) (walkInit s) ∧ (walk n (walkInit s)).tab.walking = false)

/-! ## Commands -/

/-- R109 (with R106, R107): INFO from any state. -/
def Obligations.InfoReturnsTheDimensions : Prop :=
  ∀ s : State, ∃ t, exec .info s = .next t ∧
    (if 2 ^ 32 < s.cmd.base.toNat + s.cmd.len.toNat then FailedWith .badBuffer s.res s t
    else if s.cmd.len.toNat < 8 then FailedWith .truncatedInput s.res s t
    else
      (¬Claims.HasSignature s → FailedWith .badSignature s.res s t)
      ∧ (Claims.HasSignature s →
        if s.cmd.len.toNat < 24 then FailedWith .truncatedInput s.res s t
        else
          (¬Claims.HasIhdr s → FailedWith .badIhdr s.res s t)
          ∧ (Claims.HasIhdr s → SucceededWith { s.res with width := s.be32 16, height := s.be32 20 } s t)))

/-- R175, steps 1 to 5: DECODE's checks before the chunk walk, in order. -/
def Obligations.DecodeChecksInOrder : Prop :=
  ∀ (s : State) (scale : Byte), ∃ t, exec (.decode scale) s = .next t ∧
    (if 2 ^ 32 < s.cmd.base.toNat + s.cmd.len.toNat then FailedWith .badBuffer s.res s t
    else if scale ≠ 1#8 ∧ scale ≠ 2#8 ∧ scale ≠ 4#8 then FailedWith .invalidScale s.res s t
    else if s.cmd.len.toNat < 8 then FailedWith .truncatedInput s.res s t
    else
      (¬Claims.HasSignature s → FailedWith .badSignature s.res s t)
      ∧ (Claims.HasSignature s →
        if s.cmd.len.toNat < 29 then FailedWith .truncatedInput s.res s t
        else
          (¬Claims.HasIhdr s → FailedWith .badIhdr s.res s t)
          ∧ (Claims.HasIhdr s → Claims.UnsupportedHeader s → FailedWith .unsupportedIhdr { s.res with
              width := s.be32 16, height := s.be32 20
              fmt := s.res.fmt.extractLsb' 16 16 ++ s.inByte 25 ++ s.inByte 24 } s t)))

/-- R97, R111, R113, R123 to R126: DECODE on a supported header, from the chunk walk to the first request. In the last case
`v` is the state as R126 initialises it, and the request is the one R127 to R129 issue from it. Both line buffers
are all zero (R45); what `Dict`, `Out` and the slots of `Acc` not used hold is free (R44, R47, R48; log 3, log 16). -/
def Obligations.DecodeReachesItsFirstRequest : Prop :=
  ∀ (s : State) (scale : Byte), s.cmd.base.toNat + s.cmd.len.toNat ≤ 2 ^ 32 → scale = 1#8 ∨ scale = 2#8 ∨ scale = 4#8 →
    29 ≤ s.cmd.len.toNat → Claims.HasSignature s → Claims.HasIhdr s → ¬Claims.UnsupportedHeader s →
    ∃ t u, exec (.decode scale) s = .next t
      ∧ u = walk (walkFuel s) (walkInit (Claims.headerLoaded { s with cmd := { s.cmd with op := .decode, scale := scale } }))
      ∧ (let n := u.tab.idx.length
        let res1 : Results := { u.res with
          nidat := BitVec.ofNat 32 n, paln := 0#7 ++ u.tab.trnsN ++ 0#7 ++ u.tab.plteN }
        let w := (s.be32 16).toNat / scale.toNat
        let h := (s.be32 20).toNat / scale.toNat
        let res2 : Results := { res1 with outW := BitVec.ofNat 32 w, outH := BitVec.ofNat 32 h }
        let stride := (s.be32 16).toNat * Claims.bppOf (s.inByte 25) (s.inByte 24)
        if n = 0 then FailedWith .noIdat res1 s t
        else if w = 0 ∨ h = 0 then FailedWith .zeroOutput res2 s t
        else if 32768 < stride then FailedWith .capacity res2 s t
        else
          t.phase = .engine ∧ t.status = s.status ∧ t.presented = s.presented ∧ SameOutside s t
            ∧ t.drv.req.parseHdr = true ∧ t.drv.first = false ∧ t.drv.req.outOfs = 0#15 ∧ t.drv.req.outCap = 32768#16
            ∧ ∃ v : State, t = issueRequest v
              ∧ v = { s with
                  cmd := { s.cmd with op := .decode, scale := scale }
                  hdr := { (Claims.headerLoaded s).hdr with
                    stride := stride, outW := BitVec.ofNat 31 w, outH := BitVec.ofNat 31 h }
                  tab := u.tab, res := { res2 with stride := BitVec.ofNat 32 stride, rows := 0#32 }
                  drv := { s.drv with ci := 0#16, curOfs := 0#32, dictOfs := 0#15, first := true, fresh := false }
                  engine := .atReset, dict := v.dict, line := v.line, pix := v.pix, draws := v.draws }
              ∧ v.line.slPos = 0 ∧ v.line.f = 0#3 ∧ v.line.y = 0
              ∧ (∀ k, byteAt v.line.cur k = 0#8 ∧ byteAt v.line.prev k = 0#8)
              ∧ (scale ≠ 1#8 → ∀ j, j < w → sumAt v.pix.acc j = ⟨0#16, 0#16, 0#16⟩))

/-! ## The engine port -/

/-- R129 with R127: what a request carries. Every entry skipped is used up, and the entry reached has input left or is the
last (R127); HAS_MORE = 1 exactly when the slice is not empty (R128). -/
def Obligations.RequestCarriesTheCurrentSlice : Prop :=
  ∀ s : State, s.drv.ci.toNat < s.tab.idx.length → s.tab.idx.length ≤ 64 →
    ∃ ci : Nat, s.drv.ci.toNat ≤ ci ∧ ci < s.tab.idx.length ∧
      (let t := issueRequest s
      let e := s.tab.idx.getD ci ⟨0#32, 0#32⟩
      let ofs := if ci = s.drv.ci.toNat then s.drv.curOfs else 0#32
      t = { s with phase := .engine, drv := { s.drv with
          ci := BitVec.ofNat 16 ci, curOfs := ofs, first := false
          req := ⟨s.cmd.base + e.ptr + ofs, BitVec.ofNat 32 (e.len.toNat - ofs.toNat), s.drv.dictOfs,
            BitVec.ofNat 16 (32768 - s.drv.dictOfs.toNat), s.drv.first, decide (0 < e.len.toNat - ofs.toNat)⟩ } }
      ∧ (ci + 1 < s.tab.idx.length → 0 < e.len.toNat - ofs.toNat)
      ∧ ∀ j, s.drv.ci.toNat ≤ j → j < ci →
          (s.tab.idx.getD j ⟨0#32, 0#32⟩).len.toNat - (if j = s.drv.ci.toNat then s.drv.curOfs.toNat else 0) = 0)

/-- R130, R55: an answer that keeps to its slice. The bytes land in `Dict` from `out_ofs` on, and nowhere else. -/
def Obligations.EngineStepWritesItsSlice : Prop :=
  ∀ (s : State) (a : Answer) (as : List Answer) (ts : List Turn), s.turns = .engine :: ts → s.engineQ = a :: as →
    s.phase = .engine → answerInSlice s.drv.req a = true →
    ∃ t, step s = .next t
      ∧ t = { s with
          turns := ts, engineQ := as, phase := .consume, engine := a.newE, dict := t.dict
          drv := { s.drv with resp := a.resp, fresh := true } }
      ∧ ∀ k, t.dict.read k =
          if s.drv.req.outOfs.toNat ≤ k ∧ k < s.drv.req.outOfs.toNat + a.bytes.length then
            a.bytes.getD (k - s.drv.req.outOfs.toNat) 0#8
          else s.dict.read k

/-- R190: the engine port accepts a response only in phase ENGINE. An answer whose bytes are not the granted slice's is refused (93
U10 `refuse`); that this covers an answer with another number of bytes than its in-bounds count is the model's choice (log 6,
DESIGN CHOICE), and so is the refusal's name. -/
def Obligations.EngineAnswersOutOfTurnChangeNothing : Prop :=
  ∀ (s : State) (a : Answer) (as : List Answer) (ts : List Turn), s.turns = .engine :: ts → s.engineQ = a :: as →
    (s.phase ≠ .engine → step s = .next { s with turns := ts, engineQ := as })
    ∧ (s.phase = .engine → answerInSlice s.drv.req a = false → step s = .refused .engineOutsideSlice)

/-- R134 to R136: a response in bounds and not ERROR is taken. -/
def Obligations.ResponseInBoundsIsTaken : Prop :=
  ∀ s : State, s.drv.fresh = true → s.drv.resp.consumed.toNat ≤ s.drv.req.inLen.toNat →
    s.drv.resp.written.toNat ≤ s.drv.req.outCap.toNat → s.drv.dictOfs.toNat + s.drv.resp.written.toNat ≤ 32768 →
    ∀ i ∈ [Instr.needMoreInput, .hasMoreOutput, .streamDone],
      exec i s = .next { s with drv := { s.drv with
        fresh := false
        curOfs := s.drv.curOfs + s.drv.resp.consumed
        spPos := BitVec.ofNat 16 s.drv.dictOfs.toNat
        spEnd := BitVec.ofNat 16 (s.drv.dictOfs.toNat + s.drv.resp.written.toNat)
        dictOfs := if s.drv.dictOfs.toNat + s.drv.resp.written.toNat = 32768 then 0#15
          else BitVec.ofNat 15 (s.drv.dictOfs.toNat + s.drv.resp.written.toNat) } }

/-- R134: the bounds come first, then the status ERROR. -/
def Obligations.BadResponsesFail : Prop :=
  ∀ s : State,
    ((s.drv.req.inLen.toNat < s.drv.resp.consumed.toNat ∨ s.drv.req.outCap.toNat < s.drv.resp.written.toNat) →
      (∃ t, exec .streamError s = .next t ∧ FailedWith .engineProtocol s.res s t)
      ∧ (s.drv.fresh = true → ∀ i ∈ [Instr.needMoreInput, .hasMoreOutput, .streamDone],
        ∃ t, exec i s = .next t ∧ FailedWith .engineProtocol s.res s t))
    ∧ (s.drv.resp.consumed.toNat ≤ s.drv.req.inLen.toNat → s.drv.resp.written.toNat ≤ s.drv.req.outCap.toNat →
      ∃ t, exec .streamError s = .next t ∧ FailedWith .inflateError s.res s t)

/-- R140 with R139: the end of a span with scanlines missing. -/
def Obligations.SpanEndGoesOnOrFails : Prop :=
  ∀ s : State, s.drv.fresh = false →
    let advance : Prop := s.drv.curOfs = (s.tab.idx.getD s.drv.ci.toNat ⟨0#32, 0#32⟩).len
      ∧ s.drv.ci.toNat + 1 < s.tab.idx.length
    let u : State := { s with drv := { s.drv with
      ci := if advance then s.drv.ci + 1#16 else s.drv.ci, curOfs := if advance then 0#32 else s.drv.curOfs } }
    let more : Prop := 0 < (s.tab.idx.getD u.drv.ci.toNat ⟨0#32, 0#32⟩).len.toNat - u.drv.curOfs.toNat
      ∨ u.drv.ci.toNat + 1 < s.tab.idx.length
    let stalled : Prop := s.drv.resp.consumed = 0#32 ∧ s.drv.resp.written = 0#16
    (∃ t, exec .streamDone s = .next t ∧ FailedWith .streamTruncated s.res s t)
    ∧ (∃ t, exec .needMoreInput s = .next t ∧
        (¬more → FailedWith .streamTruncated s.res s t) ∧ (more → stalled → FailedWith .engineProtocol s.res s t)
        ∧ (more → ¬stalled → t = issueRequest u))
    ∧ (∃ t, exec .hasMoreOutput s = .next t ∧
        (stalled → FailedWith .engineProtocol s.res s t) ∧ (¬stalled → t = issueRequest u))

/-! ## Filters -/

/-- R142: the first byte of a record latches its filter. -/
def Obligations.FilterByteIsLatched : Prop :=
  ∀ p ∈ Claims.filterTable, ∀ s : State, s.line.slPos = 0 →
    exec p.1 s = .next { s with
      drv := { s.drv with spPos := s.drv.spPos + 1#16 }, line := { s.line with f := p.2.1, slPos := 1 } }

/-- R143 and R112: a byte that is no filter, and a pair that is no pixel format, fail. -/
def Obligations.InvalidFiltersAndFormatsFail : Prop :=
  ∀ (s : State) (v c d : Byte), (∃ t, exec (.badFilter v) s = .next t ∧ FailedWith .badFilter s.res s t)
    ∧ (∃ t, exec (.unsupportedPixfmt c d) s = .next t ∧ FailedWith .unsupportedIhdr s.res s t)

/-- R144, R145: a data byte before the last of its row. -/
def Obligations.DataByteIsReconstructed : Prop :=
  ∀ p ∈ Claims.filterTable, ∀ s : State, 0 < s.line.slPos → s.line.slPos ≠ s.hdr.stride →
    let i := s.line.slPos - 1
    let bpp := s.hdr.bpp.toNat
    let a := if bpp ≤ i then byteAt s.line.cur (i - bpp) else 0#8
    let b := byteAt s.line.prev i
    let c := if bpp ≤ i then byteAt s.line.prev (i - bpp) else 0#8
    ∃ t, exec p.1 s = .next t
      ∧ t = { s with
          drv := { s.drv with spPos := s.drv.spPos + 1#16 }
          line := { s.line with cur := t.line.cur, slPos := s.line.slPos + 1 } }
      ∧ ∀ k, byteAt t.line.cur k = if k = i then s.dict.read s.drv.spPos.toNat + p.2.2 a b c else byteAt s.line.cur k

/-- R144, R145, R153: the S-th data byte is stored, and the row's end is the pixel format's instruction on that state. -/
def Obligations.LastDataByteRunsThePixelFormat : Prop :=
  ∀ p ∈ Claims.filterTable, ∀ s : State, 0 < s.line.slPos → s.line.slPos = s.hdr.stride →
    let i := s.line.slPos - 1
    let bpp := s.hdr.bpp.toNat
    let a := if bpp ≤ i then byteAt s.line.cur (i - bpp) else 0#8
    let b := byteAt s.line.prev i
    let c := if bpp ≤ i then byteAt s.line.prev (i - bpp) else 0#8
    ∃ cur : Buffer Byte,
      (∀ k, byteAt cur k = if k = i then s.dict.read s.drv.spPos.toNat + p.2.2 a b c else byteAt s.line.cur k)
      ∧ exec p.1 s = exec (decodePixfmt (s.hdr.c ++ s.hdr.d)) { s with
          drv := { s.drv with spPos := s.drv.spPos + 1#16 }
          line := { s.line with cur := cur, slPos := s.line.slPos + 1 } }

/-- R146 to R149: the predictors without a comparison, the Average sum taken exactly. -/
def Obligations.SimplePredictorsAreExact : Prop :=
  ∀ a b c : Byte, predNone a b c = 0#8 ∧ predSub a b c = a ∧ predUp a b c = b
    ∧ (predAverage a b c).toNat = (a.toNat + b.toNat) / 2

/-- R150: Paeth returns the neighbour closest to a + b − c, a before b before c. -/
def Obligations.PaethPicksTheClosestNeighbour : Prop :=
  ∀ a b c : Byte,
    let p : Int := a.toNat + b.toNat - c.toNat
    let dist := fun (v : Byte) => (p - v.toNat).natAbs
    let r := predPaeth a b c
    (r = a ∨ r = b ∨ r = c) ∧ dist r ≤ dist a ∧ dist r ≤ dist b ∧ dist r ≤ dist c
      ∧ (dist a ≤ dist b → dist a ≤ dist c → r = a) ∧ (dist b < dist a → dist b ≤ dist c → r = b)

/-! ## The pixel pipeline -/

/-- R163: RGB565 packing by field. -/
def Obligations.PackKeepsTheUpperBits : Prop :=
  ∀ p : Rgb, (pack p).extractLsb' 11 5 = p.r.extractLsb' 3 5 ∧ (pack p).extractLsb' 5 6 = p.g.extractLsb' 2 6
    ∧ (pack p).extractLsb' 0 5 = p.b.extractLsb' 3 5

/-- R154 to R162, R166, R153, R170: the end of a row at scale 1, under each of the nine formats. Words of `Out` from w on
keep what they held. -/
def Obligations.DirectRowIsPackedAndPresented : Prop :=
  ∀ p ∈ Claims.formatTable, ∀ s : State, s.cmd.scale = 1#8 →
    ∃ l q, exec p.1 s = .next (Claims.rowPresented s l q) ∧ Claims.NextRow s l ∧ q.acc = s.pix.acc
      ∧ ∀ k, wordAt q.out k = if k < s.hdr.w.toNat then pack (p.2 s.line.cur s.tab.pal k) else wordAt s.pix.out k

/-- R168, R153: at scale 2 or 4, a row that does not end a block row is only added to the accumulator, and a row past the
last whole block row is not (R167). A slot that holds no more than its y mod s rows allow takes the exact sums: none wraps. -/
def Obligations.BlockRowIsAccumulated : Prop :=
  ∀ p ∈ Claims.formatTable, ∀ s : State, s.cmd.scale = 2#8 ∨ s.cmd.scale = 4#8 →
    let scale := s.cmd.scale.toNat
    let ex := p.2 s.line.cur s.tab.pal
    (s.hdr.outH.toNat * scale ≤ s.line.y → ∃ l, exec p.1 s = .next { s with line := l } ∧ Claims.NextRow s l)
    ∧ (s.line.y < s.hdr.outH.toNat * scale → s.line.y % scale ≠ scale - 1 →
      ∃ l acc, exec p.1 s = .next { s with line := l, pix := { s.pix with acc := acc } } ∧ Claims.NextRow s l
        ∧ ∀ j, let a := sumAt s.pix.acc j
          let b := sumAt acc j
          b = (if j < s.hdr.outW.toNat then Claims.slotAfter a ex scale j else a)
          ∧ (j < s.hdr.outW.toNat → a.AtMost (255 * scale * (s.line.y % scale)) →
            b.r.toNat = a.r.toNat + Claims.laneSum Rgb.r ex scale j
            ∧ b.g.toNat = a.g.toNat + Claims.laneSum Rgb.g ex scale j
            ∧ b.b.toNat = a.b.toNat + Claims.laneSum Rgb.b ex scale j))

/-- R168, R169, R153, R170: at scale 2 or 4, the last row of a block row emits the means and zeroes the accumulator. From a slot
that holds no more than its s − 1 rows allow the mean is that of the exact sums. -/
def Obligations.BlockRowEndEmitsTheMeans : Prop :=
  ∀ p ∈ Claims.formatTable, ∀ s : State, s.cmd.scale = 2#8 ∨ s.cmd.scale = 4#8 →
    s.line.y < s.hdr.outH.toNat * s.cmd.scale.toNat → s.line.y % s.cmd.scale.toNat = s.cmd.scale.toNat - 1 →
    let scale := s.cmd.scale.toNat
    let ex := p.2 s.line.cur s.tab.pal
    let mean := fun (r g b : Nat) =>
      pack ⟨BitVec.ofNat 8 (r / scale ^ 2), BitVec.ofNat 8 (g / scale ^ 2), BitVec.ofNat 8 (b / scale ^ 2)⟩
    ∃ l q, exec p.1 s = .next (Claims.rowPresented s l q) ∧ Claims.NextRow s l
      ∧ ∀ j, let a := sumAt s.pix.acc j
        let b := Claims.slotAfter a ex scale j
        wordAt q.out j = (if j < s.hdr.outW.toNat then mean b.r.toNat b.g.toNat b.b.toNat else wordAt s.pix.out j)
        ∧ sumAt q.acc j = (if j < s.hdr.outW.toNat then ⟨0#16, 0#16, 0#16⟩ else a)
        ∧ (j < s.hdr.outW.toNat → a.AtMost (255 * scale * (scale - 1)) →
          wordAt q.out j = mean (a.r.toNat + Claims.laneSum Rgb.r ex scale j) (a.g.toNat + Claims.laneSum Rgb.g ex scale j)
            (a.b.toNat + Claims.laneSum Rgb.b ex scale j))

/-- R41, 93 U14: no filter or pixel instruction lets `Alpha` reach a row, a register or the phase. -/
def Obligations.AlphaNeverReachesTheOutput : Prop :=
  ∀ i ∈ Claims.filterTable.map Prod.fst ++ Claims.formatTable.map Prod.fst, ∀ (s : State) (alpha : List Byte) (t u : State),
    exec i s = .next t → exec i { s with tab := { s.tab with alpha := alpha } } = .next u →
      u.presented = t.presented ∧ u.pix = t.pix ∧ u.line = t.line ∧ u.phase = t.phase ∧ u.res = t.res ∧ u.status = t.status

/-! ## Steps of the machine -/

/-- R90a: a host turn runs the oldest access or acknowledgement of the host that no move of its own precedes but writes to INPUT
which wait for BUSY = 0 (R90, R193; log 9); with nothing but such writes the host passes. -/
def Obligations.HostTurnRunsTheDecodedAccess : Prop :=
  ∀ (s : State) (ts : List Turn) (ws ms : List HostMove), s.turns = .host :: ts → (∀ w ∈ ws, s.waits w = true) →
    (∀ a i, s.hostQ = ws ++ .access a :: ms → decode (.reg a) = .ok i →
      step s = exec i { s with turns := ts, hostQ := ws ++ ms })
    ∧ (s.hostQ = ws ++ .rowAck :: ms → step s = exec .rowAck { s with turns := ts, hostQ := ws ++ ms })
    ∧ (s.hostQ = ws → step s = .next { s with turns := ts })

/-- R90b, R134, R137, R138: a block turn runs the latched command in SETUP; in CONSUME it checks a fresh response, then
ends the command when y = H, then takes a span byte under the filter in force, then ends the span. -/
def Obligations.BlockTurnRunsTheDecodedUnit : Prop :=
  ∀ (s : State) (ts : List Turn), s.turns = .block :: ts →
    let u : State := { s with turns := ts }
    (s.phase = .setup → step s = exec (if s.cmd.op = .info then .info else .decode s.cmd.scale) u)
    ∧ (s.phase = .consume →
      ∀ i j, decode (.istat s.drv.resp.status) = .ok i →
        decode (.filt (if s.line.slPos = 0 then s.dict.read s.drv.spPos.toNat else s.line.f.setWidth 8)) = .ok j →
        if s.drv.fresh = true then step s = exec i u
        else if s.line.y = s.hdr.h.toNat then ∃ t, step s = .next t ∧ SucceededWith s.res u t
        else if s.drv.spPos.toNat < s.drv.spEnd.toNat then step s = exec j u
        else step s = exec i u)

/-- The model's scheduler (log 7) when `turns` names nobody: the block, then the engine, then the host; stuck by R199 when
nobody has a move, a write to INPUT that waits being none (log 9). -/
def Obligations.UnscheduledTurnsFollowThePhase : Prop :=
  ∀ s : State, s.turns = [] →
    (s.phase = .setup ∨ s.phase = .consume → step s = step { s with turns := [.block] })
    ∧ (s.phase = .engine → s.engineQ ≠ [] → step s = step { s with turns := [.engine] })
    ∧ (s.phase = .engine → s.engineQ = [] → (∃ m ∈ s.hostQ, s.waits m = false) → step s = step { s with turns := [.host] })
    ∧ (s.phase = .engine → s.engineQ = [] → (∀ m ∈ s.hostQ, s.waits m = true) → step s = .fault .engineSilent)
    ∧ (s.phase = .idle ∨ s.phase = .sink → (∃ m ∈ s.hostQ, s.waits m = false) →
      step s = step { s with turns := [.host] })
    ∧ (s.phase = .idle ∨ s.phase = .sink → (∀ m ∈ s.hostQ, s.waits m = true) → step s = .fault .hostSilent)

/-- R53, R67, R90, R193: while BUSY = 0 a host write to INPUT writes its one byte. While BUSY = 1 one in the window is refused, and
one outside it has no step: INPUT stays as it is, the move stays offered until BUSY = 0, and without another move the host passes.
The refusal and its name are the model's (93 U9), and so is the waiting, which meets both R90 and R193 (log 9). `ws` are earlier
writes that wait. -/
def Obligations.HostInputWritesRespectTheWindow : Prop :=
  ∀ (s : State) (ts : List Turn) (ws ms : List HostMove) (addr : Word) (b : Byte), s.turns = .host :: ts →
    (∀ w ∈ ws, s.waits w = true) → s.hostQ = ws ++ .writeInput addr b :: ms →
    let inside := s.cmd.base.toNat ≤ addr.toNat ∧ addr.toNat < s.cmd.base.toNat + s.cmd.len.toNat
    (s.busy = true → inside → step s = .refused .inputWriteWhileBusy)
    ∧ (s.busy = true → ¬inside →
      (∀ t, step s = .next t → t.mem = s.mem ∧ .writeInput addr b ∈ t.hostQ)
      ∧ (ms = [] → step s = .next { s with turns := ts }))
    ∧ (s.busy = false → Memory.wf s.mem = true → ws = [] ∧ ∃ t, step s = .next t
      ∧ t = { s with turns := ts, hostQ := ms, mem := t.mem }
      ∧ ∀ a : Nat, Memory.read t.mem a = if a = addr.toNat then b else Memory.read s.mem a)

/-- R84, R192: the words of a row are read while it is presented. Any other read is refused by name: the refusal is the model's (93
U13 `refuse`; log 10, DEDUCED). `ws` are earlier writes to INPUT that wait (log 9). -/
def Obligations.RowWordsAreReadOnlyInSink : Prop :=
  ∀ (s : State) (ts : List Turn) (ws ms : List HostMove) (k : Word), s.turns = .host :: ts →
    (∀ w ∈ ws, s.waits w = true) → s.hostQ = ws ++ .readRow k :: ms →
    (s.phase = .sink → k.toNat < s.hdr.outW.toNat →
      step s = .next { s with turns := ts, hostQ := ws ++ ms, rowWord := wordAt s.pix.out k.toNat })
    ∧ (s.phase ≠ .sink ∨ s.hdr.outW.toNat ≤ k.toNat → step s = .refused .rowReadOutsideSink)

/-! ## Whole-machine rules -/

/-- R14, R90: no instruction changes INPUT, the row word read last or the moves to come; only the write of an operand
register or of IRQ_EN changes one, and only a read changes the value returned to the host. -/
def Obligations.InstructionsKeepWhatTheyDoNotName : Prop :=
  ∀ (i : Instr) (s t : State), exec i s = .next t →
    t.mem = s.mem ∧ t.rowWord = s.rowWord ∧ t.hostQ = s.hostQ ∧ t.engineQ = s.engineQ ∧ t.turns = s.turns
    ∧ ((∀ v, i ≠ .wrInBase v) → t.inBase = s.inBase) ∧ ((∀ v, i ≠ .wrInLen v) → t.inLen = s.inLen)
    ∧ ((∀ v, i ≠ .wrCtx v) → t.ctx = s.ctx) ∧ ((∀ v, i ≠ .wrIrqEn v) → t.irqEn = s.irqEn)
    ∧ ((∀ a, encode i ≠ .reg a) → t.bus = s.bus)

/-- R55: while DECODE streams, no instruction changes `Dict`: only the engine writes it. -/
def Obligations.BlockNeverWritesDict : Prop :=
  ∀ (i : Instr) (s t : State), exec i s = .next t → s.streaming = true → (∀ scale, i ≠ .decode scale) → t.busy = true →
    t.dict = s.dict

/-- R50: the phase changes only as its table of transitions says, unless a reset is taken. -/
def Obligations.PhaseFollowsItsTransitions : Prop :=
  ∀ s t : State, s.turns.head? ≠ some .reset → step s = .next t → s.phase.canFollow t.phase = true

/-- R21: the invariants of STATUS are kept by every step. -/
def Obligations.StatusInvariantIsKept : Prop :=
  ∀ s t : State, s.StatusInv → step s = .next t → t.StatusInv

/-- INPUT keeps its canonical form (log 1), and no step but a host's write to it while BUSY = 0 changes it: neither block, engine nor
reset writes INPUT, and nobody while BUSY = 1 (R14, R53, R67, R90). -/
def Obligations.InputIsChangedByTheHostOnly : Prop :=
  ∀ s t : State, step s = .next t →
    (Memory.wf s.mem = true → Memory.wf t.mem = true)
    ∧ (t.mem ≠ s.mem → s.busy = false ∧ ∃ addr b ms, s.hostQ = .writeInput addr b :: ms ∧ t.hostQ = ms
        ∧ t.mem = Memory.write s.mem addr.toNat b)

/-- R32, R170: rows are presented with indices 0, 1, 2, ..., and ROWS counts them. The list of presented rows is the model's own
(log 18). -/
def Obligations.RowNumberingIsKept : Prop :=
  ∀ s t : State, s.RowsInv → step s = .next t → t.RowsInv

/-- R54, R129: the engine is never handed a slice outside the window. -/
def Obligations.InputWindowInvariantIsKept : Prop :=
  ∀ s t : State, s.InputInv → step s = .next t → t.InputInv

/-- R43, R55, R136: spans and grants stay inside `Dict`. -/
def Obligations.DictionaryInvariantIsKept : Prop :=
  ∀ s t : State, s.DictInv → step s = .next t → t.DictInv

/-- R45, R46, R141: the reassembler's positions and buffers keep their bounds. R46, R124, R125, R168: the pixel pipeline keeps its
widths, ROWS is y div s and never passes OUT_H, and no sum of the accumulator wraps. -/
def Obligations.LineInvariantIsKept : Prop :=
  ∀ s t : State, s.LineInv → s.PixelInv → step s = .next t →
    t.LineInv ∧ t.PixelInv ∧ (t.streaming = true → t.res.rows.toNat ≤ t.hdr.outH.toNat)

/-- R189: the state after reset has the table's values and meets every invariant. -/
def Obligations.ResetStateHasItsValuesAndInvariants : Prop :=
  State.reset.phase = .idle ∧ State.reset.statusWord = 0#32 ∧ State.reset.irqEnWord = 0#32 ∧ State.reset.irq = false
    ∧ State.reset.inBase = 0#32 ∧ State.reset.inLen = 0#32 ∧ State.reset.ctx = 0#32
    ∧ State.reset.res = ⟨0#32, 0#32, 0#32, 0#32, 0#32, 0#32, 0#32, 0#32, 0#32⟩
    ∧ State.reset.StatusInv ∧ Memory.wf State.reset.mem = true ∧ State.reset.RowsInv ∧ State.reset.InputInv
    ∧ State.reset.DictInv ∧ State.reset.LineInv ∧ State.reset.PixelInv

/-- R38, R195: while a command runs, neither its latched operands nor the operand registers change. -/
def Obligations.OperandsAreStableWhileBusy : Prop :=
  ∀ s t : State, s.turns.head? ≠ some .reset → s.busy = true → step s = .next t →
    t.inBase = s.inBase ∧ t.inLen = s.inLen ∧ t.ctx = s.ctx ∧ (t.busy = true → t.cmd = s.cmd)

/-- R138: a streaming DECODE ends in success only when H scanlines are reconstructed. -/
def Obligations.DecodeSucceedsOnlyWhenComplete : Prop :=
  ∀ s t : State, s.streaming = true → s.status.ok = false → step s = .next t → t.status.ok = true →
    s.phase = .consume ∧ s.line.y = s.hdr.h.toNat
end

