-- ==== Sys2Proof/Laws/State.lean ====
section
/-! SUPPORT. One lemma for each field of State under each shared update: what the update leaves, and what it writes. -/

namespace Sys2Proof.Machine

@[simp] theorem forgetInternal_phase (s : State) : (forgetInternal s).phase = s.phase := rfl
@[simp] theorem forgetInternal_status (s : State) : (forgetInternal s).status = s.status := rfl
@[simp] theorem forgetInternal_inBase (s : State) : (forgetInternal s).inBase = s.inBase := rfl
@[simp] theorem forgetInternal_inLen (s : State) : (forgetInternal s).inLen = s.inLen := rfl
@[simp] theorem forgetInternal_ctx (s : State) : (forgetInternal s).ctx = s.ctx := rfl
@[simp] theorem forgetInternal_irqEn (s : State) : (forgetInternal s).irqEn = s.irqEn := rfl
@[simp] theorem forgetInternal_res (s : State) : (forgetInternal s).res = s.res := rfl
@[simp] theorem forgetInternal_cmd (s : State) : (forgetInternal s).cmd = (Config.freeInternal s.draws).cmd := rfl
@[simp] theorem forgetInternal_hdr (s : State) : (forgetInternal s).hdr = (Config.freeInternal s.draws).hdr := rfl
@[simp] theorem forgetInternal_tab (s : State) : (forgetInternal s).tab = (Config.freeInternal s.draws).tab := rfl
@[simp] theorem forgetInternal_drv (s : State) : (forgetInternal s).drv = (Config.freeInternal s.draws).drv := rfl
@[simp] theorem forgetInternal_engine (s : State) : (forgetInternal s).engine = (Config.freeInternal s.draws).engine := rfl
@[simp] theorem forgetInternal_dict (s : State) : (forgetInternal s).dict = (Config.freeInternal s.draws).dict := rfl
@[simp] theorem forgetInternal_line (s : State) : (forgetInternal s).line = (Config.freeInternal s.draws).line := rfl
@[simp] theorem forgetInternal_pix (s : State) : (forgetInternal s).pix = (Config.freeInternal s.draws).pix := rfl
@[simp] theorem forgetInternal_mem (s : State) : (forgetInternal s).mem = s.mem := rfl
@[simp] theorem forgetInternal_bus (s : State) : (forgetInternal s).bus = s.bus := rfl
@[simp] theorem forgetInternal_rowWord (s : State) : (forgetInternal s).rowWord = s.rowWord := rfl
@[simp] theorem forgetInternal_presented (s : State) : (forgetInternal s).presented = s.presented := rfl
@[simp] theorem forgetInternal_draws (s : State) : (forgetInternal s).draws = s.draws + 1 := rfl
@[simp] theorem forgetInternal_hostQ (s : State) : (forgetInternal s).hostQ = s.hostQ := rfl
@[simp] theorem forgetInternal_engineQ (s : State) : (forgetInternal s).engineQ = s.engineQ := rfl
@[simp] theorem forgetInternal_turns (s : State) : (forgetInternal s).turns = s.turns := rfl

@[simp] theorem raiseFatal_phase (c : Cause) (s : State) : (raiseFatal c s).phase = .idle := rfl
@[simp] theorem raiseFatal_status (c : Cause) (s : State) : (raiseFatal c s).status = ⟨true, false, true, s.status.ignored, c⟩ := rfl
@[simp] theorem raiseFatal_inBase (c : Cause) (s : State) : (raiseFatal c s).inBase = s.inBase := rfl
@[simp] theorem raiseFatal_inLen (c : Cause) (s : State) : (raiseFatal c s).inLen = s.inLen := rfl
@[simp] theorem raiseFatal_ctx (c : Cause) (s : State) : (raiseFatal c s).ctx = s.ctx := rfl
@[simp] theorem raiseFatal_irqEn (c : Cause) (s : State) : (raiseFatal c s).irqEn = s.irqEn := rfl
@[simp] theorem raiseFatal_res (c : Cause) (s : State) : (raiseFatal c s).res = s.res := rfl
@[simp] theorem raiseFatal_cmd (c : Cause) (s : State) : (raiseFatal c s).cmd = (Config.freeInternal s.draws).cmd := rfl
@[simp] theorem raiseFatal_hdr (c : Cause) (s : State) : (raiseFatal c s).hdr = (Config.freeInternal s.draws).hdr := rfl
@[simp] theorem raiseFatal_tab (c : Cause) (s : State) : (raiseFatal c s).tab = (Config.freeInternal s.draws).tab := rfl
@[simp] theorem raiseFatal_drv (c : Cause) (s : State) : (raiseFatal c s).drv = (Config.freeInternal s.draws).drv := rfl
@[simp] theorem raiseFatal_engine (c : Cause) (s : State) : (raiseFatal c s).engine = (Config.freeInternal s.draws).engine := rfl
@[simp] theorem raiseFatal_dict (c : Cause) (s : State) : (raiseFatal c s).dict = (Config.freeInternal s.draws).dict := rfl
@[simp] theorem raiseFatal_line (c : Cause) (s : State) : (raiseFatal c s).line = (Config.freeInternal s.draws).line := rfl
@[simp] theorem raiseFatal_pix (c : Cause) (s : State) : (raiseFatal c s).pix = (Config.freeInternal s.draws).pix := rfl
@[simp] theorem raiseFatal_mem (c : Cause) (s : State) : (raiseFatal c s).mem = s.mem := rfl
@[simp] theorem raiseFatal_bus (c : Cause) (s : State) : (raiseFatal c s).bus = s.bus := rfl
@[simp] theorem raiseFatal_rowWord (c : Cause) (s : State) : (raiseFatal c s).rowWord = s.rowWord := rfl
@[simp] theorem raiseFatal_presented (c : Cause) (s : State) : (raiseFatal c s).presented = s.presented := rfl
@[simp] theorem raiseFatal_draws (c : Cause) (s : State) : (raiseFatal c s).draws = s.draws + 1 := rfl
@[simp] theorem raiseFatal_hostQ (c : Cause) (s : State) : (raiseFatal c s).hostQ = s.hostQ := rfl
@[simp] theorem raiseFatal_engineQ (c : Cause) (s : State) : (raiseFatal c s).engineQ = s.engineQ := rfl
@[simp] theorem raiseFatal_turns (c : Cause) (s : State) : (raiseFatal c s).turns = s.turns := rfl

@[simp] theorem finishOk_phase (s : State) : (finishOk s).phase = .idle := rfl
@[simp] theorem finishOk_status (s : State) : (finishOk s).status = ⟨true, true, s.status.fail, s.status.ignored, s.status.cause⟩ := rfl
@[simp] theorem finishOk_inBase (s : State) : (finishOk s).inBase = s.inBase := rfl
@[simp] theorem finishOk_inLen (s : State) : (finishOk s).inLen = s.inLen := rfl
@[simp] theorem finishOk_ctx (s : State) : (finishOk s).ctx = s.ctx := rfl
@[simp] theorem finishOk_irqEn (s : State) : (finishOk s).irqEn = s.irqEn := rfl
@[simp] theorem finishOk_res (s : State) : (finishOk s).res = s.res := rfl
@[simp] theorem finishOk_cmd (s : State) : (finishOk s).cmd = (Config.freeInternal s.draws).cmd := rfl
@[simp] theorem finishOk_hdr (s : State) : (finishOk s).hdr = (Config.freeInternal s.draws).hdr := rfl
@[simp] theorem finishOk_tab (s : State) : (finishOk s).tab = (Config.freeInternal s.draws).tab := rfl
@[simp] theorem finishOk_drv (s : State) : (finishOk s).drv = (Config.freeInternal s.draws).drv := rfl
@[simp] theorem finishOk_engine (s : State) : (finishOk s).engine = (Config.freeInternal s.draws).engine := rfl
@[simp] theorem finishOk_dict (s : State) : (finishOk s).dict = (Config.freeInternal s.draws).dict := rfl
@[simp] theorem finishOk_line (s : State) : (finishOk s).line = (Config.freeInternal s.draws).line := rfl
@[simp] theorem finishOk_pix (s : State) : (finishOk s).pix = (Config.freeInternal s.draws).pix := rfl
@[simp] theorem finishOk_mem (s : State) : (finishOk s).mem = s.mem := rfl
@[simp] theorem finishOk_bus (s : State) : (finishOk s).bus = s.bus := rfl
@[simp] theorem finishOk_rowWord (s : State) : (finishOk s).rowWord = s.rowWord := rfl
@[simp] theorem finishOk_presented (s : State) : (finishOk s).presented = s.presented := rfl
@[simp] theorem finishOk_draws (s : State) : (finishOk s).draws = s.draws + 1 := rfl
@[simp] theorem finishOk_hostQ (s : State) : (finishOk s).hostQ = s.hostQ := rfl
@[simp] theorem finishOk_engineQ (s : State) : (finishOk s).engineQ = s.engineQ := rfl
@[simp] theorem finishOk_turns (s : State) : (finishOk s).turns = s.turns := rfl

@[simp] theorem latchCommand_phase (v : Word) (s : State) : (latchCommand v s).phase = s.phase := rfl
@[simp] theorem latchCommand_status (v : Word) (s : State) : (latchCommand v s).status = ⟨false, false, false, s.status.ignored, .none⟩ := rfl
@[simp] theorem latchCommand_inBase (v : Word) (s : State) : (latchCommand v s).inBase = s.inBase := rfl
@[simp] theorem latchCommand_inLen (v : Word) (s : State) : (latchCommand v s).inLen = s.inLen := rfl
@[simp] theorem latchCommand_ctx (v : Word) (s : State) : (latchCommand v s).ctx = s.ctx := rfl
@[simp] theorem latchCommand_irqEn (v : Word) (s : State) : (latchCommand v s).irqEn = s.irqEn := rfl
@[simp] theorem latchCommand_res (v : Word) (s : State) : (latchCommand v s).res = Results.zero := rfl
@[simp] theorem latchCommand_cmd (v : Word) (s : State) : (latchCommand v s).cmd = ⟨if v.extractLsb' 0 4 = 1#4 then .info else .decode, v.extractLsb' 8 8, s.inBase, s.inLen, s.ctx⟩ := rfl
@[simp] theorem latchCommand_hdr (v : Word) (s : State) : (latchCommand v s).hdr = s.hdr := rfl
@[simp] theorem latchCommand_tab (v : Word) (s : State) : (latchCommand v s).tab = s.tab := rfl
@[simp] theorem latchCommand_drv (v : Word) (s : State) : (latchCommand v s).drv = s.drv := rfl
@[simp] theorem latchCommand_engine (v : Word) (s : State) : (latchCommand v s).engine = s.engine := rfl
@[simp] theorem latchCommand_dict (v : Word) (s : State) : (latchCommand v s).dict = s.dict := rfl
@[simp] theorem latchCommand_line (v : Word) (s : State) : (latchCommand v s).line = s.line := rfl
@[simp] theorem latchCommand_pix (v : Word) (s : State) : (latchCommand v s).pix = s.pix := rfl
@[simp] theorem latchCommand_mem (v : Word) (s : State) : (latchCommand v s).mem = s.mem := rfl
@[simp] theorem latchCommand_bus (v : Word) (s : State) : (latchCommand v s).bus = s.bus := rfl
@[simp] theorem latchCommand_rowWord (v : Word) (s : State) : (latchCommand v s).rowWord = s.rowWord := rfl
@[simp] theorem latchCommand_presented (v : Word) (s : State) : (latchCommand v s).presented = [] := rfl
@[simp] theorem latchCommand_draws (v : Word) (s : State) : (latchCommand v s).draws = s.draws := rfl
@[simp] theorem latchCommand_hostQ (v : Word) (s : State) : (latchCommand v s).hostQ = s.hostQ := rfl
@[simp] theorem latchCommand_engineQ (v : Word) (s : State) : (latchCommand v s).engineQ = s.engineQ := rfl
@[simp] theorem latchCommand_turns (v : Word) (s : State) : (latchCommand v s).turns = s.turns := rfl

@[simp] theorem presentRow_phase (s : State) : (presentRow s).phase = .sink := rfl
@[simp] theorem presentRow_status (s : State) : (presentRow s).status = s.status := rfl
@[simp] theorem presentRow_inBase (s : State) : (presentRow s).inBase = s.inBase := rfl
@[simp] theorem presentRow_inLen (s : State) : (presentRow s).inLen = s.inLen := rfl
@[simp] theorem presentRow_ctx (s : State) : (presentRow s).ctx = s.ctx := rfl
@[simp] theorem presentRow_irqEn (s : State) : (presentRow s).irqEn = s.irqEn := rfl
@[simp] theorem presentRow_res (s : State) : (presentRow s).res = { s.res with rows := s.res.rows + 1#32 } := rfl
@[simp] theorem presentRow_cmd (s : State) : (presentRow s).cmd = s.cmd := rfl
@[simp] theorem presentRow_hdr (s : State) : (presentRow s).hdr = s.hdr := rfl
@[simp] theorem presentRow_tab (s : State) : (presentRow s).tab = s.tab := rfl
@[simp] theorem presentRow_drv (s : State) : (presentRow s).drv = s.drv := rfl
@[simp] theorem presentRow_engine (s : State) : (presentRow s).engine = s.engine := rfl
@[simp] theorem presentRow_dict (s : State) : (presentRow s).dict = s.dict := rfl
@[simp] theorem presentRow_line (s : State) : (presentRow s).line = s.line := rfl
@[simp] theorem presentRow_pix (s : State) : (presentRow s).pix = s.pix := rfl
@[simp] theorem presentRow_mem (s : State) : (presentRow s).mem = s.mem := rfl
@[simp] theorem presentRow_bus (s : State) : (presentRow s).bus = s.bus := rfl
@[simp] theorem presentRow_rowWord (s : State) : (presentRow s).rowWord = s.rowWord := rfl
@[simp] theorem presentRow_presented (s : State) : (presentRow s).presented = s.presented ++ [⟨s.res.rows, s.hdr.outW.setWidth 32, s.cmd.ctx, s.rowWords⟩] := rfl
@[simp] theorem presentRow_draws (s : State) : (presentRow s).draws = s.draws := rfl
@[simp] theorem presentRow_hostQ (s : State) : (presentRow s).hostQ = s.hostQ := rfl
@[simp] theorem presentRow_engineQ (s : State) : (presentRow s).engineQ = s.engineQ := rfl
@[simp] theorem presentRow_turns (s : State) : (presentRow s).turns = s.turns := rfl

@[simp] theorem swapLines_phase (s : State) : (swapLines s).phase = s.phase := rfl
@[simp] theorem swapLines_status (s : State) : (swapLines s).status = s.status := rfl
@[simp] theorem swapLines_inBase (s : State) : (swapLines s).inBase = s.inBase := rfl
@[simp] theorem swapLines_inLen (s : State) : (swapLines s).inLen = s.inLen := rfl
@[simp] theorem swapLines_ctx (s : State) : (swapLines s).ctx = s.ctx := rfl
@[simp] theorem swapLines_irqEn (s : State) : (swapLines s).irqEn = s.irqEn := rfl
@[simp] theorem swapLines_res (s : State) : (swapLines s).res = s.res := rfl
@[simp] theorem swapLines_cmd (s : State) : (swapLines s).cmd = s.cmd := rfl
@[simp] theorem swapLines_hdr (s : State) : (swapLines s).hdr = s.hdr := rfl
@[simp] theorem swapLines_tab (s : State) : (swapLines s).tab = s.tab := rfl
@[simp] theorem swapLines_drv (s : State) : (swapLines s).drv = s.drv := rfl
@[simp] theorem swapLines_engine (s : State) : (swapLines s).engine = s.engine := rfl
@[simp] theorem swapLines_dict (s : State) : (swapLines s).dict = s.dict := rfl
@[simp] theorem swapLines_line (s : State) : (swapLines s).line =
    ⟨s.line.prev.load (List.replicate s.hdr.stride 0#8), s.line.cur, 0, s.line.f, s.line.y + 1⟩ := rfl
@[simp] theorem swapLines_pix (s : State) : (swapLines s).pix = s.pix := rfl
@[simp] theorem swapLines_mem (s : State) : (swapLines s).mem = s.mem := rfl
@[simp] theorem swapLines_bus (s : State) : (swapLines s).bus = s.bus := rfl
@[simp] theorem swapLines_rowWord (s : State) : (swapLines s).rowWord = s.rowWord := rfl
@[simp] theorem swapLines_presented (s : State) : (swapLines s).presented = s.presented := rfl
@[simp] theorem swapLines_draws (s : State) : (swapLines s).draws = s.draws := rfl
@[simp] theorem swapLines_hostQ (s : State) : (swapLines s).hostQ = s.hostQ := rfl
@[simp] theorem swapLines_engineQ (s : State) : (swapLines s).engineQ = s.engineQ := rfl
@[simp] theorem swapLines_turns (s : State) : (swapLines s).turns = s.turns := rfl

@[simp] theorem takeSpanByte_phase (s : State) : (takeSpanByte s).phase = s.phase := rfl
@[simp] theorem takeSpanByte_status (s : State) : (takeSpanByte s).status = s.status := rfl
@[simp] theorem takeSpanByte_inBase (s : State) : (takeSpanByte s).inBase = s.inBase := rfl
@[simp] theorem takeSpanByte_inLen (s : State) : (takeSpanByte s).inLen = s.inLen := rfl
@[simp] theorem takeSpanByte_ctx (s : State) : (takeSpanByte s).ctx = s.ctx := rfl
@[simp] theorem takeSpanByte_irqEn (s : State) : (takeSpanByte s).irqEn = s.irqEn := rfl
@[simp] theorem takeSpanByte_res (s : State) : (takeSpanByte s).res = s.res := rfl
@[simp] theorem takeSpanByte_cmd (s : State) : (takeSpanByte s).cmd = s.cmd := rfl
@[simp] theorem takeSpanByte_hdr (s : State) : (takeSpanByte s).hdr = s.hdr := rfl
@[simp] theorem takeSpanByte_tab (s : State) : (takeSpanByte s).tab = s.tab := rfl
@[simp] theorem takeSpanByte_drv (s : State) : (takeSpanByte s).drv = { s.drv with spPos := s.drv.spPos + 1#16 } := rfl
@[simp] theorem takeSpanByte_engine (s : State) : (takeSpanByte s).engine = s.engine := rfl
@[simp] theorem takeSpanByte_dict (s : State) : (takeSpanByte s).dict = s.dict := rfl
@[simp] theorem takeSpanByte_line (s : State) : (takeSpanByte s).line = s.line := rfl
@[simp] theorem takeSpanByte_pix (s : State) : (takeSpanByte s).pix = s.pix := rfl
@[simp] theorem takeSpanByte_mem (s : State) : (takeSpanByte s).mem = s.mem := rfl
@[simp] theorem takeSpanByte_bus (s : State) : (takeSpanByte s).bus = s.bus := rfl
@[simp] theorem takeSpanByte_rowWord (s : State) : (takeSpanByte s).rowWord = s.rowWord := rfl
@[simp] theorem takeSpanByte_presented (s : State) : (takeSpanByte s).presented = s.presented := rfl
@[simp] theorem takeSpanByte_draws (s : State) : (takeSpanByte s).draws = s.draws := rfl
@[simp] theorem takeSpanByte_hostQ (s : State) : (takeSpanByte s).hostQ = s.hostQ := rfl
@[simp] theorem takeSpanByte_engineQ (s : State) : (takeSpanByte s).engineQ = s.engineQ := rfl
@[simp] theorem takeSpanByte_turns (s : State) : (takeSpanByte s).turns = s.turns := rfl

@[simp] theorem walkStop_phase (s : State) : (walkStop s).phase = s.phase := rfl
@[simp] theorem walkStop_status (s : State) : (walkStop s).status = s.status := rfl
@[simp] theorem walkStop_inBase (s : State) : (walkStop s).inBase = s.inBase := rfl
@[simp] theorem walkStop_inLen (s : State) : (walkStop s).inLen = s.inLen := rfl
@[simp] theorem walkStop_ctx (s : State) : (walkStop s).ctx = s.ctx := rfl
@[simp] theorem walkStop_irqEn (s : State) : (walkStop s).irqEn = s.irqEn := rfl
@[simp] theorem walkStop_res (s : State) : (walkStop s).res = s.res := rfl
@[simp] theorem walkStop_cmd (s : State) : (walkStop s).cmd = s.cmd := rfl
@[simp] theorem walkStop_hdr (s : State) : (walkStop s).hdr = s.hdr := rfl
@[simp] theorem walkStop_tab (s : State) : (walkStop s).tab = { s.tab with walking := false } := rfl
@[simp] theorem walkStop_drv (s : State) : (walkStop s).drv = s.drv := rfl
@[simp] theorem walkStop_engine (s : State) : (walkStop s).engine = s.engine := rfl
@[simp] theorem walkStop_dict (s : State) : (walkStop s).dict = s.dict := rfl
@[simp] theorem walkStop_line (s : State) : (walkStop s).line = s.line := rfl
@[simp] theorem walkStop_pix (s : State) : (walkStop s).pix = s.pix := rfl
@[simp] theorem walkStop_mem (s : State) : (walkStop s).mem = s.mem := rfl
@[simp] theorem walkStop_bus (s : State) : (walkStop s).bus = s.bus := rfl
@[simp] theorem walkStop_rowWord (s : State) : (walkStop s).rowWord = s.rowWord := rfl
@[simp] theorem walkStop_presented (s : State) : (walkStop s).presented = s.presented := rfl
@[simp] theorem walkStop_draws (s : State) : (walkStop s).draws = s.draws := rfl
@[simp] theorem walkStop_hostQ (s : State) : (walkStop s).hostQ = s.hostQ := rfl
@[simp] theorem walkStop_engineQ (s : State) : (walkStop s).engineQ = s.engineQ := rfl
@[simp] theorem walkStop_turns (s : State) : (walkStop s).turns = s.turns := rfl

@[simp] theorem loadHeader_phase (s : State) : (loadHeader s).phase = s.phase := rfl
@[simp] theorem loadHeader_status (s : State) : (loadHeader s).status = s.status := rfl
@[simp] theorem loadHeader_inBase (s : State) : (loadHeader s).inBase = s.inBase := rfl
@[simp] theorem loadHeader_inLen (s : State) : (loadHeader s).inLen = s.inLen := rfl
@[simp] theorem loadHeader_ctx (s : State) : (loadHeader s).ctx = s.ctx := rfl
@[simp] theorem loadHeader_irqEn (s : State) : (loadHeader s).irqEn = s.irqEn := rfl
@[simp] theorem loadHeader_cmd (s : State) : (loadHeader s).cmd = s.cmd := rfl
@[simp] theorem loadHeader_hdr (s : State) : (loadHeader s).hdr = { s.hdr with w := s.be32 16, h := s.be32 20, d := s.inByte 24, c := s.inByte 25 } := rfl
@[simp] theorem loadHeader_tab (s : State) : (loadHeader s).tab = s.tab := rfl
@[simp] theorem loadHeader_drv (s : State) : (loadHeader s).drv = s.drv := rfl
@[simp] theorem loadHeader_engine (s : State) : (loadHeader s).engine = s.engine := rfl
@[simp] theorem loadHeader_dict (s : State) : (loadHeader s).dict = s.dict := rfl
@[simp] theorem loadHeader_line (s : State) : (loadHeader s).line = s.line := rfl
@[simp] theorem loadHeader_pix (s : State) : (loadHeader s).pix = s.pix := rfl
@[simp] theorem loadHeader_mem (s : State) : (loadHeader s).mem = s.mem := rfl
@[simp] theorem loadHeader_bus (s : State) : (loadHeader s).bus = s.bus := rfl
@[simp] theorem loadHeader_rowWord (s : State) : (loadHeader s).rowWord = s.rowWord := rfl
@[simp] theorem loadHeader_presented (s : State) : (loadHeader s).presented = s.presented := rfl
@[simp] theorem loadHeader_draws (s : State) : (loadHeader s).draws = s.draws := rfl
@[simp] theorem loadHeader_hostQ (s : State) : (loadHeader s).hostQ = s.hostQ := rfl
@[simp] theorem loadHeader_engineQ (s : State) : (loadHeader s).engineQ = s.engineQ := rfl
@[simp] theorem loadHeader_turns (s : State) : (loadHeader s).turns = s.turns := rfl

@[simp] theorem loadBpp_phase (s : State) : (loadBpp s).phase = s.phase := rfl
@[simp] theorem loadBpp_status (s : State) : (loadBpp s).status = s.status := rfl
@[simp] theorem loadBpp_inBase (s : State) : (loadBpp s).inBase = s.inBase := rfl
@[simp] theorem loadBpp_inLen (s : State) : (loadBpp s).inLen = s.inLen := rfl
@[simp] theorem loadBpp_ctx (s : State) : (loadBpp s).ctx = s.ctx := rfl
@[simp] theorem loadBpp_irqEn (s : State) : (loadBpp s).irqEn = s.irqEn := rfl
@[simp] theorem loadBpp_cmd (s : State) : (loadBpp s).cmd = s.cmd := rfl
@[simp] theorem loadBpp_hdr (s : State) : (loadBpp s).hdr = { s.hdr with bpp := bytesPerPixel s.hdr.c s.hdr.d } := rfl
@[simp] theorem loadBpp_tab (s : State) : (loadBpp s).tab = s.tab := rfl
@[simp] theorem loadBpp_drv (s : State) : (loadBpp s).drv = s.drv := rfl
@[simp] theorem loadBpp_engine (s : State) : (loadBpp s).engine = s.engine := rfl
@[simp] theorem loadBpp_dict (s : State) : (loadBpp s).dict = s.dict := rfl
@[simp] theorem loadBpp_line (s : State) : (loadBpp s).line = s.line := rfl
@[simp] theorem loadBpp_pix (s : State) : (loadBpp s).pix = s.pix := rfl
@[simp] theorem loadBpp_mem (s : State) : (loadBpp s).mem = s.mem := rfl
@[simp] theorem loadBpp_bus (s : State) : (loadBpp s).bus = s.bus := rfl
@[simp] theorem loadBpp_rowWord (s : State) : (loadBpp s).rowWord = s.rowWord := rfl
@[simp] theorem loadBpp_presented (s : State) : (loadBpp s).presented = s.presented := rfl
@[simp] theorem loadBpp_draws (s : State) : (loadBpp s).draws = s.draws := rfl
@[simp] theorem loadBpp_hostQ (s : State) : (loadBpp s).hostQ = s.hostQ := rfl
@[simp] theorem loadBpp_engineQ (s : State) : (loadBpp s).engineQ = s.engineQ := rfl
@[simp] theorem loadBpp_turns (s : State) : (loadBpp s).turns = s.turns := rfl

@[simp] theorem resetStep_phase (s : State) : (resetStep s).phase = .idle := rfl
@[simp] theorem resetStep_status (s : State) : (resetStep s).status = ⟨false, false, false, false, .none⟩ := rfl
@[simp] theorem resetStep_inBase (s : State) : (resetStep s).inBase = 0#32 := rfl
@[simp] theorem resetStep_inLen (s : State) : (resetStep s).inLen = 0#32 := rfl
@[simp] theorem resetStep_ctx (s : State) : (resetStep s).ctx = 0#32 := rfl
@[simp] theorem resetStep_irqEn (s : State) : (resetStep s).irqEn = false := rfl
@[simp] theorem resetStep_res (s : State) : (resetStep s).res = Results.zero := rfl
@[simp] theorem resetStep_mem (s : State) : (resetStep s).mem = s.mem := rfl
@[simp] theorem resetStep_bus (s : State) : (resetStep s).bus = 0#32 := rfl
@[simp] theorem resetStep_rowWord (s : State) : (resetStep s).rowWord = 0#16 := rfl
@[simp] theorem resetStep_presented (s : State) : (resetStep s).presented = [] := rfl
@[simp] theorem resetStep_draws (s : State) : (resetStep s).draws = s.draws + 1 := rfl
@[simp] theorem resetStep_hostQ (s : State) : (resetStep s).hostQ = s.hostQ := rfl
@[simp] theorem resetStep_engineQ (s : State) : (resetStep s).engineQ = s.engineQ := rfl
@[simp] theorem resetStep_turns (s : State) : (resetStep s).turns = s.turns := rfl
@[simp] theorem resetStep_cmd (s : State) : (resetStep s).cmd = (Config.freeInternal s.draws).cmd := rfl
@[simp] theorem resetStep_hdr (s : State) : (resetStep s).hdr = (Config.freeInternal s.draws).hdr := rfl
@[simp] theorem resetStep_tab (s : State) : (resetStep s).tab = (Config.freeInternal s.draws).tab := rfl
@[simp] theorem resetStep_drv (s : State) : (resetStep s).drv = (Config.freeInternal s.draws).drv := rfl
@[simp] theorem resetStep_engine (s : State) : (resetStep s).engine = (Config.freeInternal s.draws).engine := rfl
@[simp] theorem resetStep_dict (s : State) : (resetStep s).dict = (Config.freeInternal s.draws).dict := rfl
@[simp] theorem resetStep_line (s : State) : (resetStep s).line = (Config.freeInternal s.draws).line := rfl
@[simp] theorem resetStep_pix (s : State) : (resetStep s).pix = (Config.freeInternal s.draws).pix := rfl

/-- A failure keeps nothing of the internal state, so what the step did to it before does not matter (R176). -/
theorem raiseFatal_withInternal (c : Cause) (s : State) (i : Internal) : raiseFatal c (s.withInternal i) = raiseFatal c s := rfl

end Sys2Proof.Machine
end

