-- ==== Sys2Proof/Laws/Chunks.lean ====
section
/-! SUPPORT. The chunk walk: what a walk step can change, what it keeps, and why the walk ends (R114 to R123). -/

namespace Sys2Proof.Machine

/-! ## What SETUP work changes -/

/-- `u` is `s` but for the header values, the tables and the result registers, and ROWS is as it was. -/
def KeepsOutsideSetup (s u : State) : Prop :=
  u = { s with hdr := u.hdr, tab := u.tab, res := u.res } ∧ u.res.rows = s.res.rows

theorem KeepsOutsideSetup.refl (s : State) : KeepsOutsideSetup s s := ⟨rfl, rfl⟩

theorem KeepsOutsideSetup.trans {s t u : State} (h : KeepsOutsideSetup s t) (h' : KeepsOutsideSetup t u) :
    KeepsOutsideSetup s u := by
  obtain ⟨h1, h2⟩ := h
  obtain ⟨h3, h4⟩ := h'
  refine ⟨?_, h4.trans h2⟩
  rw [h3, h1]

/-- A step of the walk changes the tables only. -/
def KeepsOutsideTables (s u : State) : Prop := u = { s with tab := u.tab }

theorem KeepsOutsideTables.refl (s : State) : KeepsOutsideTables s s := rfl

theorem KeepsOutsideTables.trans {s t u : State} (h : KeepsOutsideTables s t) (h' : KeepsOutsideTables t u) :
    KeepsOutsideTables s u := by
  unfold KeepsOutsideTables at *
  rw [h', h]

theorem KeepsOutsideTables.setup {s u : State} (h : KeepsOutsideTables s u) : KeepsOutsideSetup s u := by
  unfold KeepsOutsideTables at h
  rw [h]
  exact ⟨rfl, rfl⟩

/-! ## One chunk -/

/-- The recorded entries lie in the window, and there are no more than the cap (R117, R120). -/
def State.IdxInv (s : State) : Prop :=
  (∀ e ∈ s.tab.idx, e.ptr.toNat + e.len.toNat ≤ s.cmd.len.toNat) ∧ s.tab.idx.length ≤ Config.idatCap

/-- What every step of the walk does: it changes the tables only, keeps the entries in the window, and either stops the walk or
advances by at least 12 (R122). -/
structure WalkStepLaw (s t : State) : Prop where
  keeps : KeepsOutsideTables s t
  idx : s.IdxInv → t.IdxInv
  moves : t.tab.walking = false ∨ (t.tab.walking = s.tab.walking ∧ s.tab.pos + 12 ≤ t.tab.pos ∧ t.tab.pos ≤ s.cmd.len.toNat + 4)

theorem walkStop_law (s : State) : WalkStepLaw s (walkStop s) := ⟨rfl, id, .inl rfl⟩

theorem chunkStep_law {len : Word} {work : Nat → State → State} {s : State}
    (hk : KeepsOutsideTables s (work (s.tab.pos + 8) s)) (hp : (work (s.tab.pos + 8) s).tab.pos = s.tab.pos)
    (hw : (work (s.tab.pos + 8) s).tab.walking = s.tab.walking)
    (hi : s.tab.pos + 8 + len.toNat ≤ s.cmd.len.toNat → s.IdxInv → (work (s.tab.pos + 8) s).IdxInv) :
    WalkStepLaw s (chunkStep len work s) := by
  unfold chunkStep
  split
  · exact walkStop_law s
  · next hlen =>
    refine ⟨hk.trans rfl, fun h => hi (by omega) h, .inr ⟨hw, ?_, ?_⟩⟩ <;>
      simp only [walkAdvance, hp] <;> omega

theorem plteStep_law (len : Word) (s : State) : WalkStepLaw s (plteStep len s) := chunkStep_law rfl rfl rfl fun _ => id

theorem skipStep_law (len : Word) (s : State) : WalkStepLaw s (skipStep len s) := chunkStep_law rfl rfl rfl fun _ => id

theorem trnsWork_cases (len : Word) (p : Nat) (s : State) :
    trnsWork len p s = s ∨ ∃ a n, trnsWork len p s = { s with tab := { s.tab with alpha := a, trnsN := n } } := by
  unfold trnsWork
  split
  · exact .inr ⟨_, _, rfl⟩
  · exact .inl rfl

theorem trnsStep_law (len : Word) (s : State) : WalkStepLaw s (trnsStep len s) := by
  obtain h | ⟨a, n, h⟩ := trnsWork_cases len (s.tab.pos + 8) s <;>
    refine chunkStep_law ?_ ?_ ?_ ?_ <;> rw [h]
  · exact .refl s
  · exact fun _ => id
  · rfl
  · exact fun _ => id

theorem idatWork_cases (len : Word) (p : Nat) (s : State) :
    (s.tab.idx.length < Config.idatCap ∧
      idatWork len p s = { s with tab := { s.tab with idx := s.tab.idx ++ [⟨BitVec.ofNat 32 p, len⟩] } })
    ∨ idatWork len p s = s := by
  unfold idatWork
  split
  · next h => exact .inl ⟨h, rfl⟩
  · exact .inr rfl

theorem idatStep_law (len : Word) (s : State) : WalkStepLaw s (idatStep len s) := by
  obtain ⟨hc, h⟩ | h := idatWork_cases len (s.tab.pos + 8) s <;>
    refine chunkStep_law ?_ ?_ ?_ ?_ <;> rw [h]
  · rfl
  · intro hlen hi
    refine ⟨?_, ?_⟩
    · intro e he
      rw [List.mem_append, List.mem_singleton] at he
      rcases he with he | rfl
      · exact hi.1 e he
      · have hb := s.cmd.len.isLt
        simp only [BitVec.toNat_ofNat]
        rw [Nat.mod_eq_of_lt (by omega)]
        exact hlen
    · simp only [List.length_append, List.length_singleton]
      omega
  · exact .refl s
  · exact fun _ => id

theorem walkChunk_law (len type : Word) (s : State) : WalkStepLaw s (walkChunk len type s) := by
  unfold walkChunk
  split
  · exact plteStep_law _ s
  · exact trnsStep_law _ s
  · exact idatStep_law _ s
  · exact walkStop_law s
  · exact skipStep_law _ s

/-- Everything one step of the walk can do. -/
theorem walkStep_law (s : State) : WalkStepLaw s (walkStep s) := by
  unfold walkStep
  split
  · exact walkStop_law s
  · exact walkChunk_law _ _ s

/-! ## The whole walk -/

theorem walk_stopped {n : Nat} {s : State} (h : s.tab.walking = false) (hn : n ≠ 0) : walk n s = s := by
  cases n with
  | zero => exact absurd rfl hn
  | succ n => simp [walk, h]

theorem walk_step {n : Nat} {s : State} (h : s.tab.walking = true) : walk (n + 1) s = walk n (walkStep s) := by
  simp [walk, h]

/-- What the walk keeps. -/
theorem walk_law (n : Nat) (s : State) : KeepsOutsideTables s (walk n s) ∧ (s.IdxInv → (walk n s).IdxInv) := by
  induction n generalizing s with
  | zero => exact ⟨rfl, id⟩
  | succ n ih =>
    unfold walk
    split
    · have h := walkStep_law s
      exact ⟨h.keeps.trans (ih _).1, fun hi => (ih _).2 (h.idx hi)⟩
    · exact ⟨.refl s, id⟩

/-- A state of the walk from which `n` steps are enough: either it has stopped, or its cursor has passed all but 12·(n−1)
bytes of the input. -/
def State.EndsIn (s : State) (n : Nat) : Prop :=
  n ≠ 0 ∧ (s.tab.walking = true → s.cmd.len.toNat < s.tab.pos + 8 + 12 * (n - 1))

/-- With enough fuel the walk stops by R115 to R117, and more fuel changes nothing (R122). -/
theorem walk_of_endsIn {n : Nat} {s : State} (h : s.EndsIn n) (m : Nat) (hm : n ≤ m) :
    walk m s = walk n s ∧ (walk n s).tab.walking = false := by
  induction n generalizing s m with
  | zero => exact absurd rfl h.1
  | succ n ih =>
    obtain ⟨m, rfl⟩ : ∃ k, m = k + 1 := ⟨m - 1, by omega⟩
    cases hw : s.tab.walking with
    | false => rw [walk_stopped hw (by omega), walk_stopped hw (by omega)]; exact ⟨rfl, hw⟩
    | true =>
      rw [walk_step hw, walk_step hw]
      have hl := h.2 hw
      by_cases hn : n = 0
      · subst hn
        have hstop : walkStep s = walkStop s := by
          unfold walkStep
          rw [if_pos (by omega)]
        rw [hstop]
        refine ⟨?_, rfl⟩
        cases m with
        | zero => rfl
        | succ m => rw [walk_stopped rfl (by omega)]; rfl
      · have law := walkStep_law s
        refine ih ⟨hn, fun hw' => ?_⟩ m (by omega)
        rcases law.moves with hs | ⟨_, hp, _⟩
        · rw [hs] at hw'; cases hw'
        · have hk : (walkStep s).cmd = s.cmd := by rw [law.keeps]
          rw [hk]
          omega

end Sys2Proof.Machine
end

