-- ==== Sys2Proof/Laws/Commands.lean ====
section
/-! SUPPORT. The SETUP step: every way INFO and DECODE can leave it (R96, R97). -/

namespace Sys2Proof.Machine

/-! ## Sequencing of checks -/

@[simp] theorem Work.andThen_ok (s : State) (f : State → Work) : (Work.ok s).andThen f = f s := rfl
@[simp] theorem Work.andThen_fail (c : Cause) (s : State) (f : State → Work) : (Work.fail c s).andThen f = .fail c s := rfl
@[simp] theorem Work.settle_ok (s : State) : (Work.ok s).settle = s := rfl
@[simp] theorem Work.settle_fail (c : Cause) (s : State) : (Work.fail c s).settle = raiseFatal c s := rfl

/-- A check that fails raises its cause. -/
theorem failIf_true {b : Bool} (c : Cause) (s : State) (h : b = true) : failIf b c s = .fail c s := by simp [failIf, h]

/-- A check that passes changes nothing. -/
theorem failIf_false {b : Bool} (c : Cause) (s : State) (h : b = false) : failIf b c s = .ok s := by simp [failIf, h]

/-- Both outcomes of some work: `Q` of the state it goes on with, `F` of the cause and the state it fails in. -/
def Work.Ends (F : Cause → State → Prop) (Q : State → Prop) (r : Work) : Prop :=
  match r with
  | .ok s => Q s
  | .fail c s => F c s

theorem Work.Ends.mono {F F' : Cause → State → Prop} {Q Q' : State → Prop} {r : Work} (h : r.Ends F Q)
    (hF : ∀ c s, F c s → F' c s) (hQ : ∀ s, Q s → Q' s) : r.Ends F' Q' := by
  cases r with
  | ok s => exact hQ s h
  | fail c s => exact hF c s h

theorem Work.Ends.andThen {F : Cause → State → Prop} {Q Q' : State → Prop} {r : Work} {f : State → Work} (h : r.Ends F Q)
    (hf : ∀ s, Q s → (f s).Ends F Q') : (r.andThen f).Ends F Q' := by
  cases r with
  | ok s => exact hf s h
  | fail c s => exact h

theorem failIf_ends {F : Cause → State → Prop} {Q : State → Prop} (b : Bool) (c : Cause) (s : State)
    (hF : b = true → F c s) (hQ : b = false → Q s) : (failIf b c s).Ends F Q := by
  cases b with
  | true => exact hF rfl
  | false => exact hQ rfl

/-! ## The word of the latched command -/

/-- The latched command decodes to its own row. -/
theorem decodeCmd_latched (c : Latched) : decodeCmd c.word = if c.op = .info then .info else .decode c.scale := by
  obtain ⟨op, scale, base, len, ctx⟩ := c
  cases op with
  | info => simp [Latched.word, decodeCmd]
  | decode =>
    have h1 : ∀ v : Byte, (0x00000002#32 ||| (v.setWidth 32 <<< 8)) ≠ 0x00000001#32 := by decide +revert
    have h2 : ∀ v : Byte, (0x00000002#32 ||| (v.setWidth 32 <<< 8)).extractLsb' 0 8 = 2#8
        ∧ (0x00000002#32 ||| (v.setWidth 32 <<< 8)).extractLsb' 16 16 = 0#16 := by decide +revert
    have h3 : ∀ v : Byte, (0x00000002#32 ||| (v.setWidth 32 <<< 8)).extractLsb' 8 8 = v := by decide +revert
    simp [Latched.word, decodeCmd, h1, h2, h3]

/-! ## The pixel format of a header (R112, R113) -/

/-- The upper byte of a selector. -/
@[simp] theorem extract_upper_append (c d : Byte) : (c ++ d).extractLsb' 8 8 = c := by
  ext i hi
  rw [BitVec.getElem_extractLsb', BitVec.getLsbD_append, if_neg (by omega)]
  simp [BitVec.getLsbD_eq_getElem, hi]

/-- The lower byte of a selector. -/
@[simp] theorem extract_lower_append (c d : Byte) : (c ++ d).extractLsb' 0 8 = d := by
  ext i hi
  rw [BitVec.getElem_extractLsb', BitVec.getLsbD_append, if_pos (by omega)]
  simp [BitVec.getLsbD_eq_getElem, hi]

/-- Two selectors are equal exactly when both their bytes are. -/
theorem formatSelector_eq {c d c' d' : Byte} : formatSelector c d = c' ++ d' ↔ c = c' ∧ d = d' := by
  refine ⟨fun h => ⟨?_, ?_⟩, fun ⟨h1, h2⟩ => by rw [formatSelector, h1, h2]⟩
  · simpa [formatSelector] using congrArg (fun v : Half => v.extractLsb' 8 8) h
  · simpa [formatSelector] using congrArg (fun v : Half => v.extractLsb' 0 8) h

/-- The PIXFMT decoder on a selector, read as the pair it stands for (R81). -/
theorem decodePixfmt_formatSelector (c d : Byte) :
    decodePixfmt (formatSelector c d) =
      if c = 0#8 ∧ d = 8#8 then .gray8 else if c = 0#8 ∧ d = 16#8 then .gray16
      else if c = 2#8 ∧ d = 8#8 then .rgb8 else if c = 2#8 ∧ d = 16#8 then .rgb16
      else if c = 3#8 ∧ d = 8#8 then .indexed8
      else if c = 4#8 ∧ d = 8#8 then .grayA8 else if c = 4#8 ∧ d = 16#8 then .grayA16
      else if c = 6#8 ∧ d = 8#8 then .rgba8 else if c = 6#8 ∧ d = 16#8 then .rgba16
      else .unsupportedPixfmt c d := by
  have e1 : formatSelector c d = 0x0008#16 ↔ c = 0#8 ∧ d = 8#8 := formatSelector_eq (c' := 0#8) (d' := 8#8)
  have e2 : formatSelector c d = 0x0010#16 ↔ c = 0#8 ∧ d = 16#8 := formatSelector_eq (c' := 0#8) (d' := 16#8)
  have e3 : formatSelector c d = 0x0208#16 ↔ c = 2#8 ∧ d = 8#8 := formatSelector_eq (c' := 2#8) (d' := 8#8)
  have e4 : formatSelector c d = 0x0210#16 ↔ c = 2#8 ∧ d = 16#8 := formatSelector_eq (c' := 2#8) (d' := 16#8)
  have e5 : formatSelector c d = 0x0308#16 ↔ c = 3#8 ∧ d = 8#8 := formatSelector_eq (c' := 3#8) (d' := 8#8)
  have e6 : formatSelector c d = 0x0408#16 ↔ c = 4#8 ∧ d = 8#8 := formatSelector_eq (c' := 4#8) (d' := 8#8)
  have e7 : formatSelector c d = 0x0410#16 ↔ c = 4#8 ∧ d = 16#8 := formatSelector_eq (c' := 4#8) (d' := 16#8)
  have e8 : formatSelector c d = 0x0608#16 ↔ c = 6#8 ∧ d = 8#8 := formatSelector_eq (c' := 6#8) (d' := 8#8)
  have e9 : formatSelector c d = 0x0610#16 ↔ c = 6#8 ∧ d = 16#8 := formatSelector_eq (c' := 6#8) (d' := 16#8)
  simp only [decodePixfmt, e1, e2, e3, e4, e5, e6, e7, e8, e9]
  simp only [formatSelector, extract_upper_append, extract_lower_append]

/-- The PIXFMT decoder accepts exactly the nine pairs of R112. -/
theorem formatSupported_eq (c d : Byte) : formatSupported c d = supportedPair c d := by
  unfold formatSupported
  rw [decodePixfmt_formatSelector]
  by_cases hd8 : d = 8#8
  · subst hd8
    by_cases h0 : c = 0#8; · subst h0; rfl
    by_cases h2 : c = 2#8; · subst h2; rfl
    by_cases h3 : c = 3#8; · subst h3; rfl
    by_cases h4 : c = 4#8; · subst h4; rfl
    by_cases h6 : c = 6#8; · subst h6; rfl
    simp [supportedPair, h0, h2, h3, h4, h6]
  by_cases hd16 : d = 16#8
  · subst hd16
    by_cases h0 : c = 0#8; · subst h0; rfl
    by_cases h2 : c = 2#8; · subst h2; rfl
    by_cases h3 : c = 3#8; · subst h3; rfl
    by_cases h4 : c = 4#8; · subst h4; rfl
    by_cases h6 : c = 6#8; · subst h6; rfl
    simp [supportedPair, h0, h2, h3, h4, h6]
  · simp [supportedPair, hd8, hd16]

/-- A supported pair has at least one byte per pixel (R113). -/
theorem bytesPerPixel_pos {c d : Byte} (h : formatSupported c d = true) : 1 ≤ (bytesPerPixel c d).toNat := by
  rw [formatSupported_eq] at h
  simp only [supportedPair, Bool.and_eq_true, Bool.or_eq_true, beq_iff_eq] at h
  obtain ⟨⟨hd | hd, (((hc | hc) | hc) | hc) | hc⟩, _⟩ := h <;> subst hd <;> subst hc <;> decide

/-! ## The stages of SETUP -/

theorem keepsOutsideSetup_cmd {s u : State} (h : KeepsOutsideSetup s u) : u.cmd = s.cmd := by rw [h.1]

theorem keepsOutsideSetup_loadHeader (s : State) : KeepsOutsideSetup s (loadHeader s) := ⟨rfl, rfl⟩
theorem keepsOutsideSetup_loadBpp (s : State) : KeepsOutsideSetup s (loadBpp s) := ⟨rfl, rfl⟩
theorem keepsOutsideSetup_loadDimensions (s : State) : KeepsOutsideSetup s (loadDimensions s) := ⟨rfl, rfl⟩
theorem keepsOutsideSetup_walkInit (s : State) : KeepsOutsideSetup s (walkInit s) := ⟨rfl, rfl⟩
theorem keepsOutsideSetup_loadOutput (s : State) : KeepsOutsideSetup s (loadOutput s) := ⟨rfl, rfl⟩

/-- R106 and R107 change nothing. -/
theorem windowCheck_ends (s : State) :
    (windowCheck s).Ends (fun _ u => u = s) (fun u => u = s ∧ s.cmd.base.toNat + s.cmd.len.toNat ≤ 2 ^ 32) :=
  failIf_ends _ _ _ (fun _ => rfl) fun h => ⟨rfl, by simpa using h⟩

theorem signatureGate_ends (s : State) : (signatureGate s).Ends (fun _ u => u = s) (fun u => u = s) := by
  refine Work.Ends.andThen (Q := fun u => u = s) (failIf_ends _ _ _ (fun _ => rfl) fun _ => rfl) ?_
  rintro _ rfl
  exact failIf_ends _ _ _ (fun _ => rfl) fun _ => rfl

/-- What a DECODE knows of its header once SETUP has accepted it (R112, R113). -/
def State.HeaderReady (s : State) : Prop :=
  (1 ≤ s.hdr.w.toNat ∧ s.hdr.w.toNat < 2 ^ 31) ∧ s.hdr.h.toNat < 2 ^ 31 ∧ 1 ≤ s.hdr.bpp.toNat

theorem ihdrFirst_ends (op : CmdOp) (len : Word) (s : State) :
    (ihdrFirst op len s).Ends (fun _ u => KeepsOutsideSetup s u)
      (fun u => KeepsOutsideSetup s u ∧ (op = .info → u = s) ∧ (op = .decode → u.HeaderReady)) := by
  refine Work.Ends.andThen (Q := fun u => u = s) (failIf_ends _ _ _ (fun _ => .refl s) fun _ => rfl) ?_
  rintro _ rfl
  rename_i s
  refine Work.Ends.andThen (Q := fun u => u = s) (failIf_ends _ _ _ (fun _ => .refl s) fun _ => rfl) ?_
  rintro _ rfl
  rename_i s
  cases op with
  | info => exact ⟨.refl s, fun _ => rfl, fun h => nomatch h⟩
  | decode =>
    refine Work.Ends.andThen (Q := fun u => u = loadHeader s ∧ headerBad (loadHeader s) = false)
      (failIf_ends _ _ _ (fun _ => keepsOutsideSetup_loadHeader s) fun h => ⟨rfl, h⟩) ?_
    rintro _ ⟨rfl, hb⟩
    refine ⟨(keepsOutsideSetup_loadHeader s).trans (keepsOutsideSetup_loadBpp _), (fun h => nomatch h), fun _ => ?_⟩
    simp only [headerBad, Bool.or_eq_false_iff, beq_eq_false_iff_ne, ne_eq, Bool.not_eq_false', decide_eq_false_iff_not] at hb
    obtain ⟨⟨⟨⟨⟨⟨⟨hw, _⟩, hw2⟩, hh2⟩, hf⟩, _⟩, _⟩, _⟩ := hb
    refine ⟨⟨?_, Nat.lt_of_not_le hw2⟩, Nat.lt_of_not_le hh2, bytesPerPixel_pos hf⟩
    have : (loadHeader s).hdr.w.toNat ≠ 0 := fun h => hw (BitVec.eq_of_toNat_eq (by simpa using h))
    exact Nat.one_le_iff_ne_zero.2 this

theorem firstChunk_ends (op : CmdOp) (s : State) :
    (firstChunk op s).Ends (fun _ u => KeepsOutsideSetup s u)
      (fun u => KeepsOutsideSetup s u ∧ (op = .info → u = s) ∧ (op = .decode → u.HeaderReady)) := by
  refine Work.Ends.andThen (Q := fun u => u = s) (failIf_ends _ _ _ (fun _ => .refl s) fun _ => rfl) ?_
  rintro _ rfl
  rename_i s
  split
  · exact ihdrFirst_ends _ _ s
  · exact KeepsOutsideSetup.refl s

/-- Everything INFO's SETUP step can do: fail with nothing loaded, or load WIDTH and HEIGHT and succeed (R109). -/
theorem setupInfo_settle (s : State) :
    (∃ c, (setupInfo s).settle = raiseFatal c s) ∨ (setupInfo s).settle = finishOk (loadDimensions s) := by
  have h : (setupInfo s).Ends (fun _ u => u = s) (fun u => u = finishOk (loadDimensions s)) := by
    refine Work.Ends.andThen (windowCheck_ends s) fun s1 h1 => ?_
    rw [h1.1]
    refine Work.Ends.andThen (signatureGate_ends s) fun s2 h2 => ?_
    rw [h2]
    refine Work.Ends.andThen (Q := fun u => u = s) ?_ (fun _ h => by rw [h]; exact rfl)
    refine Work.Ends.andThen (Q := fun u => u = s) (failIf_ends _ _ _ (fun _ => rfl) fun _ => rfl) fun s3 h3 => ?_
    rw [h3]
    split
    · refine Work.Ends.andThen (Q := fun u => u = s) (failIf_ends _ _ _ (fun _ => rfl) fun _ => rfl) fun s4 h4 => ?_
      rw [h4]
      refine Work.Ends.andThen (Q := fun u => u = s) (failIf_ends _ _ _ (fun _ => rfl) fun _ => rfl) fun s5 h5 => ?_
      exact h5
    · rfl
  cases hr : setupInfo s with
  | ok u => rw [hr] at h; exact .inr h
  | fail c u => rw [hr] at h; exact .inl ⟨c, by rw [Work.settle_fail, show u = s from h]⟩

/-- DECODE's checks before the walk (R106 to R113). -/
theorem setupHeader_ends (s : State) :
    (setupHeader s).Ends (fun _ u => KeepsOutsideSetup s u)
      (fun u => KeepsOutsideSetup s u ∧ s.cmd.base.toNat + s.cmd.len.toNat ≤ 2 ^ 32 ∧ validScale s.cmd.scale = true
        ∧ u.HeaderReady) := by
  have same : ∀ (_ : Cause) (u : State), u = s → KeepsOutsideSetup s u := fun _ u h => by rw [h]; exact .refl s
  refine Work.Ends.andThen ((windowCheck_ends s).mono same fun _ h => h) fun s1 h1 => ?_
  rw [h1.1]
  refine Work.Ends.andThen (Q := fun u => u = s ∧ validScale s.cmd.scale = true)
    (failIf_ends _ _ _ (fun _ => .refl s) fun h => ⟨rfl, by simpa using h⟩) fun s2 h2 => ?_
  rw [h2.1]
  refine Work.Ends.andThen ((signatureGate_ends s).mono same fun _ h => h) fun s3 h3 => ?_
  rw [h3]
  exact (firstChunk_ends .decode s).mono (fun _ _ h => h) fun u h => ⟨h.1, h1.2, h2.2, h.2.2 rfl⟩

/-- The three valid scales, one by one (R110). -/
theorem validScale_cases {scale : Byte} (h : validScale scale = true) : scale = 1#8 ∨ scale = 2#8 ∨ scale = 4#8 := by
  simpa [validScale, or_assoc] using h

/-- R124's dimensions are the quotients by the scale, at scale 1 too. -/
theorem outDim_eq {scale : Byte} {n : Nat} (h : n < 2 ^ 31) :
    (BitVec.ofNat 31 (if scale = 1#8 then n else n / scale.toNat)).toNat = n / scale.toNat := by
  have hq : n / scale.toNat ≤ n := Nat.div_le_self _ _
  by_cases hs : scale = 1#8
  · subst hs; simpa using h
  · rw [if_neg hs, BitVec.toNat_ofNat, Nat.mod_eq_of_lt (by omega)]

/-- What DECODE has established when SETUP hands over to the engine (R54, R110, R112, R113, R117, R123 to R125). -/
structure State.ReadyToStream (s : State) : Prop where
  window : s.cmd.base.toNat + s.cmd.len.toNat ≤ 2 ^ 32
  idx : s.IdxInv
  some_idat : 1 ≤ s.tab.idx.length
  scale : s.cmd.scale = 1#8 ∨ s.cmd.scale = 2#8 ∨ s.cmd.scale = 4#8
  bpp : 1 ≤ s.hdr.bpp.toNat
  outW : s.hdr.outW.toNat = s.hdr.w.toNat / s.cmd.scale.toNat
  outH : s.hdr.outH.toNat = s.hdr.h.toNat / s.cmd.scale.toNat
  stride : s.hdr.stride = s.hdr.w.toNat * s.hdr.bpp.toNat
  stride_pos : 1 ≤ s.hdr.stride
  stride_le : s.hdr.stride ≤ Config.maxStride

theorem chunkWalk_ends (s : State) :
    (chunkWalk s).Ends (fun _ u => KeepsOutsideSetup s u)
      (fun u => KeepsOutsideSetup s u ∧ u.hdr = s.hdr ∧ u.IdxInv ∧ 1 ≤ u.tab.idx.length) := by
  have h := walk_law (walkFuel s) (walkInit s)
  have hk : KeepsOutsideSetup s (walk (walkFuel s) (walkInit s)) := (keepsOutsideSetup_walkInit s).trans h.1.setup
  have hh : (walk (walkFuel s) (walkInit s)).hdr = s.hdr := by rw [h.1]; rfl
  have hi : (walk (walkFuel s) (walkInit s)).IdxInv := h.2 ⟨fun e he => (nomatch he), Nat.zero_le _⟩
  unfold chunkWalk walkEnd
  generalize walk (walkFuel s) (walkInit s) = u at h hk hh hi
  refine failIf_ends _ _ _ (fun _ => hk.trans ⟨rfl, rfl⟩) fun hn => ⟨hk.trans ⟨rfl, rfl⟩, hh, hi, ?_⟩
  have : u.tab.idx.length ≠ 0 := by simpa [State.nIdat] using hn
  exact Nat.one_le_iff_ne_zero.2 this

/-- Everything DECODE's SETUP step can do: fail, or reach the first request ready to stream (R97). -/
theorem setupDecode_settle (s : State) :
    (∃ c u, KeepsOutsideSetup s u ∧ (setupDecode s).settle = raiseFatal c u)
      ∨ ∃ u, KeepsOutsideSetup s u ∧ u.ReadyToStream ∧ (setupDecode s).settle = issueRequest (driverInit u) := by
  have h : (setupDecode s).Ends (fun _ u => KeepsOutsideSetup s u)
      (fun t => ∃ u, KeepsOutsideSetup s u ∧ u.ReadyToStream ∧ t = issueRequest (driverInit u)) := by
    refine Work.Ends.andThen (setupHeader_ends s) ?_
    rintro a ⟨ka, hwin, hscale, hready⟩
    refine Work.Ends.andThen ((chunkWalk_ends a).mono (fun _ _ h => ka.trans h) fun _ h => h) ?_
    rintro b ⟨kb, hb, hidx, hsome⟩
    have kb' := ka.trans kb
    refine Work.Ends.andThen (Q := fun u => u = loadOutput b)
      (failIf_ends _ _ _ (fun _ => kb'.trans (keepsOutsideSetup_loadOutput b)) fun _ => rfl) ?_
    rintro _ rfl
    refine Work.Ends.andThen (Q := fun t => ∃ u, KeepsOutsideSetup s u ∧ u.ReadyToStream ∧ t = u) ?_ ?_
    · have kc := kb'.trans (keepsOutsideSetup_loadOutput b)
      have hcmd := keepsOutsideSetup_cmd kc
      refine Work.Ends.andThen (Q := fun u => u = loadOutput b ∧ (loadOutput b).strideOf ≤ Config.maxStride)
        (failIf_ends _ _ _ (fun _ => kc) fun h => ⟨rfl, by simpa using h⟩) ?_
      rintro _ ⟨rfl, hs⟩
      refine ⟨_, ?_, ?_, rfl⟩
      · exact kc.trans ⟨rfl, rfl⟩
      have hcmdb : b.cmd = s.cmd := keepsOutsideSetup_cmd kb'
      refine ⟨?_, ?_, hsome, ?_, ?_, ?_, ?_, rfl, ?_, ?_⟩
      · change (loadOutput b).cmd.base.toNat + (loadOutput b).cmd.len.toNat ≤ _
        rw [hcmd]
        exact hwin
      · exact hidx
      · change b.cmd.scale = 1#8 ∨ b.cmd.scale = 2#8 ∨ b.cmd.scale = 4#8
        rw [hcmdb]
        exact validScale_cases hscale
      · change 1 ≤ b.hdr.bpp.toNat
        rw [hb]
        exact hready.2.2
      · exact outDim_eq (by rw [hb]; exact hready.1.2)
      · exact outDim_eq (by rw [hb]; exact hready.2.1)
      · change 1 ≤ b.hdr.w.toNat * b.hdr.bpp.toNat
        rw [hb]
        exact Nat.mul_pos hready.1.1 hready.2.2
      · exact hs
    · rintro _ ⟨u, hu, hr, rfl⟩
      exact ⟨_, hu, hr, rfl⟩
  cases hr : setupDecode s with
  | ok u => rw [hr] at h; exact .inr h
  | fail c u => rw [hr] at h; exact .inl ⟨c, u, h, rfl⟩

/-- Everything the SETUP step of the latched command can do (R96, R97). -/
theorem exec_latched_effect {s t : State} (h : exec (decodeCmd s.cmd.word) s = .next t) :
    (∃ c res, res.rows = s.res.rows ∧ t = raiseFatal c { s with res := res })
      ∨ (∃ res, res.rows = s.res.rows ∧ t = finishOk { s with res := res })
      ∨ ∃ u, KeepsOutsideSetup s u ∧ u.ReadyToStream ∧ t = issueRequest (driverInit u) := by
  have he : ∀ c : Latched, c = s.cmd → { s with cmd := c } = s := fun c hc => by rw [hc]
  rw [decodeCmd_latched] at h
  cases ho : s.cmd.op with
  | info =>
    rw [if_pos ho] at h
    have ht := Host.Outcome.next.inj h
    rw [he _ (by rw [← ho])] at ht
    rcases setupInfo_settle s with ⟨c, hc⟩ | hok
    · exact .inl ⟨c, s.res, rfl, by rw [← ht, hc]⟩
    · exact .inr (.inl ⟨(loadDimensions s).res, rfl, by rw [← ht, hok]; rfl⟩)
  | decode =>
    rw [if_neg (by rw [ho]; decide)] at h
    have ht := Host.Outcome.next.inj h
    rw [he _ (by rw [← ho])] at ht
    rcases setupDecode_settle s with ⟨c, u, hu, hc⟩ | ⟨u, hu, hr, hok⟩
    · exact .inl ⟨c, u.res, hu.2, by rw [← ht, hc, hu.1]; rfl⟩
    · exact .inr (.inr ⟨u, hu, hr, by rw [← ht, hok]⟩)

end Sys2Proof.Machine
end

