-- ==== Sys2Proof/Laws/Decode.lean ====
section
/-! SUPPORT. The decoder and the encoder, field by field: the extraction of a bit field as arithmetic, the reserved command
words, the offsets of the register window, and the halves of a pixel format selector (R70, R71, R81, R89). -/

namespace Sys2Proof.Machine

/-! ## Bit fields as numbers -/

theorem bitvec_eq_iff_toNat {n : Nat} (a b : BitVec n) : a = b ↔ a.toNat = b.toNat :=
  ⟨fun h => by rw [h], BitVec.eq_of_toNat_eq⟩

theorem toNat_field {n : Nat} (w : BitVec n) (start len : Nat) :
    (w.extractLsb' start len).toNat = w.toNat / 2 ^ start % 2 ^ len := by
  simp [BitVec.extractLsb'_toNat, Nat.shiftRight_eq_div_pow]

theorem toNat_append_add {m n : Nat} (x : BitVec m) (y : BitVec n) : (x ++ y).toNat = x.toNat * 2 ^ n + y.toNat := by
  rw [BitVec.toNat_append, ← Nat.shiftLeft_add_eq_or_of_lt y.isLt, Nat.shiftLeft_eq]

/-- Big-endian words are equal exactly when their four bytes are. -/
theorem be32_eq_iff (a b c d a' b' c' d' : Byte) :
    ((a ++ b) ++ (c ++ d) : Word) = (a' ++ b') ++ (c' ++ d') ↔ a = a' ∧ b = b' ∧ c = c' ∧ d = d' := by
  have := a.isLt; have := b.isLt; have := c.isLt; have := d.isLt
  have := a'.isLt; have := b'.isLt; have := c'.isLt; have := d'.isLt
  simp only [bitvec_eq_iff_toNat, toNat_append_add]
  omega

/-! ## Command words (R70, R71) -/

/-- The words R71 lists are those that are neither INFO nor DECODE. -/
theorem reservedWord_iff (w : Word) :
    reservedWord w = true ↔ ¬(w = 1#32 ∨ (w.extractLsb' 0 8 = 2#8 ∧ w.extractLsb' 16 16 = 0#16)) := by
  have := w.isLt
  simp only [reservedWord, Bool.or_eq_true, Bool.and_eq_true, bne_iff_ne, beq_iff_eq, ne_eq, bitvec_eq_iff_toNat,
    toNat_field, BitVec.toNat_ofNat]
  omega

theorem decodeCmd_reserved {w : Word} (h : reservedWord w = true) : decodeCmd w = .reservedCmd w := by
  rw [reservedWord_iff] at h
  unfold decodeCmd
  rw [if_neg (fun e => h (.inl e)), if_neg (fun e => h (.inr e))]

/-! ## The register window (R59, R89, R104) -/

/-- One test of a chain of offsets. -/
theorem chain_ind {p : Prop} [Decidable p] {x i : Instr} {o : Option Instr} {P : Instr → Prop}
    (h : (if p then some x else o) = some i) (hx : p → P x) (rest : o = some i → P i) : P i := by
  by_cases hp : p
  · rw [if_pos hp] at h; cases h; exact hx hp
  · rw [if_neg hp] at h; exact rest h

/-- `i` is the row of access `a` to a register at offset `o`: aligned and below 0x44. -/
def RowOf (a : Access) (o : BitVec 12) (i : Instr) : Prop :=
  encode i = .reg a ∧ i.wf = true ∧ o.extractLsb' 0 2 = 0#2 ∧ o < 0x44#12

theorem readRow?_spec {o : BitVec 12} {i : Instr} (h : readRow? o = some i) : RowOf (.read o .word) o i := by
  unfold readRow? at h
  iterate 17 refine chain_ind h (fun e => by subst e; exact ⟨rfl, rfl, rfl, by decide⟩) fun h => ?_
  cases h

theorem writeRow?_spec {o : BitVec 12} {v : Word} {i : Instr} (h : writeRow? o v = some i) :
    RowOf (.write o .word v) o i := by
  unfold writeRow? at h
  iterate 17 refine chain_ind h (fun e => by subst e; exact ⟨rfl, rfl, rfl, by decide⟩) fun h => ?_
  cases h

/-- An aligned offset below 0x44 is four times a number below 17. -/
theorem offset_cases {o : BitVec 12} (h : reservedAccess (.read o .word) = false) :
    ∃ k, k < 17 ∧ o = BitVec.ofNat 12 (4 * k) := by
  simp [reservedAccess, BitVec.not_le] at h
  obtain ⟨h1, h2⟩ := h
  rw [bitvec_eq_iff_toNat, toNat_field] at h1
  rw [BitVec.lt_def] at h2
  simp at h1 h2
  exact ⟨o.toNat / 4, by omega, by rw [bitvec_eq_iff_toNat]; simp; omega⟩

/-- An offset without a read row is reserved. -/
theorem readRow?_none {o : BitVec 12} (h : readRow? o = none) : reservedAccess (.read o .word) = true := by
  by_contra hc
  obtain ⟨k, hk, rfl⟩ := offset_cases (by simpa using hc)
  revert h
  clear hc
  interval_cases k <;> simp [readRow?]

/-- An offset without a write row is reserved. -/
theorem writeRow?_none {o : BitVec 12} {v : Word} (h : writeRow? o v = none) : reservedAccess (.read o .word) = true := by
  by_contra hc
  obtain ⟨k, hk, rfl⟩ := offset_cases (by simpa using hc)
  revert h
  clear hc
  interval_cases k <;> simp [writeRow?]

/-! ## Pixel format selectors (R81) -/

/-- A selector is its two bytes. -/
theorem selector_split (sel : Half) : sel = formatSelector (sel.extractLsb' 8 8) (sel.extractLsb' 0 8) := by
  have := sel.isLt
  unfold formatSelector
  rw [bitvec_eq_iff_toNat, toNat_append_add, toNat_field, toNat_field]
  omega

/-- The packed FMT register, the new fields in their places (R28). -/
theorem fmt_fields (f : Word) (b : BitVec 4) (c d : Byte) :
    fmtSetBpp (fmtSetFormat f c d) b = f.extractLsb' 20 12 ++ b ++ c ++ d := by
  have := c.isLt; have := d.isLt; have := b.isLt; have := f.isLt
  rw [bitvec_eq_iff_toNat]
  simp only [fmtSetBpp, fmtSetFormat, toNat_append_add, toNat_field]
  omega

end Sys2Proof.Machine
end

