-- ==== Sys2Proof/Laws/Filters.lean ====
section
/-! SUPPORT. One span byte and the end of a row: every way they can leave the state (R137, R141 to R170). -/

namespace Sys2Proof.Machine

/-! ## The pixel pipeline -/

/-- The end of a row (R153): a direct row, a block row's end, or a row that is only added. -/
inductive RowEndEffect (s : State) : State → Prop where
  | direct (ex : Extract) (h : s.scale = 1) :
      RowEndEffect s (presentRow (swapLines { s with pix := { s.pix with out := s.pix.out.load (directWords ex s) } }))
  | means (ex : Extract) (h : s.scale ≠ 1) (hb : blockRowEnds s = true) :
      RowEndEffect s (presentRow (swapLines { s with pix := emitMeans (accumulated ex s) s }))
  | added (ex : Extract) (h : s.scale ≠ 1) (hb : blockRowEnds s = false) :
      RowEndEffect s (swapLines { s with pix := { s.pix with acc := accumulated ex s } })

theorem rowEnd_effect (ex : Extract) (s : State) : RowEndEffect s (rowEnd ex s) := by
  unfold rowEnd rowDispatch
  by_cases h : s.scale = 1
  · simp only [h, if_true]; exact .direct ex h
  · cases hb : blockRowEnds s with
    | true => simp only [h, if_false, if_true]; exact .means ex h hb
    | false => simp only [h, if_false, Bool.false_eq_true]; exact .added ex h hb

/-- A pixel format that is one of the nine ends the row; any other fails (R112). -/
theorem formatRowEnd_effect (s : State) : RowEndEffect s (formatRowEnd s) ∨ formatRowEnd s = raiseFatal .unsupportedIhdr s := by
  unfold formatRowEnd
  split
  iterate 9 exact .inl (rowEnd_effect _ s)
  exact .inr rfl

/-! ## One span byte -/

/-- Everything a span byte can do. -/
inductive SpanByteEffect (s : State) : State → Prop where
  | failed (c : Cause) (hc : c = .badFilter ∨ c = .unsupportedIhdr) : SpanByteEffect s (raiseFatal c s)
  | latched (f : BitVec 3) (hf : f.toNat ≤ 4) (hz : s.line.slPos = 0) : SpanByteEffect s (latchFilter f (takeSpanByte s))
  | data (pred : Predictor) (v : Byte) (hz : s.line.slPos ≠ 0)
      (hl : (storeDataByte pred v (takeSpanByte s)).line.slPos ≠ s.hdr.stride + 1) :
      SpanByteEffect s (storeDataByte pred v (takeSpanByte s))
  | rowEnd (pred : Predictor) (v : Byte) (t : State) (hz : s.line.slPos ≠ 0)
      (h : RowEndEffect (storeDataByte pred v (takeSpanByte s)) t) : SpanByteEffect s t

theorem filterStep_effect (f : BitVec 3) (hf : f.toNat ≤ 4) (pred : Predictor) (s : State) :
    SpanByteEffect s (filterStep f pred s) := by
  unfold filterStep
  split
  · next hz => exact .latched f hf hz
  · next hz =>
    unfold dataByte
    split
    · rcases formatRowEnd_effect (storeDataByte pred s.spanByte (takeSpanByte s)) with he | he
      · exact .rowEnd pred s.spanByte _ hz he
      · rw [he]; exact .failed .unsupportedIhdr (.inr rfl)
    · next hl => exact .data pred s.spanByte hz hl

/-- A decoded filter byte is a filter or a bad filter. -/
theorem exec_decodeFilt_effect {v : Byte} {s t : State} (h : exec (decodeFilt v) s = .next t) : SpanByteEffect s t := by
  unfold decodeFilt at h
  split at h
  · cases h; exact filterStep_effect _ (by decide) _ s
  split at h
  · cases h; exact filterStep_effect _ (by decide) _ s
  split at h
  · cases h; exact filterStep_effect _ (by decide) _ s
  split at h
  · cases h; exact filterStep_effect _ (by decide) _ s
  split at h
  · cases h; exact filterStep_effect _ (by decide) _ s
  · cases h; exact .failed .badFilter (.inl rfl)

end Sys2Proof.Machine
end

