-- ==== Sys2Proof/Laws/Inflate.lean ====
section
/-! SUPPORT. The inflate driver: every way a response check and the end of a span can leave the state (R127 to R140). -/

namespace Sys2Proof.Machine

/-- A decoded status is one of the four rows. -/
theorem decodeIstat_cases (st : BitVec 2) :
    decodeIstat st = .needMoreInput ∨ decodeIstat st = .hasMoreOutput ∨ decodeIstat st = .streamDone
      ∨ decodeIstat st = .streamError := by
  revert st
  decide

/-- The check of a fresh response: a failure, or the response taken, its counts in bounds (R134). -/
theorem exec_decodeIstat_fresh {st : BitVec 2} {s t : State} (hf : s.drv.fresh = true)
    (h : exec (decodeIstat st) s = .next t) :
    (∃ c, t = raiseFatal c s) ∨ (s.outOfBounds = false ∧ t = takeResponse s) := by
  have hc : ∀ t, t = (responseCheck s).settle → (∃ c, t = raiseFatal c s) ∨ (s.outOfBounds = false ∧ t = takeResponse s) := by
    intro t ht
    cases hb : s.outOfBounds with
    | true => rw [responseCheck, failIf_true _ _ hb] at ht; exact .inl ⟨_, ht⟩
    | false => rw [responseCheck, failIf_false _ _ hb] at ht; exact .inr ⟨rfl, ht⟩
  rcases decodeIstat_cases st with hd | hd | hd | hd <;> rw [hd] at h
  · simp only [exec, execNeedMoreInput, hf, if_true] at h
    exact hc t (Host.Outcome.next.inj h).symm
  · simp only [exec, execHasMoreOutput, hf, if_true] at h
    exact hc t (Host.Outcome.next.inj h).symm
  · simp only [exec, execStreamDone, hf, if_true] at h
    exact hc t (Host.Outcome.next.inj h).symm
  · simp only [exec, execStreamError, responseError] at h
    cases hb : s.outOfBounds with
    | true => rw [failIf_true _ _ hb] at h; exact .inl ⟨_, (Host.Outcome.next.inj h).symm⟩
    | false => rw [failIf_false _ _ hb] at h; exact .inl ⟨_, (Host.Outcome.next.inj h).symm⟩

/-- The end of a span: a failure, or the next request (R140). -/
theorem exec_decodeIstat_spanEnd {st : BitVec 2} {s t : State} (hf : s.drv.fresh = false)
    (h : exec (decodeIstat st) s = .next t) :
    (∃ c, t = raiseFatal c s) ∨ t = issueRequest (advanceIdat s) := by
  have ha : ∀ c, raiseFatal c (advanceIdat s) = raiseFatal c s := by
    intro c
    unfold advanceIdat
    split <;> rfl
  have hn : ∀ t, t = (nextOrStalled (advanceIdat s)).settle →
      (∃ c, t = raiseFatal c s) ∨ t = issueRequest (advanceIdat s) := by
    intro t ht
    cases hb : ((advanceIdat s).drv.resp.consumed == 0#32 && (advanceIdat s).drv.resp.written == 0#16) with
    | true => rw [nextOrStalled, failIf_true _ _ hb] at ht; exact .inl ⟨_, ht.trans (ha _)⟩
    | false => rw [nextOrStalled, failIf_false _ _ hb] at ht; exact .inr ht
  rcases decodeIstat_cases st with hd | hd | hd | hd <;> rw [hd] at h
  · simp only [exec, execNeedMoreInput, hf, Bool.false_eq_true, if_false, spanEndNeedMore] at h
    cases hb : (!(advanceIdat s).hasMore) with
    | true => rw [failIf_true _ _ hb] at h; exact .inl ⟨_, (Host.Outcome.next.inj h).symm.trans (ha _)⟩
    | false => rw [failIf_false _ _ hb] at h; exact hn t (Host.Outcome.next.inj h).symm
  · simp only [exec, execHasMoreOutput, hf, Bool.false_eq_true, if_false] at h
    exact hn t (Host.Outcome.next.inj h).symm
  · simp only [exec, execStreamDone, hf, Bool.false_eq_true, if_false, spanEndDone] at h
    exact .inl ⟨_, (Host.Outcome.next.inj h).symm.trans (ha _)⟩
  · simp only [exec, execStreamError, responseError] at h
    cases hb : s.outOfBounds with
    | true => rw [failIf_true _ _ hb] at h; exact .inl ⟨_, (Host.Outcome.next.inj h).symm⟩
    | false => rw [failIf_false _ _ hb] at h; exact .inl ⟨_, (Host.Outcome.next.inj h).symm⟩

/-! ## The cursor -/

/-- A cursor (ci, ofs) inside its entry. -/
def CursorIn (idx : List IdatEntry) (at_ : Half × Word) : Prop :=
  at_.1.toNat < idx.length ∧ at_.2.toNat ≤ (idx.getD at_.1.toNat ⟨0#32, 0#32⟩).len.toNat

/-- Moving to the next entry of an index no longer than the cap. -/
theorem toNat_succ_ci {idx : List IdatEntry} {ci : Half} (hcap : idx.length ≤ Config.idatCap) (h : ci.toNat + 1 < idx.length) :
    (ci + 1#16).toNat = ci.toNat + 1 := by
  have : idx.length ≤ 64 := hcap
  simp only [BitVec.toNat_add, BitVec.toNat_ofNat]
  omega

/-- R127 in closed form: the entry reached, what has been skipped, and that the entry reached has input left or is the last. -/
theorem skipEmpty_spec {idx : List IdatEntry} (hcap : idx.length ≤ Config.idatCap) (n : Nat) (ci : Half) (ofs : Word)
    (hn : idx.length ≤ ci.toNat + 1 + n) (h : ci.toNat < idx.length) :
    ∃ k : Nat, ci.toNat ≤ k ∧ k < idx.length
      ∧ skipEmpty idx n (ci, ofs) = (BitVec.ofNat 16 k, if k = ci.toNat then ofs else 0#32)
      ∧ (k + 1 < idx.length → 0 < (idx.getD k ⟨0#32, 0#32⟩).len.toNat - (if k = ci.toNat then ofs else 0#32).toNat)
      ∧ ∀ j, ci.toNat ≤ j → j < k →
          (idx.getD j ⟨0#32, 0#32⟩).len.toNat - (if j = ci.toNat then ofs.toNat else 0) = 0 := by
  induction n generalizing ci ofs with
  | zero => exact ⟨ci.toNat, Nat.le_refl _, h, by simp [skipEmpty], by omega, by omega⟩
  | succ n ih =>
    unfold skipEmpty
    split
    · next hs =>
      have e := toNat_succ_ci hcap hs.2
      obtain ⟨k, h1, h2, h3, h4, h5⟩ := ih (ci + 1#16) 0#32 (by omega) (by omega)
      rw [e] at h1 h3 h4 h5
      have hk : k ≠ ci.toNat := by omega
      refine ⟨k, by omega, h2, by rw [h3, if_neg hk]; simp, fun hl => by simpa [hk] using h4 hl, fun j hj1 hj2 => ?_⟩
      by_cases hj : j = ci.toNat
      · subst hj; simpa using hs.1
      · have := h5 j (by omega) hj2
        rw [if_neg hj]
        revert this
        split <;> simp
    · next hs =>
      refine ⟨ci.toNat, Nat.le_refl _, h, by simp, fun hk => ?_, by omega⟩
      simp only [if_true]
      exact Nat.pos_of_ne_zero fun h0 => hs ⟨h0, hk⟩

/-- R127 keeps the cursor inside its entry. -/
theorem skipEmpty_cursorIn (n : Nat) {idx : List IdatEntry} {at_ : Half × Word} (hcap : idx.length ≤ Config.idatCap)
    (h : CursorIn idx at_) : CursorIn idx (skipEmpty idx n at_) := by
  induction n generalizing at_ with
  | zero => exact h
  | succ n ih =>
    obtain ⟨ci, ofs⟩ := at_
    unfold skipEmpty
    split
    · next hs => exact ih ⟨by rw [toNat_succ_ci hcap hs.2]; exact hs.2, Nat.zero_le _⟩
    · exact h

/-- R139 keeps the cursor inside its entry. -/
theorem advanceIdat_cursorIn {s : State} (hcap : s.tab.idx.length ≤ Config.idatCap)
    (h : CursorIn s.tab.idx (s.drv.ci, s.drv.curOfs)) :
    CursorIn s.tab.idx ((advanceIdat s).drv.ci, (advanceIdat s).drv.curOfs) := by
  unfold advanceIdat
  split
  · next hs =>
    have hl : s.drv.ci.toNat + 1 < s.tab.idx.length := of_decide_eq_true hs.2
    exact ⟨by simp only [toNat_succ_ci hcap hl]; exact hl, Nat.zero_le _⟩
  · exact h

/-- R139 moves the cursor only. -/
theorem advanceIdat_eq (s : State) :
    advanceIdat s = { s with drv := { s.drv with ci := (advanceIdat s).drv.ci, curOfs := (advanceIdat s).drv.curOfs } } := by
  unfold advanceIdat
  split <;> rfl

/-- R127 to R129: the cursor as R127 leaves it, and the request for it. -/
theorem issueRequest_eq (s : State) :
    issueRequest s = { s with
      phase := .engine
      drv := { s.drv with
        ci := (skipEmptyIdats s).drv.ci
        curOfs := (skipEmptyIdats s).drv.curOfs
        first := false
        req := (skipEmptyIdats s).nextRequest } } := rfl

end Sys2Proof.Machine
end

