-- ==== Sys2Proof/Laws/Memory.lean ====
section
/-! SUPPORT. INPUT, `Dict` and the buffers: a read after a write, and the canonical form of INPUT (log 1, log 3, log 16). -/

namespace Sys2Proof.Machine

/-! ## INPUT -/

/-- Below its first listed address a canonical memory reads as blank. -/
theorem Memory.read_of_lt {m : Memory} {lo a : Nat} (h : Memory.wfFrom lo m = true) (ha : a < lo) :
    Memory.read m a = Memory.blank := by
  induction m generalizing lo with
  | nil => rfl
  | cons c m ih =>
    obtain ⟨k, b⟩ := c
    simp only [Memory.wfFrom, Bool.and_eq_true, decide_eq_true_eq] at h
    have hk : k ≠ a := by omega
    simp only [Memory.read, hk, if_false]
    exact ih h.2 (by omega)

/-- A write keeps the canonical form above any bound below its address. -/
theorem Memory.wfFrom_write {m : Memory} {lo a : Nat} {v : Byte} (h : Memory.wfFrom lo m = true) (hlo : lo ≤ a)
    (ha : a < 2 ^ 32) : Memory.wfFrom lo (Memory.write m a v) = true := by
  induction m generalizing lo with
  | nil =>
    unfold Memory.write
    split
    · rfl
    · simp_all [Memory.wfFrom]
  | cons c m ih =>
    obtain ⟨k, b⟩ := c
    simp only [Memory.wfFrom, Bool.and_eq_true, decide_eq_true_eq] at h
    obtain ⟨⟨⟨h1, h2⟩, h3⟩, h4⟩ := h
    have hmono : ∀ {lo' : Nat} {m' : Memory}, Memory.wfFrom (lo' + 1) m' = true → Memory.wfFrom lo' m' = true := by
      intro lo' m' hm
      cases m' with
      | nil => rfl
      | cons c' m' =>
        obtain ⟨k', b'⟩ := c'
        simp only [Memory.wfFrom, Bool.and_eq_true, decide_eq_true_eq] at hm ⊢
        exact ⟨⟨⟨by omega, hm.1.1.2⟩, hm.1.2⟩, hm.2⟩
    have hweak : ∀ (n : Nat) {lo' : Nat} {m' : Memory}, Memory.wfFrom (lo' + n) m' = true → Memory.wfFrom lo' m' = true := by
      intro n
      induction n with
      | zero => intro lo' m' hm; exact hm
      | succ n ihn => intro lo' m' hm; exact ihn (hmono hm)
    unfold Memory.write
    split
    · split
      · simp only [Memory.wfFrom, Bool.and_eq_true, decide_eq_true_eq]
        exact ⟨⟨⟨h1, h2⟩, h3⟩, h4⟩
      · simp only [Memory.wfFrom, Bool.and_eq_true, decide_eq_true_eq]
        exact ⟨⟨⟨hlo, ha⟩, by assumption⟩, ⟨⟨by omega, h2⟩, h3⟩, h4⟩
    · split
      · next _ hak =>
        subst hak
        split
        · exact hweak (a + 1 - lo) (by rw [show lo + (a + 1 - lo) = a + 1 by omega]; exact h4)
        · simp only [Memory.wfFrom, Bool.and_eq_true, decide_eq_true_eq]
          exact ⟨⟨⟨hlo, ha⟩, by assumption⟩, h4⟩
      · simp only [Memory.wfFrom, Bool.and_eq_true, decide_eq_true_eq]
        exact ⟨⟨⟨h1, h2⟩, h3⟩, ih h4 (by omega)⟩

/-- Every write inside INPUT keeps the canonical form. -/
theorem Memory.wf_write {m : Memory} (h : Memory.wf m = true) (addr : Word) (v : Byte) :
    Memory.wf (Memory.write m addr.toNat v) = true :=
  Memory.wfFrom_write h (Nat.zero_le _) addr.isLt

/-- Loading bytes below the top of INPUT keeps the canonical form. -/
theorem Memory.wf_load {bs : List Byte} {m : Memory} (h : Memory.wf m = true) (a : Nat) (ha : a + bs.length ≤ 2 ^ 32) :
    Memory.wf (Memory.load m a bs) = true := by
  induction bs generalizing m a with
  | nil => exact h
  | cons b bs ih =>
    simp only [List.length_cons] at ha
    exact ih (Memory.wfFrom_write h (Nat.zero_le _) (by omega)) (a + 1) (by omega)

/-- A read after a write in a canonical memory. -/
theorem Memory.read_write {m : Memory} {lo : Nat} (h : Memory.wfFrom lo m = true) (a : Nat) (v : Byte) (x : Nat) :
    Memory.read (Memory.write m a v) x = if x = a then v else Memory.read m x := by
  induction m generalizing lo with
  | nil =>
    unfold Memory.write
    by_cases hv : v = Memory.blank
    · simp [hv, Memory.read]
    · simp only [hv, if_false, Memory.read]
      by_cases hx : x = a
      · simp [hx]
      · simp [hx, Ne.symm hx]
  | cons c m ih =>
    obtain ⟨k, b⟩ := c
    simp only [Memory.wfFrom, Bool.and_eq_true, decide_eq_true_eq] at h
    have hblank : Memory.read m k = Memory.blank := Memory.read_of_lt h.2 (by omega)
    unfold Memory.write
    by_cases hak : a < k
    · simp only [hak, if_true]
      have ha : Memory.read m a = Memory.blank := Memory.read_of_lt h.2 (by omega)
      by_cases hv : v = Memory.blank
      · simp only [hv, if_true, Memory.read]
        by_cases hx : x = a
        · subst hx
          simp [show k ≠ x by omega, ha]
        · simp [hx]
      · simp only [hv, if_false, Memory.read]
        by_cases hx : x = a
        · simp [hx]
        · simp [hx, Ne.symm hx]
    · simp only [hak, if_false]
      by_cases heq : a = k
      · subst heq
        by_cases hv : v = Memory.blank
        · simp only [hv, if_true, Memory.read]
          by_cases hx : x = a
          · simp [hx, hblank]
          · simp [hx, Ne.symm hx]
        · simp only [hv, if_true, if_false, Memory.read]
          by_cases hx : x = a
          · simp [hx]
          · simp [hx, Ne.symm hx]
      · simp only [heq, if_false, Memory.read, ih h.2]
        by_cases hx : x = a
        · simp [hx, Ne.symm heq]
        · simp [hx]

/-! ## Dict -/

/-- A listed byte after `putCell`. The list need not be canonical. -/
theorem findCell_putCell (m : List Host.Cell) (a : Nat) (v : Byte) (x : Nat) :
    findCell (putCell m a v) x = if x = a then some v else findCell m x := by
  induction m with
  | nil =>
    by_cases hx : x = a
    · simp [putCell, findCell, hx]
    · simp [putCell, findCell, hx, Ne.symm hx]
  | cons c m ih =>
    obtain ⟨k, b⟩ := c
    unfold putCell
    by_cases hak : a < k
    · simp only [hak, if_true, findCell]
      by_cases hx : x = a
      · simp [hx]
      · simp [hx, Ne.symm hx]
    · by_cases heq : a = k
      · subst heq
        simp only [hak, if_true, if_false, findCell]
        by_cases hx : x = a
        · simp [hx]
        · simp [hx, Ne.symm hx]
      · simp only [hak, heq, if_false, findCell, ih]
        by_cases hx : x = a
        · simp [hx, Ne.symm heq]
        · simp [hx]

/-- The engine's fill of consecutive bytes: those bytes, and no other. -/
theorem Dictionary.read_fill (bs : List Byte) (d : Dictionary) (a x : Nat) :
    (d.fill a bs).read x = if a ≤ x ∧ x < a + bs.length then bs.getD (x - a) 0#8 else d.read x := by
  induction bs generalizing d a with
  | nil => simp [Dictionary.fill]
  | cons b bs ih =>
    rw [Dictionary.fill, ih]
    by_cases hx : x = a
    · subst hx
      simp [Dictionary.read, findCell_putCell]
    · by_cases hin : a + 1 ≤ x ∧ x < a + 1 + bs.length
      · have h2 : a ≤ x ∧ x < a + (b :: bs).length := by simp only [List.length_cons]; omega
        rw [if_pos hin, if_pos h2, show x - a = (x - (a + 1)) + 1 by omega, List.getD_cons_succ]
      · have h2 : ¬(a ≤ x ∧ x < a + (b :: bs).length) := by simp only [List.length_cons]; omega
        rw [if_neg hin, if_neg h2]
        simp [Dictionary.read, findCell_putCell, hx]

/-! ## LINE, OUT and ACC -/

/-- A written element, and every other element as before. -/
theorem Buffer.read_write {α : Type} (free : Nat → Nat → α) (b : Buffer α) (i : Nat) (v : α) (k : Nat) :
    (b.write free i v).read free k = if k = i then v else b.read free k := by
  unfold Buffer.write
  split
  · next hi =>
    simp only [Buffer.read, List.getD_eq_getElem?_getD, List.getElem?_set]
    by_cases hk : i = k
    · subst hk; simp [hi]
    · simp [hk, Ne.symm hk]
  · next hi =>
    simp only [Buffer.read, List.getD_eq_getElem?_getD]
    rcases Nat.lt_trichotomy k i with hk | hk | hk
    · rw [List.getElem?_append_left (by simpa using hk)]
      simp [List.getElem?_range hk, Nat.ne_of_lt hk, Buffer.read, List.getD_eq_getElem?_getD]
    · subst hk; simp
    · rw [List.getElem?_eq_none (by simp only [List.length_append, List.length_map, List.length_range, List.length_singleton]; omega),
        List.getElem?_eq_none (by omega)]
      simp [Nat.ne_of_gt hk]

/-- The loaded elements, and every later element as before. -/
theorem Buffer.read_load {α : Type} (free : Nat → Nat → α) (b : Buffer α) (vs : List α) (k : Nat) :
    (b.load vs).read free k = if k < vs.length then vs.getD k (b.rest.read free k) else b.read free k := by
  simp only [Buffer.load, Buffer.read, List.getD_eq_getElem?_getD]
  split
  · next hk => rw [List.getElem?_append_left hk]
  · next hk =>
    rw [List.getElem?_append_right (by omega), List.getElem?_drop]
    congr 3
    omega

/-- A write inside the written elements writes no further one. -/
theorem Buffer.length_write {α : Type} (free : Nat → Nat → α) {b : Buffer α} {i : Nat} (v : α) (h : i < b.head.length) :
    (b.write free i v).head.length = b.head.length := by
  simp [Buffer.write, h]

/-- A load writes the elements it names. -/
theorem Buffer.length_load {α : Type} (b : Buffer α) (vs : List α) :
    (b.load vs).head.length = max vs.length b.head.length := by
  simp only [Buffer.load, List.length_append, List.length_drop]
  omega

end Sys2Proof.Machine
end

