-- ==== Sys2Proof/Laws/PerInstr.lean ====
section
/-! SUPPORT. Statements about each instruction as syntax: its unit is of the format its row of the opcode table is in (R89). -/

namespace Sys2Proof.Laws.FormatKept

/-- The seven formats (R89). -/
inductive Format where
  | cmd | chunk | filt | pixfmt | istat | reg | port
  deriving DecidableEq, Repr

/-- The format of a unit. -/
def formatOfCode (c : Code) : Format :=
  match c with
  | .cmd _ => .cmd
  | .chunk _ _ => .chunk
  | .filt _ => .filt
  | .pixfmt _ => .pixfmt
  | .istat _ => .istat
  | .reg _ => .reg
  | .port _ => .port

/-- The format of each row of the opcode table. -/
def formatOfRow (i : Instr) : Format :=
  match i with
  | .info | .decode _ | .reservedCmd _ => .cmd
  | .ihdr _ | .plte _ | .trns _ | .idat _ | .iend _ | .otherChunk _ _ => .chunk
  | .filtNone | .filtSub | .filtUp | .filtAverage | .filtPaeth | .badFilter _ => .filt
  | .gray8 | .gray16 | .rgb8 | .rgb16 | .indexed8 | .grayA8 | .grayA16 | .rgba8 | .rgba16
  | .unsupportedPixfmt _ _ => .pixfmt
  | .needMoreInput | .hasMoreOutput | .streamDone | .streamError => .istat
  | .rdCmd | .wrCmd _ | .rdStatus | .wrStatus _ | .rdInBase | .wrInBase _ | .rdInLen | .wrInLen _ | .rdCtx
  | .wrCtx _ | .rdIrqEn | .wrIrqEn _ | .rdWidth | .wrWidth _ | .rdHeight | .wrHeight _ | .rdFmt | .wrFmt _
  | .rdStride | .wrStride _ | .rdOutW | .wrOutW _ | .rdOutH | .wrOutH _ | .rdRows | .wrRows _ | .rdNidat
  | .wrNidat _ | .rdPaln | .wrPaln _ | .rdCapIdat | .wrCapIdat _ | .rdCapStride | .wrCapStride _ | .rsvReg _ => .reg
  | .rowAck => .port

/-- The unit of an instruction is of its row's format. -/
def Statement (i : Instr) : Prop := formatOfCode (encode i) = formatOfRow i

theorem info : Statement (.info) := rfl
theorem decode (scale : Byte) : Statement (.decode scale) := rfl
theorem reservedCmd (w : Word) : Statement (.reservedCmd w) := rfl
theorem ihdr (len : Word) : Statement (.ihdr len) := rfl
theorem plte (len : Word) : Statement (.plte len) := rfl
theorem trns (len : Word) : Statement (.trns len) := rfl
theorem idat (len : Word) : Statement (.idat len) := rfl
theorem iend (len : Word) : Statement (.iend len) := rfl
theorem otherChunk (len : Word) (type : Word) : Statement (.otherChunk len type) := rfl
theorem filtNone : Statement (.filtNone) := rfl
theorem filtSub : Statement (.filtSub) := rfl
theorem filtUp : Statement (.filtUp) := rfl
theorem filtAverage : Statement (.filtAverage) := rfl
theorem filtPaeth : Statement (.filtPaeth) := rfl
theorem badFilter (v : Byte) : Statement (.badFilter v) := rfl
theorem gray8 : Statement (.gray8) := rfl
theorem gray16 : Statement (.gray16) := rfl
theorem rgb8 : Statement (.rgb8) := rfl
theorem rgb16 : Statement (.rgb16) := rfl
theorem indexed8 : Statement (.indexed8) := rfl
theorem grayA8 : Statement (.grayA8) := rfl
theorem grayA16 : Statement (.grayA16) := rfl
theorem rgba8 : Statement (.rgba8) := rfl
theorem rgba16 : Statement (.rgba16) := rfl
theorem unsupportedPixfmt (c d : Byte) : Statement (.unsupportedPixfmt c d) := rfl
theorem needMoreInput : Statement (.needMoreInput) := rfl
theorem hasMoreOutput : Statement (.hasMoreOutput) := rfl
theorem streamDone : Statement (.streamDone) := rfl
theorem streamError : Statement (.streamError) := rfl
theorem rdCmd : Statement (.rdCmd) := rfl
theorem wrCmd (v : Word) : Statement (.wrCmd v) := rfl
theorem rdStatus : Statement (.rdStatus) := rfl
theorem wrStatus (v : Word) : Statement (.wrStatus v) := rfl
theorem rdInBase : Statement (.rdInBase) := rfl
theorem wrInBase (v : Word) : Statement (.wrInBase v) := rfl
theorem rdInLen : Statement (.rdInLen) := rfl
theorem wrInLen (v : Word) : Statement (.wrInLen v) := rfl
theorem rdCtx : Statement (.rdCtx) := rfl
theorem wrCtx (v : Word) : Statement (.wrCtx v) := rfl
theorem rdIrqEn : Statement (.rdIrqEn) := rfl
theorem wrIrqEn (v : Word) : Statement (.wrIrqEn v) := rfl
theorem rdWidth : Statement (.rdWidth) := rfl
theorem wrWidth (v : Word) : Statement (.wrWidth v) := rfl
theorem rdHeight : Statement (.rdHeight) := rfl
theorem wrHeight (v : Word) : Statement (.wrHeight v) := rfl
theorem rdFmt : Statement (.rdFmt) := rfl
theorem wrFmt (v : Word) : Statement (.wrFmt v) := rfl
theorem rdStride : Statement (.rdStride) := rfl
theorem wrStride (v : Word) : Statement (.wrStride v) := rfl
theorem rdOutW : Statement (.rdOutW) := rfl
theorem wrOutW (v : Word) : Statement (.wrOutW v) := rfl
theorem rdOutH : Statement (.rdOutH) := rfl
theorem wrOutH (v : Word) : Statement (.wrOutH v) := rfl
theorem rdRows : Statement (.rdRows) := rfl
theorem wrRows (v : Word) : Statement (.wrRows v) := rfl
theorem rdNidat : Statement (.rdNidat) := rfl
theorem wrNidat (v : Word) : Statement (.wrNidat v) := rfl
theorem rdPaln : Statement (.rdPaln) := rfl
theorem wrPaln (v : Word) : Statement (.wrPaln v) := rfl
theorem rdCapIdat : Statement (.rdCapIdat) := rfl
theorem wrCapIdat (v : Word) : Statement (.wrCapIdat v) := rfl
theorem rdCapStride : Statement (.rdCapStride) := rfl
theorem wrCapStride (v : Word) : Statement (.wrCapStride v) := rfl
theorem rsvReg (a : Access) : Statement (.rsvReg a) := rfl
theorem rowAck : Statement (.rowAck) := rfl

end Sys2Proof.Laws.FormatKept
end

