-- ==== Sys2Proof/Laws/Pixels.lean ====
section
/-! SUPPORT. The accumulator as sums over columns: what a row leaves in each slot, and that no sum wraps (R168). -/

namespace Sys2Proof.Machine

/-- Adding the columns of one slot, lane by lane. -/
theorem foldl_add_eq (ex : Nat → Rgb) (n : Nat) (a : Sum) :
    (List.range n).foldl (fun a k => a.add (ex k)) a =
      ⟨a.r + BitVec.ofNat 16 (((List.range n).map fun k => (ex k).r.toNat).sum),
        a.g + BitVec.ofNat 16 (((List.range n).map fun k => (ex k).g.toNat).sum),
        a.b + BitVec.ofNat 16 (((List.range n).map fun k => (ex k).b.toNat).sum)⟩ := by
  induction n with
  | zero => simp
  | succ n ih =>
    have hw : ∀ b : Byte, b.setWidth 16 = BitVec.ofNat 16 b.toNat := fun b => BitVec.eq_of_toNat_eq (by simp)
    rw [List.range_succ, List.foldl_append, ih]
    simp only [List.foldl_cons, List.foldl_nil, Sum.add, List.map_append, List.map_cons, List.map_nil, List.sum_append,
      List.sum_cons, List.sum_nil, Nat.add_zero, BitVec.ofNat_add, hw, BitVec.add_assoc]

/-- A slot after the s columns of one row, lane by lane. -/
theorem slotSum_eq (ex : Nat → Rgb) (scale j : Nat) (a : Sum) :
    slotSum ex scale j a =
      ⟨a.r + BitVec.ofNat 16 (((List.range scale).map fun k => (ex (j * scale + k)).r.toNat).sum),
        a.g + BitVec.ofNat 16 (((List.range scale).map fun k => (ex (j * scale + k)).g.toNat).sum),
        a.b + BitVec.ofNat 16 (((List.range scale).map fun k => (ex (j * scale + k)).b.toNat).sum)⟩ :=
  foldl_add_eq (fun k => ex (j * scale + k)) scale a

/-- n bytes sum to at most 255·n. -/
theorem sum_bytes_le (f : Nat → Byte) (n : Nat) : ((List.range n).map fun k => (f k).toNat).sum ≤ 255 * n := by
  induction n with
  | zero => simp
  | succ n ih =>
    have := (f n).isLt
    simp only [List.range_succ, List.map_append, List.map_cons, List.map_nil, List.sum_append, List.sum_cons, List.sum_nil]
    omega

/-- Adding a number to a 16-bit sum with room for it does not wrap. -/
theorem toNat_add_le {a : Half} {bound x y : Nat} (ha : a.toNat ≤ bound) (hx : x ≤ y) (h : bound + y < 2 ^ 16) :
    (a + BitVec.ofNat 16 x).toNat = a.toNat + x ∧ (a + BitVec.ofNat 16 x).toNat ≤ bound + y := by
  simp only [BitVec.toNat_add, BitVec.toNat_ofNat]
  omega

/-- One row adds at most 255·s to each sum of a slot (R168). -/
theorem slotSum_atMost (ex : Nat → Rgb) {scale bound : Nat} (j : Nat) {a : Sum} (ha : a.AtMost bound)
    (h : bound + 255 * scale < 2 ^ 16) : (slotSum ex scale j a).AtMost (bound + 255 * scale) := by
  rw [slotSum_eq]
  exact ⟨(toNat_add_le ha.1 (sum_bytes_le (fun k => (ex (j * scale + k)).r) scale) h).2,
    (toNat_add_le ha.2.1 (sum_bytes_le (fun k => (ex (j * scale + k)).g) scale) h).2,
    (toNat_add_le ha.2.2 (sum_bytes_le (fun k => (ex (j * scale + k)).b) scale) h).2⟩

/-- The slots of the output columns after a row that is added (R168). -/
theorem sumAt_accumulated (ex : Extract) {s : State} (hy : s.line.y < s.hdr.outH.toNat * s.scale) {j : Nat}
    (hj : j < s.hdr.outW.toNat) :
    sumAt (accumulated ex s) j = slotSum (ex s.line.cur s.tab.pal) s.scale j (sumAt s.pix.acc j) := by
  rw [accumulated, if_pos hy, sumAt, Buffer.read_load, if_pos (by simpa using hj)]
  simp [List.getD_eq_getElem?_getD, List.getElem?_range hj]

/-- The element the swap leaves in the new `Cur` (R153). -/
theorem byteAt_swapLines_cur (s : State) (k : Nat) :
    byteAt (swapLines s).line.cur k = if k < s.hdr.stride then 0#8 else byteAt s.line.prev k := by
  simp only [swapLines, byteAt, Buffer.read_load, List.length_replicate]
  split
  · next h => simp [List.getD_eq_getElem?_getD, h]
  · rfl

/-- The word a direct row leaves in `Out` (R166). -/
theorem wordAt_directWords (ex : Extract) (s : State) (k : Nat) :
    wordAt (s.pix.out.load (directWords ex s)) k =
      if k < s.hdr.w.toNat then pack (ex s.line.cur s.tab.pal k) else wordAt s.pix.out k := by
  simp only [wordAt, Buffer.read_load, directWords, List.length_map, List.length_range]
  split
  · next h => simp [List.getD_eq_getElem?_getD, List.getElem?_range h]
  · rfl

/-- A row that ends no block row counts on inside it. -/
theorem succ_mod_of_ne {y n : Nat} (hn : 0 < n) (h : y % n ≠ n - 1) : (y + 1) % n = y % n + 1 ∧ (y + 1) / n = y / n := by
  have h1 := Nat.div_add_mod y n
  have h2 := Nat.mod_lt y hn
  have e : y + 1 = n * (y / n) + (y % n + 1) := by omega
  rw [e, Nat.mul_add_mod, Nat.mul_add_div hn, Nat.mod_eq_of_lt (by omega), Nat.div_eq_of_lt (by omega : y % n + 1 < n)]
  exact ⟨rfl, rfl⟩

/-- A row that ends a block row starts the next one. -/
theorem succ_mod_of_eq {y n : Nat} (hn : 0 < n) (h : y % n = n - 1) : (y + 1) % n = 0 ∧ (y + 1) / n = y / n + 1 := by
  have h1 := Nat.div_add_mod y n
  have e : y + 1 = n * (y / n + 1) := by rw [Nat.mul_add, Nat.mul_one]; omega
  rw [e, Nat.mul_mod_right, Nat.mul_div_cancel_left _ hn]
  exact ⟨rfl, rfl⟩

/-- No row past the last whole block row ends a block row (R167). -/
theorem mod_ne_of_past {y n h : Nat} (hn : 0 < n) (hy : y < h) (hp : h / n * n ≤ y) : y % n ≠ n - 1 := by
  intro he
  have h1 := Nat.div_add_mod y n
  have h2 : h < (h / n + 1) * n := Nat.lt_mul_of_div_lt (Nat.lt_succ_self _) hn
  have h3 : h / n * n ≤ y / n * n := Nat.mul_le_mul_right _ ((Nat.le_div_iff_mul_le hn).2 hp)
  rw [Nat.add_mul, Nat.one_mul] at h2
  rw [Nat.mul_comm] at h1
  omega

/-- R169's test. -/
theorem blockRowEnds_iff (s : State) :
    blockRowEnds s = true ↔ s.line.y < s.hdr.outH.toNat * s.scale ∧ s.line.y % s.scale = s.scale - 1 := by
  simp [blockRowEnds]

end Sys2Proof.Machine
end

