-- ==== Sys2Proof/Laws/Step.lean ====
section
/-! SUPPORT. What a register access can do and what a step can do, said once: later proofs split these cases instead of
unfolding the decoder, the scheduler and the dispatch. -/

namespace Sys2Proof.Machine

/-- Everything a register access can do to the state (R92 to R104). -/
inductive RegEffect (s : State) : State → Prop where
  | same : RegEffect s s
  | value (v : Word) : RegEffect s { s with bus := v }
  | drawn (v : Word) : RegEffect s { s with bus := v, draws := s.draws + 1 }
  | inBase (v : Word) (h : s.busy = false) : RegEffect s { s with inBase := v }
  | inLen (v : Word) (h : s.busy = false) : RegEffect s { s with inLen := v }
  | ctx (v : Word) (h : s.busy = false) : RegEffect s { s with ctx := v }
  | irqEn (e : Bool) : RegEffect s { s with irqEn := e }
  | cleared (d g : Bool) :
      RegEffect s { s with status := { s.status with done := s.status.done && d, ignored := s.status.ignored && g } }
  | ignored (h : s.busy = true) : RegEffect s { s with status := { s.status with ignored := true } }
  | started (v : Word) (h : s.busy = false) : RegEffect s (startCommand v s)
  | failed (v : Word) (h : s.busy = false) : RegEffect s (failReserved v s)

theorem returnDiagnostic_effect (v : Word) (s : State) : RegEffect s (returnDiagnostic v s) := by
  unfold returnDiagnostic
  split
  · exact .drawn _
  · exact .value _

theorem writeCmd_effect (v : Word) (s : State) : RegEffect s (writeCmd v s) := by
  unfold writeCmd
  split
  · next h => exact .ignored h
  · next h =>
    have h : s.busy = false := by simpa using h
    split
    · exact .failed _ h
    · exact .started _ h

theorem writeOperand_effect (put : State → State) (s : State) (h : s.busy = false → RegEffect s (put s)) :
    RegEffect s (writeOperand put s) := by
  unfold writeOperand
  split
  · exact .same
  · next hb => exact h (by simpa using hb)

/-- One test of a chain of offsets: the instruction is this row's, or comes from the rest of the chain. -/
theorem mem_cons_of_ite {p : Prop} [Decidable p] {x i : Instr} {o : Option Instr} {l : List Instr}
    (h : (if p then some x else o) = some i) (rest : o = some i → i ∈ l) : i ∈ x :: l := by
  by_cases hp : p
  · rw [if_pos hp] at h; cases h; exact List.mem_cons_self
  · rw [if_neg hp] at h; exact List.mem_cons_of_mem _ (rest h)

/-- The rows of the register window, reads. -/
theorem readRow?_cases {offset : BitVec 12} {i : Instr} (h : readRow? offset = some i) :
    i ∈ [Instr.rdCmd, .rdStatus, .rdInBase, .rdInLen, .rdCtx, .rdIrqEn, .rdWidth, .rdHeight, .rdFmt, .rdStride, .rdOutW,
      .rdOutH, .rdRows, .rdNidat, .rdPaln, .rdCapIdat, .rdCapStride] := by
  unfold readRow? at h
  iterate 17 refine mem_cons_of_ite h fun h => ?_
  cases h

/-- The rows of the register window, writes. -/
theorem writeRow?_cases {offset : BitVec 12} {v : Word} {i : Instr} (h : writeRow? offset v = some i) :
    i ∈ [Instr.wrCmd v, .wrStatus v, .wrInBase v, .wrInLen v, .wrCtx v, .wrIrqEn v, .wrWidth v, .wrHeight v, .wrFmt v,
      .wrStride v, .wrOutW v, .wrOutH v, .wrRows v, .wrNidat v, .wrPaln v, .wrCapIdat v, .wrCapStride v] := by
  unfold writeRow? at h
  iterate 17 refine mem_cons_of_ite h fun h => ?_
  cases h

theorem exec_read_effect {i : Instr} (s : State)
    (h : i ∈ [Instr.rdCmd, .rdStatus, .rdInBase, .rdInLen, .rdCtx, .rdIrqEn, .rdWidth, .rdHeight, .rdFmt, .rdStride, .rdOutW,
      .rdOutH, .rdRows, .rdNidat, .rdPaln, .rdCapIdat, .rdCapStride]) :
    ∃ t, exec i s = .next t ∧ RegEffect s t := by
  simp only [List.mem_cons, List.not_mem_nil, or_false] at h
  rcases h with rfl | rfl | rfl | rfl | rfl | rfl | rfl | rfl | rfl | rfl | rfl | rfl | rfl | rfl | rfl | rfl | rfl <;>
    refine ⟨_, rfl, ?_⟩ <;> first | exact returnDiagnostic_effect _ _ | exact .value _

theorem exec_write_effect {i : Instr} {v : Word} (s : State)
    (h : i ∈ [Instr.wrCmd v, .wrStatus v, .wrInBase v, .wrInLen v, .wrCtx v, .wrIrqEn v, .wrWidth v, .wrHeight v, .wrFmt v,
      .wrStride v, .wrOutW v, .wrOutH v, .wrRows v, .wrNidat v, .wrPaln v, .wrCapIdat v, .wrCapStride v]) :
    ∃ t, exec i s = .next t ∧ RegEffect s t := by
  simp only [List.mem_cons, List.not_mem_nil, or_false] at h
  rcases h with rfl | rfl | rfl | rfl | rfl | rfl | rfl | rfl | rfl | rfl | rfl | rfl | rfl | rfl | rfl | rfl | rfl <;>
    refine ⟨_, rfl, ?_⟩
  · exact writeCmd_effect _ _
  · exact .cleared _ _
  · exact writeOperand_effect _ _ (.inBase _)
  · exact writeOperand_effect _ _ (.inLen _)
  · exact writeOperand_effect _ _ (.ctx _)
  · exact .irqEn _
  all_goals exact .same

/-- A register access always completes, with one of the effects above. -/
theorem exec_decodeReg_effect (a : Access) (s : State) : ∃ t, exec (decodeReg a) s = .next t ∧ RegEffect s t := by
  cases a with
  | read offset size =>
    have hr : ∃ t, exec (.rsvReg (.read offset size)) s = .next t ∧ RegEffect s t := ⟨_, rfl, .value _⟩
    cases size with
    | byte => exact hr
    | half => exact hr
    | word =>
      cases h : readRow? offset with
      | none => simpa [decodeReg, h] using hr
      | some i => simpa [decodeReg, h] using exec_read_effect s (readRow?_cases h)
  | write offset size v =>
    have hr : ∃ t, exec (.rsvReg (.write offset size v)) s = .next t ∧ RegEffect s t := ⟨_, rfl, .same⟩
    cases size with
    | byte => exact hr
    | half => exact hr
    | word =>
      cases h : writeRow? offset v with
      | none => simpa [decodeReg, h] using hr
      | some i => simpa [decodeReg, h] using exec_write_effect s (writeRow?_cases h)

/-- Everything a step can do, the moves that were still to come having been taken from the queues already. -/
inductive StepEffect (s : State) : State → Prop where
  | pass : StepEffect s s
  | register (t : State) (h : RegEffect s t) : StepEffect s t
  | acknowledge : StepEffect s (acknowledgeRow s)
  | rowWord (w : Half) : StepEffect s { s with rowWord := w }
  | input (addr : Word) (b : Byte) (h : s.busy = false) :
      StepEffect s { s with mem := Memory.write s.mem addr.toNat b }
  | command (t : State) (hp : s.phase = .setup) (h : exec (decodeCmd s.cmd.word) s = .next t) : StepEffect s t
  | response (t : State) (hp : s.phase = .consume) (hf : s.drv.fresh = true)
      (h : exec (decodeIstat s.drv.resp.status) s = .next t) : StepEffect s t
  | success (hp : s.phase = .consume) (hf : s.drv.fresh = false) (hy : s.line.y = s.hdr.h.toNat) :
      StepEffect s (finishOk s)
  | spanByte (t : State) (hp : s.phase = .consume) (hf : s.drv.fresh = false) (hy : s.line.y ≠ s.hdr.h.toNat)
      (hs : s.drv.spPos.toNat < s.drv.spEnd.toNat) (h : exec (decodeFilt s.controlByte) s = .next t) : StepEffect s t
  | spanEnd (t : State) (hp : s.phase = .consume) (hf : s.drv.fresh = false) (hy : s.line.y ≠ s.hdr.h.toNat)
      (hs : ¬s.drv.spPos.toNat < s.drv.spEnd.toNat) (h : exec (decodeIstat s.drv.resp.status) s = .next t) : StepEffect s t
  | engine (a : Answer) (hp : s.phase = .engine) (ha : answerInSlice s.drv.req a = true) :
      StepEffect s { s with
        dict := s.dict.fill s.drv.req.outOfs.toNat a.bytes
        engine := a.newE
        drv := { s.drv with resp := a.resp, fresh := true }
        phase := .consume }

/-- What running a fetched step can do. -/
def runFetched (f : Fetched) : Result :=
  match f with
  | .run i t => exec i t
  | .act o => o

theorem step_eq (s : State) : step s = runFetched (fetch s) := rfl

theorem hostMove_effect {m : HostMove} {s t : State} (h : runFetched (hostMove m s) = .next t) : StepEffect s t := by
  cases m with
  | access a =>
    obtain ⟨u, hu, he⟩ := exec_decodeReg_effect a s
    simp only [hostMove, runFetched, hu] at h
    cases h
    exact .register _ he
  | rowAck => cases h; exact .acknowledge
  | readRow k =>
    simp only [hostMove, runFetched, hostReadRow] at h
    split at h
    · cases h; exact .rowWord _
    · cases h
  | writeInput addr b =>
    simp only [hostMove, runFetched, hostWriteInput] at h
    split at h
    · cases h
    · next hw =>
      cases h
      exact .input addr b (by simpa using hw)

theorem blockMove_effect {s t : State} (h : runFetched (blockMove s) = .next t) : StepEffect s t := by
  unfold blockMove at h
  cases hp : s.phase with
  | setup => simp only [hp] at h; exact .command _ hp h
  | consume =>
    simp only [hp] at h
    split at h
    · next hf => exact .response _ hp hf h
    · next hf =>
      have hf : s.drv.fresh = false := by simpa using hf
      split at h
      · next hy => cases h; exact .success hp hf hy
      · next hy =>
        split at h
        · next hs => exact .spanByte _ hp hf hy hs h
        · next hs => exact .spanEnd _ hp hf hy hs h
  | idle => simp only [hp, runFetched] at h; cases h; exact .pass
  | engine => simp only [hp, runFetched] at h; cases h; exact .pass
  | sink => simp only [hp, runFetched] at h; cases h; exact .pass

theorem engineStep_effect {a : Answer} {s t : State} (h : engineStep a s = .next t) : StepEffect s t := by
  unfold engineStep at h
  split at h
  · cases h; exact .pass
  · next hp =>
    split at h
    · next ha => cases h; exact .engine a (by simpa using hp) ha
    · cases h

/-- The moves that wait are passed over, and stay (R90, R193). -/
theorem takeMove_append {waits : HostMove → Bool} {ws : List HostMove} (hw : ∀ w ∈ ws, waits w = true) {m : HostMove}
    (hm : waits m = false) (ms : List HostMove) : takeMove waits (ws ++ m :: ms) = some (m, ws ++ ms) := by
  induction ws with
  | nil => simp [takeMove, hm]
  | cons w ws ih =>
    rw [List.forall_mem_cons] at hw
    simp [takeMove, hw.1, ih hw.2]

/-- The host has no move exactly when all it offers wait. -/
theorem takeMove_eq_none {waits : HostMove → Bool} {ms : List HostMove} :
    takeMove waits ms = none ↔ ∀ m ∈ ms, waits m = true := by
  induction ms with
  | nil => simp [takeMove]
  | cons m ms ih =>
    rw [List.forall_mem_cons, takeMove]
    cases hm : waits m <;> simp [ih]

/-- Everything a taken move says of the queue: it does not wait, those before it wait, and they stay in front. -/
theorem takeMove_some {waits : HostMove → Bool} {ms rest : List HostMove} {m : HostMove}
    (h : takeMove waits ms = some (m, rest)) :
    waits m = false ∧ ∃ ws tl, (∀ w ∈ ws, waits w = true) ∧ ms = ws ++ m :: tl ∧ rest = ws ++ tl := by
  induction ms generalizing rest with
  | nil => cases h
  | cons n ms ih =>
    cases hn : waits n with
    | false =>
      rw [takeMove, hn] at h
      cases h
      exact ⟨hn, [], ms, by simp, rfl, rfl⟩
    | true =>
      rw [takeMove, hn, if_pos rfl, Option.map_eq_some_iff] at h
      obtain ⟨⟨k, r⟩, hk, he⟩ := h
      cases he
      obtain ⟨h1, ws, tl, h2, rfl, h4⟩ := ih hk
      exact ⟨h1, n :: ws, tl, by simpa [hn] using h2, rfl, by simp only [h4, List.cons_append]⟩

/-- While BUSY = 0 no move waits. -/
theorem waits_of_idle {s : State} (h : s.busy = false) (m : HostMove) : s.waits m = false := by
  cases m <;> simp [State.waits, h]

/-- What a turn can do: one of the effects above on the state with the move taken from its queue, or a reset. -/
theorem takeTurn_effect {k : Turn} {s t : State} (h : runFetched (takeTurn k s) = .next t) :
    (k = .reset ∧ t = resetStep s) ∨ ∃ hq eq, StepEffect { s with hostQ := hq, engineQ := eq } t := by
  cases k with
  | host =>
    simp only [takeTurn] at h
    cases hq : takeMove s.waits s.hostQ with
    | none => simp only [hq, runFetched] at h; cases h; exact .inr ⟨s.hostQ, s.engineQ, .pass⟩
    | some p => simp only [hq] at h; exact .inr ⟨p.2, s.engineQ, hostMove_effect h⟩
  | block => exact .inr ⟨s.hostQ, s.engineQ, blockMove_effect h⟩
  | engine =>
    simp only [takeTurn] at h
    cases hq : s.engineQ with
    | nil => simp only [hq, runFetched] at h; cases h; exact .inr ⟨s.hostQ, s.engineQ, .pass⟩
    | cons a as => simp only [hq] at h; exact .inr ⟨s.hostQ, as, engineStep_effect h⟩
  | reset => cases h; exact .inl ⟨rfl, rfl⟩

/-- Without a scheduled turn the step is some agent's turn, never a reset, or the machine is stuck. -/
theorem defaultTurn_turn {s t : State} (h : runFetched (defaultTurn s) = .next t) :
    ∃ k, k ≠ .reset ∧ runFetched (takeTurn k s) = .next t := by
  unfold defaultTurn at h
  split at h
  · exact ⟨.block, by decide, h⟩
  · exact ⟨.block, by decide, h⟩
  · split at h
    · exact ⟨.engine, by decide, h⟩
    · exact ⟨.host, by decide, h⟩
    · cases h
  · split at h
    · exact ⟨.host, by decide, h⟩
    · cases h
  · split at h
    · exact ⟨.host, by decide, h⟩
    · cases h

/-- THE STEP'S CASES: a reset that `turns` schedules, or one of the effects above on the state with its move taken from the
queues. -/
theorem step_effect {s t : State} (h : step s = .next t) :
    (∃ ts, s.turns = .reset :: ts ∧ t = resetStep { s with turns := ts })
      ∨ ∃ ts hq eq, StepEffect { s with turns := ts, hostQ := hq, engineQ := eq } t := by
  rw [step_eq] at h
  unfold fetch at h
  split at h
  · next k ts hk =>
    rcases takeTurn_effect h with ⟨rfl, ht⟩ | ⟨hq, eq, he⟩
    · exact .inl ⟨ts, hk, ht⟩
    · exact .inr ⟨ts, hq, eq, he⟩
  · obtain ⟨k, hk, hr⟩ := defaultTurn_turn h
    rcases takeTurn_effect hr with ⟨rfl, _⟩ | ⟨hq, eq, he⟩
    · exact absurd rfl hk
    · exact .inr ⟨s.turns, hq, eq, he⟩

end Sys2Proof.Machine
end

