-- ==== Sys2Proof/Tests/Slice0.lean ====
section
/-! SUPPORT. Tests: ill-formed terms refused, words written out from the spec's encodings, one step on small states with results
from spec/95_test_vectors.md and the rules' examples, and for each statement with hypotheses a state that meets them. -/

namespace Sys2Proof.Tests

open Sys2Proof.Machine

/-! ## Helpers -/

/-- What a result leaves in a state, if it goes on. -/
def after {α : Type} (f : State → α) (o : Result) : Option α :=
  match o with
  | .next t => some (f t)
  | .fault _ => none
  | .refused _ => none

/-- A buffer whose first elements are written. -/
def buf {α : Type} (l : List α) : Buffer α := ⟨l, .drawn 0⟩

/-- The reset state in another phase. -/
def inPhase (p : Phase) : State := { State.reset with phase := p }

/-- The signature, an IHDR chunk for a W by H image (its CRC four bytes that nothing reads) and the bytes after it. -/
def png (w h : Half) (d c interlace : Byte) (rest : List Byte) : List Byte :=
  [0x89#8, 0x50#8, 0x4E#8, 0x47#8, 0x0D#8, 0x0A#8, 0x1A#8, 0x0A#8, 0#8, 0#8, 0#8, 13#8, 0x49#8, 0x48#8, 0x44#8, 0x52#8]
    ++ [0#8, 0#8, w.extractLsb' 8 8, w.extractLsb' 0 8, 0#8, 0#8, h.extractLsb' 8 8, h.extractLsb' 0 8]
    ++ [d, c, 0#8, 0#8, interlace, 1#8, 2#8, 3#8, 4#8] ++ rest

/-- An IDAT chunk of one byte. -/
def idatOne : List Byte := [0#8, 0#8, 0#8, 1#8, 0x49#8, 0x44#8, 0x41#8, 0x54#8, 0x78#8, 1#8, 2#8, 3#8, 4#8]

/-- A command in SETUP on a file at 0x1000 (95 section 0). -/
def setup (op : CmdOp) (scale : Byte) (file : List Byte) : State :=
  { inPhase .setup with
    cmd := ⟨op, scale, 0x1000#32, BitVec.ofNat 32 file.length, 0xCAFE#32⟩
    mem := Memory.load [] 0x1000 file }

/-- The same with another length. -/
def withLen (len : Word) (s : State) : State := { s with cmd := { s.cmd with len := len } }

/-- DECODE of a file with a palette image's header, the walk at offset 33. -/
def walking (c : Byte) (rest : List Byte) : State :=
  let s := setup .decode 1#8 (png 1#16 1#16 8#8 c 0#8 rest)
  { walkInit s with hdr := { s.hdr with c := c } }

/-- File G of 95 (2×2 gray), streaming: its one IDAT at offset 41 with length 17, the driver and the scanline as given. -/
def streamG (p : Phase) (drv : Driver) (line : Line) : State :=
  { inPhase p with
    cmd := ⟨.decode, 1#8, 0x1000#32, 74#32, 0#32⟩
    hdr := ⟨2#32, 2#32, 8#8, 0#8, 1#4, 2, 2#31, 2#31⟩
    tab := { State.reset.tab with idx := [⟨41#32, 17#32⟩] }
    dict := ⟨[(0, 0x00#8), (1, 0x10#8), (2, 0x20#8), (3, 0x01#8), (4, 0x30#8), (5, 0x10#8)], 0⟩
    drv := drv
    line := line }

/-- The first request of G. -/
def requestG : Request := ⟨0x1029#32, 17#32, 0#15, 32768#16, true, true⟩

/-- The lines before any byte of row 0. -/
def lineG : Line := ⟨buf [0#8, 0#8], buf [0#8, 0#8], 0, 0#3, 0⟩

/-- G with its request outstanding. -/
def engineG : State := streamG .engine ⟨0#16, 0#32, 0#15, false, requestG, ⟨0#32, 0#16, 0#2⟩, false, 0#16, 0#16⟩ lineG

/-- G with an unchecked response. -/
def responseG (consumed : Word) (written : Half) (st : BitVec 2) : State :=
  streamG .consume ⟨0#16, 0#32, 0#15, false, requestG, ⟨consumed, written, st⟩, true, 0#16, 0#16⟩ lineG

/-- G with a checked response, at a position of its span. -/
def spanG (pos until_ : Half) (consumed : Word) (st : BitVec 2) (line : Line) : State :=
  streamG .consume ⟨0#16, consumed, 0#15, false, requestG, ⟨consumed, until_, st⟩, false, pos, until_⟩ line

/-- G presenting row 0. -/
def sinkG : State :=
  { streamG .sink ⟨0#16, 17#32, 6#15, false, requestG, ⟨17#32, 6#16, 2#2⟩, false, 3#16, 6#16⟩
      ⟨buf [0#8, 0#8], buf [0x10#8, 0x20#8], 0, 0#3, 1⟩ with
    pix := ⟨buf [0x1082#16, 0x2104#16], buf []⟩
    res := { Results.zero with rows := 1#32 }
    presented := [⟨0#32, 2#32, 0#32, [0x1082#16, 0x2104#16]⟩] }

/-- A completed row of a one-pixel image, direct mode. -/
def rowOf (row : List Byte) (pal : List Rgb) (c d : Byte) : State :=
  { inPhase .consume with
    cmd := ⟨.decode, 1#8, 0#32, 0#32, 0#32⟩
    hdr := ⟨1#32, 1#32, d, c, BitVec.ofNat 4 row.length, row.length, 1#31, 1#31⟩
    tab := { State.reset.tab with pal := pal }
    line := ⟨buf row, buf (List.replicate row.length 0#8), row.length + 1, 0#3, 0⟩ }

/-- The scenario S3 palette. -/
def palS3 : List Rgb := [⟨0#8, 0#8, 0#8⟩, ⟨255#8, 0#8, 0#8⟩, ⟨0#8, 255#8, 0#8⟩, ⟨0#8, 0#8, 255#8⟩]

/-- Scenario S3 at scale 2, row y complete, the accumulator as given. -/
def rowS3 (row : List Byte) (y : Nat) (acc : List Sum) : State :=
  { rowOf row palS3 3#8 8#8 with
    cmd := ⟨.decode, 2#8, 0#32, 0#32, 0#32⟩
    hdr := ⟨4#32, 4#32, 8#8, 3#8, 1#4, 4, 2#31, 2#31⟩
    line := ⟨buf row, buf [0#8, 0#8, 0#8, 0#8], 5, 0#3, y⟩
    pix := ⟨buf [], buf acc⟩ }

/-- The words of the row presented last. -/
def lastWords (s : State) : Option (List Half) := s.presented.getLast?.map Row.words

/-! ## Well-formedness: one ill-formed term for each check -/

theorem test_wf_refuses_command_words :
    (Instr.reservedCmd 0x00000001#32).wf = false ∧ (Instr.reservedCmd 0x00000302#32).wf = false := by decide

theorem test_wf_accepts_reserved_words :
    (Instr.reservedCmd 0x00000101#32).wf = true ∧ (Instr.reservedCmd 0x00000012#32).wf = true
      ∧ (Instr.reservedCmd 0x00010102#32).wf = true ∧ (Instr.reservedCmd 0#32).wf = true := by decide

theorem test_wf_refuses_known_chunk : (Instr.otherChunk 5#32 0x49444154#32).wf = false := by decide

theorem test_wf_refuses_filter : (Instr.badFilter 4#8).wf = false ∧ (Instr.badFilter 5#8).wf = true := by decide

theorem test_wf_refuses_supported_format :
    (Instr.unsupportedPixfmt 3#8 8#8).wf = false ∧ (Instr.unsupportedPixfmt 3#8 16#8).wf = true := by decide

theorem test_wf_refuses_register_access :
    (Instr.rsvReg (.read 0x040#12 .word)).wf = false ∧ (Instr.rsvReg (.read 0x044#12 .word)).wf = true
      ∧ (Instr.rsvReg (.write 0x000#12 .half 0#32)).wf = true ∧ (Instr.rsvReg (.read 0x001#12 .word)).wf = true := by decide

/-! ## Decoding: a word of every row (R70, R17, R80, R81, R83, R89) -/

theorem test_decode_cmd :
    decode (.cmd 0x00000001#32) = .ok .info ∧ decode (.cmd 0x0000FF02#32) = .ok (.decode 255#8)
      ∧ decode (.cmd 0x00010102#32) = .ok (.reservedCmd 0x00010102#32) := by decide

theorem test_decode_chunk :
    decode (.chunk 13#32 0x49484452#32) = .ok (.ihdr 13#32) ∧ decode (.chunk 7#32 0x504C5445#32) = .ok (.plte 7#32)
      ∧ decode (.chunk 2#32 0x74524E53#32) = .ok (.trns 2#32) ∧ decode (.chunk 15#32 0x49444154#32) = .ok (.idat 15#32)
      ∧ decode (.chunk 0#32 0x49454E44#32) = .ok (.iend 0#32)
      ∧ decode (.chunk 13#32 0x69686472#32) = .ok (.otherChunk 13#32 0x69686472#32) := by decide

theorem test_decode_filt :
    decode (.filt 0#8) = .ok .filtNone ∧ decode (.filt 1#8) = .ok .filtSub ∧ decode (.filt 2#8) = .ok .filtUp
      ∧ decode (.filt 3#8) = .ok .filtAverage ∧ decode (.filt 4#8) = .ok .filtPaeth
      ∧ decode (.filt 0xFF#8) = .ok (.badFilter 0xFF#8) := by decide

theorem test_decode_pixfmt :
    decode (.pixfmt 0x0008#16) = .ok .gray8 ∧ decode (.pixfmt 0x0010#16) = .ok .gray16
      ∧ decode (.pixfmt 0x0208#16) = .ok .rgb8 ∧ decode (.pixfmt 0x0210#16) = .ok .rgb16
      ∧ decode (.pixfmt 0x0308#16) = .ok .indexed8 ∧ decode (.pixfmt 0x0408#16) = .ok .grayA8
      ∧ decode (.pixfmt 0x0410#16) = .ok .grayA16 ∧ decode (.pixfmt 0x0608#16) = .ok .rgba8
      ∧ decode (.pixfmt 0x0610#16) = .ok .rgba16 ∧ decode (.pixfmt 0x0508#16) = .ok (.unsupportedPixfmt 5#8 8#8) := by decide

theorem test_decode_istat :
    decode (.istat 0#2) = .ok .needMoreInput ∧ decode (.istat 1#2) = .ok .hasMoreOutput
      ∧ decode (.istat 2#2) = .ok .streamDone ∧ decode (.istat 3#2) = .ok .streamError := by decide

theorem test_decode_reads :
    ([0x000#12, 0x004#12, 0x008#12, 0x00C#12, 0x010#12, 0x014#12, 0x018#12, 0x01C#12, 0x020#12, 0x024#12, 0x028#12, 0x02C#12,
        0x030#12, 0x034#12, 0x038#12, 0x03C#12, 0x040#12].map fun o => decodeReg (.read o .word))
      = [.rdCmd, .rdStatus, .rdInBase, .rdInLen, .rdCtx, .rdIrqEn, .rdWidth, .rdHeight, .rdFmt, .rdStride, .rdOutW, .rdOutH,
        .rdRows, .rdNidat, .rdPaln, .rdCapIdat, .rdCapStride] := by decide

theorem test_decode_writes :
    ([0x000#12, 0x004#12, 0x008#12, 0x00C#12, 0x010#12, 0x014#12, 0x018#12, 0x01C#12, 0x020#12, 0x024#12, 0x028#12, 0x02C#12,
        0x030#12, 0x034#12, 0x038#12, 0x03C#12, 0x040#12].map fun o => decodeReg (.write o .word 9#32))
      = [.wrCmd 9#32, .wrStatus 9#32, .wrInBase 9#32, .wrInLen 9#32, .wrCtx 9#32, .wrIrqEn 9#32, .wrWidth 9#32, .wrHeight 9#32,
        .wrFmt 9#32, .wrStride 9#32, .wrOutW 9#32, .wrOutH 9#32, .wrRows 9#32, .wrNidat 9#32, .wrPaln 9#32, .wrCapIdat 9#32,
        .wrCapStride 9#32] := by decide

theorem test_decode_reserved_accesses :
    decodeReg (.read 0x044#12 .word) = .rsvReg (.read 0x044#12 .word)
      ∧ decodeReg (.write 0xFFC#12 .word 1#32) = .rsvReg (.write 0xFFC#12 .word 1#32)
      ∧ decodeReg (.read 0x004#12 .byte) = .rsvReg (.read 0x004#12 .byte)
      ∧ decodeReg (.read 0x005#12 .word) = .rsvReg (.read 0x005#12 .word) := by decide

theorem test_decode_port : decode (.port 1#1) = .ok .rowAck ∧ decode (.port 0#1) = .error .noPortEvent := by decide

theorem test_decode_table_words :
    decodeTableWord 32 0x00000402 = some (.decode 4#8) ∧ decodeTableWord 32 0x49484452 = some (.ihdr 0#32)
      ∧ decodeTableWord 8 4 = some .filtPaeth ∧ decodeTableWord 16 0x0610 = some .rgba16
      ∧ decodeTableWord 16 0x0041 = some (.wrCapStride 0#32) := by decide

/-! ## One step: commands -/

/-- V-SET-11: INFO on the first 24 bytes of P1. -/
theorem test_info :
    after (fun t => (t.statusWord, t.res.width, t.res.height))
      (exec .info (withLen 24#32 (setup .info 0#8 (png 1#16 1#16 8#8 2#8 0#8 [])))) = some (6#32, 1#32, 1#32) := by decide

/-- V-SET-10: at 23 bytes, TRUNCATED_INPUT. -/
theorem test_info_truncated :
    after (fun t => (t.statusWord, t.res.width))
      (exec .info (withLen 23#32 (setup .info 0#8 (png 1#16 1#16 8#8 2#8 0#8 [])))) = some (0x40A#32, 0#32) := by decide

/-- V-SET-13: DECODE 1 on the first 29 bytes of P1. -/
theorem test_decode_no_idat :
    after (fun t => (t.statusWord, t.res.width, t.res.height, t.res.fmt))
      (exec (.decode 1#8) (withLen 29#32 (setup .decode 1#8 (png 1#16 1#16 8#8 2#8 0#8 []))))
      = some (0x80A#32, 1#32, 1#32, 0x00030208#32) := by decide

/-- As in V-SET-31: a 5×1 image at scale 1 reaches its request, here for a one-byte IDAT at offset 41. -/
theorem test_decode_request :
    after (fun t => (t.statusWord, t.res.outW, t.res.outH, t.res.nidat, t.drv.req))
      (exec (.decode 1#8) (setup .decode 1#8 (png 5#16 1#16 8#8 0#8 0#8 idatOne)))
      = some (0x20001#32, 5#32, 1#32, 1#32, ⟨0x1029#32, 1#32, 0#15, 32768#16, true, true⟩) := by decide

/-- V-CMD-2: RESERVED_CMD 3. -/
theorem test_reserved_cmd : after State.statusWord (exec (.reservedCmd 3#32) State.reset) = some 0x10A#32 := by decide

/-! ## One step: chunks -/

/-- P5: interlace 1 is UNSUPPORTED_IHDR, with FMT loaded. -/
theorem test_ihdr_interlaced :
    after (fun t => (t.statusWord, t.res.fmt)) (exec (.ihdr 13#32) (setup .decode 1#8 (png 1#16 1#16 8#8 0#8 1#8 [])))
      = some (0x70A#32, 8#32) := by decide

/-- V-SET-14: length field 14. -/
theorem test_ihdr_length :
    after State.statusWord (exec (.ihdr 14#32) (setup .decode 1#8 (png 1#16 1#16 8#8 0#8 0#8 []))) = some 0x60A#32 := by decide

/-- R118's example: L = 7. -/
theorem test_plte :
    after (fun t => (t.tab.plteN, t.tab.pal.take 3, t.tab.pos))
      (exec (.plte 7#32) (walking 3#8 [0#8, 0#8, 0#8, 7#8, 0x50#8, 0x4C#8, 0x54#8, 0x45#8, 0xFF#8, 0#8, 0#8, 0#8, 0xFF#8, 0#8, 0xAA#8]))
      = some (2#9, [⟨255#8, 0#8, 0#8⟩, ⟨0#8, 255#8, 0#8⟩, ⟨0#8, 0#8, 0#8⟩], 52) := by decide

/-- R119's example: L = 2, payload 00 80. -/
theorem test_trns :
    after (fun t => (t.tab.trnsN, t.tab.alpha.take 3))
      (exec (.trns 2#32) (walking 3#8 [0#8, 0#8, 0#8, 2#8, 0x74#8, 0x52#8, 0x4E#8, 0x53#8, 0#8, 0x80#8]))
      = some (2#9, [0#8, 128#8, 255#8]) := by decide

/-- V-WLK-15: tRNS is skipped for gray. -/
theorem test_trns_gray :
    after (fun t => (t.tab.trnsN, t.tab.alpha.take 1))
      (exec (.trns 2#32) (walking 0#8 [0#8, 0#8, 0#8, 2#8, 0x74#8, 0x52#8, 0x4E#8, 0x53#8, 0#8, 0x80#8])) = some (0#9, [255#8]) := by
  decide

/-- P2: the first of three IDATs. -/
theorem test_idat :
    after (fun t => (t.tab.idx, t.tab.pos)) (exec (.idat 1#32) (walking 6#8 idatOne)) = some ([⟨41#32, 1#32⟩], 46) := by decide

/-- V-WLK-6: IEND ends the walk before its length is checked. -/
theorem test_iend :
    after (fun t => (t.tab.walking, t.tab.idx.length))
      (exec (.iend 0xFFFFFFFF#32) (walking 0#8 [0xFF#8, 0xFF#8, 0xFF#8, 0xFF#8, 0x49#8, 0x45#8, 0x4E#8, 0x44#8]))
      = some (false, 0) := by decide

/-- V-WLK-5: a tEXt chunk "hi" moves `pos` only. -/
theorem test_other_chunk :
    after (fun t => (t.tab.pos, t.tab.walking, t.tab.plteN))
      (exec (.otherChunk 2#32 0x74455874#32) (walking 0#8 [0#8, 0#8, 0#8, 2#8, 0x74#8, 0x45#8, 0x58#8, 0x74#8, 0x68#8, 0x69#8]))
      = some (47, true, 0#9) := by decide

/-! ## One step: filters (the raw byte is `Dict`'s at the span's position) -/

/-- A 2-byte row with its first byte at `Cur[0]`, about to take Dict[5] = 0x10 as the second. -/
def atSecond (first up : Byte) (f : BitVec 3) : State :=
  { spanG 5#16 6#16 17#32 2#2 ⟨buf [first, 0#8, 0#8], buf [up, up, up], 2, f, 0⟩ with
    hdr := ⟨3#32, 2#32, 8#8, 0#8, 1#4, 3, 3#31, 2#31⟩ }

/-- R142's example: 0x04 latches Paeth. -/
theorem test_filt_paeth_latched :
    after (fun t => (t.line.f, t.line.slPos, t.drv.spPos)) (exec .filtPaeth (spanG 0#16 6#16 17#32 2#2 lineG))
      = some (4#3, 1, 1#16) := by decide

/-- R146: the raw byte is left. -/
theorem test_filt_none : after (fun t => t.line.cur.head) (exec .filtNone (atSecond 9#8 7#8 0#3)) = some [9#8, 0x10#8, 0#8] := by decide

/-- R147, V-FIL-11: 0xF0 + 0x10 wraps to 0. -/
theorem test_filt_sub : after (fun t => t.line.cur.head) (exec .filtSub (atSecond 0xF0#8 7#8 1#3)) = some [0xF0#8, 0#8, 0#8] := by decide

/-- R148: 0x10 + 7. -/
theorem test_filt_up : after (fun t => t.line.cur.head) (exec .filtUp (atSecond 9#8 7#8 2#3)) = some [9#8, 0x17#8, 0#8] := by decide

/-- R149, V-FIL-5: a = b = 255 predicts 255. -/
theorem test_filt_average :
    after (fun t => t.line.cur.head) (exec .filtAverage (atSecond 0xFF#8 0xFF#8 3#3)) = some [0xFF#8, 0x0F#8, 0#8] := by decide

/-- R150, V-FIL-7: a = 0, b = c = 255 predicts 0. -/
theorem test_filt_paeth : after (fun t => t.line.cur.head) (exec .filtPaeth (atSecond 0#8 0xFF#8 4#3)) = some [0#8, 0x10#8, 0#8] := by
  decide

/-- L1.1 property 10 as corrected by C1, and V-FIL-6, V-FIL-8, V-FIL-9. -/
theorem test_paeth_vectors :
    predPaeth 10#8 20#8 10#8 = 20#8 ∧ predPaeth 100#8 50#8 100#8 = 50#8 ∧ predPaeth 200#8 100#8 50#8 = 200#8
      ∧ predPaeth 50#8 100#8 200#8 = 50#8 ∧ predPaeth 255#8 0#8 255#8 = 0#8 ∧ predPaeth 255#8 255#8 0#8 = 255#8
      ∧ predPaeth 1#8 2#8 3#8 = 1#8 := by decide

/-- V-DRV-14: filter byte 05. -/
theorem test_bad_filter : after State.statusWord (exec (.badFilter 5#8) (spanG 0#16 6#16 17#32 2#2 lineG)) = some 0xC0A#32 := by
  decide

/-! ## One step: pixel formats (V-PIX-1 to V-PIX-9) -/

theorem test_gray8 : after lastWords (exec .gray8 (rowOf [0x80#8] [] 0#8 8#8)) = some (some [0x8410#16]) := by decide

theorem test_gray16 : after lastWords (exec .gray16 (rowOf [0x12#8, 0x34#8] [] 0#8 16#8)) = some (some [0x1082#16]) := by decide

theorem test_rgb8 : after lastWords (exec .rgb8 (rowOf [0xFF#8, 0x80#8, 0#8] [] 2#8 8#8)) = some (some [0xFC00#16]) := by decide

theorem test_rgb16 :
    after lastWords (exec .rgb16 (rowOf [0xAA#8, 1#8, 0xBB#8, 2#8, 0xCC#8, 3#8] [] 2#8 16#8)) = some (some [0xADD9#16]) := by decide

theorem test_indexed8 : after lastWords (exec .indexed8 (rowOf [2#8] palS3 3#8 8#8)) = some (some [0x07E0#16]) := by decide

theorem test_grayA8 : after lastWords (exec .grayA8 (rowOf [0x40#8, 0#8] [] 4#8 8#8)) = some (some [0x4208#16]) := by decide

theorem test_grayA16 :
    after lastWords (exec .grayA16 (rowOf [0x40#8, 0xFF#8, 0#8, 0#8] [] 4#8 16#8)) = some (some [0x4208#16]) := by decide

theorem test_rgba8 : after lastWords (exec .rgba8 (rowOf [0xFF#8, 0#8, 0#8, 0xFF#8] [] 6#8 8#8)) = some (some [0xF800#16]) := by decide

theorem test_rgba16 :
    after lastWords (exec .rgba16 (rowOf [1#8, 0#8, 2#8, 0#8, 3#8, 0#8, 0xFF#8, 0xFF#8] [] 6#8 16#8)) = some (some [0#16]) := by
  decide

/-- Scenario S3, row 1 (R168, R169): after row 0 the slots hold (255, 0, 0) and (0, 255, 255). -/
theorem test_indexed8_block :
    after (fun t => (lastWords t, t.pix.acc.head, t.phase))
      (exec .indexed8 (rowS3 [1#8, 2#8, 3#8, 0#8] 1 [⟨255#16, 0#16, 0#16⟩, ⟨0#16, 255#16, 255#16⟩]))
      = some (some [0x79E0#16, 0x01EF#16], [⟨0#16, 0#16, 0#16⟩, ⟨0#16, 0#16, 0#16⟩], .sink) := by decide

theorem test_unsupported_pixfmt :
    after State.statusWord (exec (.unsupportedPixfmt 3#8 16#8) (rowOf [0#8] [] 3#8 16#8)) = some 0x70A#32 := by decide

/-! ## One step: engine statuses -/

/-- R136's example, V-DRV-17: dict_ofs = 32000 and written = 768 end the span at 32768 and wrap dict_ofs. -/
theorem test_need_more_input :
    after (fun t => (t.drv.spPos, t.drv.spEnd, t.drv.dictOfs, t.drv.curOfs))
      (exec .needMoreInput (streamG .consume ⟨0#16, 0#32, 32000#15, false, ⟨0x1029#32, 17#32, 32000#15, 768#16, false, true⟩,
        ⟨5#32, 768#16, 0#2⟩, true, 0#16, 0#16⟩ lineG)) = some (32000#16, 32768#16, 0#15, 5#32) := by decide

/-- V-DRV-11: E1 consumed 0 and wrote 2, so request 2 repeats the slice and grants the rest of `Dict`. -/
theorem test_has_more_output :
    after (fun t => (t.phase, t.drv.req))
      (exec .hasMoreOutput (streamG .consume ⟨0#16, 0#32, 2#15, false, requestG, ⟨0#32, 2#16, 1#2⟩, false, 2#16, 2#16⟩ lineG))
      = some (.engine, ⟨0x1029#32, 17#32, 2#15, 32766#16, false, true⟩) := by decide

/-- V-DRV-9: no progress is ENGINE_PROTOCOL. -/
theorem test_need_more_input_stalled :
    after State.statusWord (exec .needMoreInput (spanG 0#16 0#16 0#32 0#2 lineG)) = some 0xE0A#32 := by decide

/-- V-DRV-5: DONE with scanlines missing is STREAM_TRUNCATED. -/
theorem test_stream_done :
    after State.statusWord (exec .streamDone (spanG 5#16 5#16 17#32 2#2 lineG)) = some 0xD0A#32 := by decide

/-- V-DRV-4 and V-DRV-10: ERROR is INFLATE_ERROR, but the bounds come first. -/
theorem test_stream_error :
    after State.statusWord (exec .streamError (responseG 17#32 6#16 3#2)) = some 0xB0A#32
      ∧ after State.statusWord (exec .streamError (responseG 18#32 0#16 3#2)) = some 0xE0A#32 := by decide

/-! ## One step: registers and the port -/

/-- V-CMD-14, V-CMD-18, V-CMD-19: STATUS in SINK, ENGINE and SETUP. -/
theorem test_rd_status :
    after State.bus (exec .rdStatus sinkG) = some 0x40001#32 ∧ after State.bus (exec .rdStatus engineG) = some 0x20001#32
      ∧ after State.bus (exec .rdStatus (inPhase .setup)) = some 0x10001#32 := by decide

/-- V-CMD-15: a CMD write while busy sets IGNORED and nothing else. -/
theorem test_wr_cmd_busy :
    after (fun t => (t.statusWord, t.line, t.cmd)) (exec (.wrCmd 1#32) sinkG) = some (0x40011#32, sinkG.line, sinkG.cmd) := by decide

/-- R92's example: 0x00000102 starts DECODE with scale 1. -/
theorem test_wr_cmd_starts :
    after (fun t => (t.statusWord, t.cmd)) (exec (.wrCmd 0x102#32) { State.reset with inBase := 0x1000#32, inLen := 72#32, ctx := 5#32 })
      = some (0x10001#32, ⟨.decode, 1#8, 0x1000#32, 72#32, 5#32⟩) := by decide

/-- V-CMD-12 and V-CMD-13: STATUS 0xD0A written with 2 leaves 0xD08, and 6 written with 0xFFFFFFFD stays. -/
theorem test_wr_status :
    after State.statusWord (exec (.wrStatus 2#32) { State.reset with status := ⟨true, false, true, false, .streamTruncated⟩ })
        = some 0xD08#32
      ∧ after State.statusWord (exec (.wrStatus 0xFFFFFFFD#32) { State.reset with status := ⟨true, true, false, false, .none⟩ })
        = some 6#32 := by decide

/-- R100's example, and V-CMD-20: the operand registers while idle and while busy. -/
theorem test_wr_operands :
    after State.inLen (exec (.wrInLen 69#32) State.reset) = some 69#32
      ∧ after State.inBase (exec (.wrInBase 0x2000#32) State.reset) = some 0x2000#32
      ∧ after State.ctx (exec (.wrCtx 3#32) State.reset) = some 3#32
      ∧ after State.inBase (exec (.wrInBase 0x2000#32) { sinkG with inBase := 0x1000#32 }) = some 0x1000#32 := by decide

/-- V-CMD-24 and V-CMD-25: the line follows IRQ_EN while DONE is set. -/
theorem test_wr_irq_en :
    after State.irq (exec (.wrIrqEn 1#32) { State.reset with status := ⟨true, true, false, false, .none⟩ }) = some true
      ∧ after State.irq (exec (.wrIrqEn 0#32) { State.reset with status := ⟨true, true, false, false, .none⟩, irqEn := true })
        = some false := by decide

/-- Registers with distinct values, as P2's end state has them but for CTX and ROWS. -/
def distinct : State :=
  { State.reset with
    inBase := 0x1000#32, inLen := 110#32, ctx := 0xCAFE#32, irqEn := true
    res := ⟨2#32, 3#32, 0x40608#32, 8#32, 4#32, 5#32, 6#32, 7#32, 0x20004#32⟩ }

/-- R102: each read returns its own register. -/
theorem test_reads :
    ([Instr.rdCmd, .rdInBase, .rdInLen, .rdCtx, .rdIrqEn, .rdWidth, .rdHeight, .rdFmt, .rdStride, .rdOutW, .rdOutH, .rdRows,
        .rdNidat, .rdPaln, .rdCapIdat, .rdCapStride].map fun i => after State.bus (exec i distinct))
      = [some 0#32, some 0x1000#32, some 110#32, some 0xCAFE#32, some 1#32, some 2#32, some 3#32, some 0x40608#32, some 8#32,
        some 4#32, some 5#32, some 6#32, some 7#32, some 0x20004#32, some 0x40#32, some 0x8000#32] := by decide

/-- V-CMD-21 and R103: writes to the read-only registers. -/
theorem test_read_only_writes :
    ([Instr.wrWidth 5#32, .wrHeight 5#32, .wrFmt 5#32, .wrStride 5#32, .wrOutW 5#32, .wrOutH 5#32, .wrRows 5#32, .wrNidat 5#32,
        .wrPaln 5#32, .wrCapIdat 5#32, .wrCapStride 5#32].all fun i => after State.res (exec i distinct) == some distinct.res) = true := by
  decide

/-- V-CMD-22: a reserved offset reads 0. -/
theorem test_reserved_read : after State.bus (exec (.rsvReg (.read 0x044#12 .word)) { distinct with bus := 9#32 }) = some 0#32 := by decide

/-- V-CMD-27 and R171: ROW_ACK in IDLE and in SINK. -/
theorem test_row_ack :
    after State.phase (exec .rowAck State.reset) = some .idle ∧ after State.phase (exec .rowAck sinkG) = some .consume := by decide

/-! ## One step: the machine -/

/-- V-DRV-1 and R130: the engine's answer to G's request. -/
theorem test_engine_step :
    after (fun t => (t.phase, t.dict.read 1, t.drv.fresh))
      (step { engineG with
        engineQ := [⟨⟨17#32, 6#16, 2#2⟩, [0x00#8, 0x11#8, 0x20#8, 0x00#8, 0x30#8, 0x40#8], .image []⟩], turns := [.engine] })
      = some (.consume, 0x11#8, true) := by decide

/-- R138: the command ends when y = H. -/
theorem test_success_step :
    after State.statusWord (step { spanG 6#16 6#16 17#32 2#2 ⟨buf [0#8, 0#8], buf [0#8, 0#8], 0, 0#3, 2⟩ with turns := [.block] })
      = some 6#32 := by decide

/-- V-CMD-29: reset during SINK. -/
theorem test_reset_step :
    after (fun t => (t.phase, t.statusWord, t.res.rows)) (step { sinkG with turns := [.reset] }) = some (.idle, 0#32, 0#32) := by decide

/-- A placed table word is the next step's instruction. -/
theorem test_with_fetch_word :
    after State.statusWord (step (State.reset.withFetchWord 32 3)) = some 0x10A#32
      ∧ after (fun t => t.line.f) (step (State.reset.withFetchWord 8 4)) = some 4#3 := by decide

/-! ## Witnesses: for each statement with hypotheses, a state and operands that meet them, clause by clause -/

theorem witness_EncodedInstructionDecodesBack :
    (Instr.reservedCmd 0x00000101#32).wf = true ∧ (Instr.otherChunk 5#32 0x49444155#32).wf = true
      ∧ (Instr.badFilter 5#8).wf = true ∧ (Instr.unsupportedPixfmt 6#8 9#8).wf = true
      ∧ (Instr.rsvReg (.read 0x044#12 .word)).wf = true ∧ (Instr.decode 0#8).wf = true := by decide

theorem witness_EveryUnitHasOneInstruction : Code.port 1#1 ≠ Code.port 0#1 := by decide

theorem witness_ResetStepSetsItsTable : { sinkG with turns := [.reset] }.turns = .reset :: [] := rfl

/-- Both clauses of the statements that split on BUSY. -/
theorem witness_busy : State.reset.busy = false ∧ sinkG.busy = true ∧ (inPhase .setup).busy = true := by decide

theorem witness_RegisterReadsReturnTheirValues : State.reset.busy = false ∧ sinkG.busy = true := by decide

theorem witness_OperandWritesOnlyWhileIdle : State.reset.busy = false ∧ (inPhase .setup).busy = true := by decide

theorem witness_ReadOnlyAndReservedAccessesChangeNothing :
    Instr.wrWidth 5#32 ∈ [Instr.wrWidth 5#32, .wrCapStride 5#32] ∧ AccessSize.half ≠ .word ∧ (0x003#12).toNat % 4 ≠ 0
      ∧ 0x44 ≤ (0x044#12).toNat ∧ 0x44 ≤ (0xFFC#12).toNat := by decide

theorem witness_CmdWriteStartsOrIsIgnored :
    sinkG.busy = true ∧ State.reset.busy = false ∧ 0x00000001#32 = 0x00000001#32
      ∧ (0x0000FF02#32).extractLsb' 0 8 = 2#8 ∧ (0x0000FF02#32).extractLsb' 16 16 = 0#16 := by decide

/-- V-CMD-2 to V-CMD-6: a word for each disjunct. -/
theorem witness_ReservedCommandFailsAtOnce :
    State.reset.busy = false ∧ ((3#32).extractLsb' 0 4 ≠ 1#4 ∧ (3#32).extractLsb' 0 4 ≠ 2#4)
      ∧ (0x00000012#32).extractLsb' 4 4 ≠ 0#4 ∧ (0x00010102#32).extractLsb' 16 16 ≠ 0#16
      ∧ ((0x00000101#32).extractLsb' 0 4 = 1#4 ∧ (0x00000101#32).extractLsb' 8 8 ≠ 0#8) := by decide

theorem witness_CommandEndsWriteStatus :
    sinkG.status.ignored = false ∧ sinkG.status.fail = false ∧ sinkG.status.cause = .none := by decide

theorem witness_InterruptRisesAndFallsWithDone : distinct.busy = false ∧ distinct.irqEn = true := by decide

theorem witness_RowAckActsOnlyInSink : sinkG.phase = .sink ∧ State.reset.phase ≠ .sink := by decide

/-- A walk whose chunk ends exactly at the window's end, and one with 773 payload bytes (the cap of 256 entries). -/
def walkAt (len : Word) : State := withLen len (walking 3#8 [])

theorem witness_PlteStoresItsTriples :
    (walkAt 48#32).tab.pos + 8 + (7#32).toNat ≤ (walkAt 48#32).cmd.len.toNat ∧ 1 < min ((7#32).toNat / 3) 256
      ∧ ¬2 < min ((7#32).toNat / 3) 256
      ∧ (walkAt 814#32).tab.pos + 8 + (773#32).toNat ≤ (walkAt 814#32).cmd.len.toNat ∧ 255 < min ((773#32).toNat / 3) 256 := by decide

theorem witness_TrnsStoresAlphaOnlyForIndexed :
    (walkAt 43#32).tab.pos + 8 + (2#32).toNat ≤ (walkAt 43#32).cmd.len.toNat ∧ (walkAt 43#32).hdr.c = 3#8
      ∧ (walking 0#8 idatOne).tab.pos + 8 + (1#32).toNat ≤ (walking 0#8 idatOne).cmd.len.toNat
      ∧ (walking 0#8 idatOne).hdr.c ≠ 3#8 ∧ 1 < min (2#32).toNat 256 ∧ ¬2 < min (2#32).toNat 256 := by decide

theorem witness_IdatIsRecordedUpToTheCap :
    (walkAt 41#32).tab.pos + 8 + (0#32).toNat ≤ (walkAt 41#32).cmd.len.toNat
      ∧ (walkAt 42#32).tab.pos + 8 + (1#32).toNat ≤ (walkAt 42#32).cmd.len.toNat := by decide

theorem witness_IendEndsTheWalkAndOthersAreSkipped :
    (walkAt 43#32).tab.pos + 8 + (2#32).toNat ≤ (walkAt 43#32).cmd.len.toNat ∧ (walkAt 43#32).tab.walking = true := by decide

theorem witness_ChunkPastTheInputEndsTheWalk :
    (walkAt 42#32).cmd.len.toNat < (walkAt 42#32).tab.pos + 8 + (2#32).toNat ∧ (walkAt 42#32).tab.walking = true
      ∧ Instr.plte 2#32 ∈ [Instr.plte 2#32, .trns 2#32, .idat 2#32, .otherChunk 2#32 0#32, .ihdr 2#32] := by decide

/-- The IHDR clauses: INFO at 23 and 24 bytes, DECODE at 28 and 29, a length field that is not 13, and a header that is
supported, and one that is not (V-SET-10 to V-SET-22). -/
theorem witness_FirstIhdrIsCheckedAndLoaded :
    (setup .info 0#8 []).tab.walking = false ∧ (withLen 23#32 (setup .info 0#8 [])).cmd.len.toNat < 24
      ∧ ¬(withLen 24#32 (setup .info 0#8 [])).cmd.len.toNat < 24 ∧ (withLen 28#32 (setup .decode 1#8 [])).cmd.len.toNat < 29
      ∧ ¬(withLen 29#32 (setup .decode 1#8 [])).cmd.len.toNat < 29 ∧ (14#32 : Word) ≠ 13#32
      ∧ Claims.UnsupportedHeader (setup .decode 1#8 (png 1#16 1#16 16#8 3#8 0#8 []))
      ∧ ¬Claims.UnsupportedHeader (setup .decode 1#8 (png 1#16 1#16 8#8 3#8 0#8 [])) := by
  unfold Claims.UnsupportedHeader
  decide

/-- Offset 33 needs 41 bytes: one byte less stops the walk. -/
theorem witness_WalkStepRunsTheDecodedChunk :
    (walkAt 41#32).tab.walking = true ∧ (walkAt 41#32).tab.pos + 8 ≤ (walkAt 41#32).cmd.len.toNat
      ∧ (walkAt 40#32).cmd.len.toNat < (walkAt 40#32).tab.pos + 8 := by decide

theorem witness_WalkEndsWithinItsBound : walkFuel (walkAt 41#32) ≤ 5 := by decide

/-- INFO's and DECODE's checks, one state for each branch, at the boundary of each length (V-SET-1 to V-SET-14). -/
theorem witness_InfoReturnsTheDimensions :
    2 ^ 32 < (0xFFFFFFF0#32).toNat + (17#32).toNat ∧ ¬2 ^ 32 < (0xFFFFFFF0#32).toNat + (16#32).toNat
      ∧ (withLen 7#32 (setup .info 0#8 [])).cmd.len.toNat < 8
      ∧ ¬Claims.HasSignature (withLen 8#32 (setup .info 0#8 [0x89#8]))
      ∧ Claims.HasSignature (setup .info 0#8 (png 1#16 1#16 8#8 2#8 0#8 []))
      ∧ (withLen 23#32 (setup .info 0#8 [])).cmd.len.toNat < 24
      ∧ ¬Claims.HasIhdr (setup .info 0#8 (png 1#16 1#16 8#8 2#8 0#8 [] |>.set 11 14#8))
      ∧ Claims.HasIhdr (setup .info 0#8 (png 1#16 1#16 8#8 2#8 0#8 [])) := by
  unfold Claims.HasSignature Claims.HasIhdr
  decide

theorem witness_DecodeChecksInOrder :
    (3#8 ≠ 1#8 ∧ 3#8 ≠ 2#8 ∧ 3#8 ≠ (4#8 : Byte)) ∧ (withLen 28#32 (setup .decode 1#8 [])).cmd.len.toNat < 29
      ∧ Claims.HasSignature (setup .decode 1#8 (png 1#16 1#16 8#8 2#8 1#8 []))
      ∧ Claims.HasIhdr (setup .decode 1#8 (png 1#16 1#16 8#8 2#8 1#8 []))
      ∧ Claims.UnsupportedHeader (setup .decode 1#8 (png 1#16 1#16 8#8 2#8 1#8 [])) := by
  unfold Claims.HasSignature Claims.HasIhdr Claims.UnsupportedHeader
  decide

/-- A DECODE state that meets every premise of the first request's statement. -/
def ready (w : Half) (d c : Byte) (chunks : List Byte) (scale : Byte) : State :=
  setup .decode scale (png w 1#16 d c 0#8 chunks)

/-- The premises on one file. -/
def Ready (s : State) (scale : Byte) : Prop :=
  s.cmd.base.toNat + s.cmd.len.toNat ≤ 2 ^ 32 ∧ (scale = 1#8 ∨ scale = 2#8 ∨ scale = 4#8) ∧ 29 ≤ s.cmd.len.toNat
    ∧ Claims.HasSignature s ∧ Claims.HasIhdr s ∧ ¬Claims.UnsupportedHeader s

/-- The walked state of the statement. -/
def walked (s : State) (scale : Byte) : State :=
  walk (walkFuel s) (walkInit (Claims.headerLoaded { s with cmd := { s.cmd with op := .decode, scale := scale } }))

/-- No IDAT (V-SET-28), output height 0 (V-SET-30), one byte too wide (V-SET-26), and the widest row (V-SET-25). -/
theorem witness_DecodeReachesItsFirstRequest :
    Ready (ready 1#16 8#8 0#8 [] 1#8) 1#8 ∧ Ready (ready 5#16 8#8 0#8 idatOne 2#8) 2#8
      ∧ Ready (ready 4097#16 16#8 6#8 idatOne 1#8) 1#8 ∧ Ready (ready 4096#16 16#8 6#8 idatOne 1#8) 1#8 := by
  unfold Ready Claims.HasSignature Claims.HasIhdr Claims.UnsupportedHeader
  refine ⟨?_, ?_, ?_, ?_⟩ <;> decide

theorem witness_DecodeReachesItsFirstRequest_branches :
    (walked (ready 1#16 8#8 0#8 [] 1#8) 1#8).tab.idx.length = 0
      ∧ (walked (ready 5#16 8#8 0#8 idatOne 2#8) 2#8).tab.idx.length = 1
      ∧ ((ready 5#16 8#8 0#8 idatOne 2#8).be32 20).toNat / 2 = 0
      ∧ (walked (ready 4097#16 16#8 6#8 idatOne 1#8) 1#8).tab.idx.length = 1
      ∧ 32768 < ((ready 4097#16 16#8 6#8 idatOne 1#8).be32 16).toNat * Claims.bppOf 6#8 16#8
      ∧ ((ready 4096#16 16#8 6#8 idatOne 1#8).be32 16).toNat * Claims.bppOf 6#8 16#8 = 32768 := by decide

theorem witness_RequestCarriesTheCurrentSlice :
    engineG.drv.ci.toNat < engineG.tab.idx.length ∧ engineG.tab.idx.length ≤ 64 := by decide

/-- An answer of G's engine. -/
def answerG : Answer := ⟨⟨17#32, 6#16, 2#2⟩, [0x00#8, 0x10#8, 0x20#8, 0x00#8, 0x30#8, 0x40#8], .image []⟩

theorem witness_EngineStepWritesItsSlice :
    { engineG with turns := [.engine], engineQ := [answerG] }.turns = .engine :: []
      ∧ { engineG with turns := [.engine], engineQ := [answerG] }.engineQ = answerG :: [] ∧ engineG.phase = .engine
      ∧ answerInSlice engineG.drv.req answerG = true := by decide

theorem witness_EngineAnswersOutOfTurnChangeNothing :
    sinkG.phase ≠ .engine ∧ engineG.phase = .engine
      ∧ answerInSlice engineG.drv.req { answerG with bytes := [0#8] } = false := by decide

theorem witness_ResponseInBoundsIsTaken :
    (responseG 17#32 32768#16 2#2).drv.fresh = true
      ∧ (responseG 17#32 32768#16 2#2).drv.resp.consumed.toNat ≤ (responseG 17#32 32768#16 2#2).drv.req.inLen.toNat
      ∧ (responseG 17#32 32768#16 2#2).drv.resp.written.toNat ≤ (responseG 17#32 32768#16 2#2).drv.req.outCap.toNat
      ∧ (responseG 17#32 32768#16 2#2).drv.dictOfs.toNat + (responseG 17#32 32768#16 2#2).drv.resp.written.toNat ≤ 32768
      ∧ Instr.streamDone ∈ [Instr.needMoreInput, .hasMoreOutput, .streamDone] := by decide

/-- V-DRV-7, V-DRV-8 and V-DRV-4. -/
theorem witness_BadResponsesFail :
    (responseG 18#32 0#16 0#2).drv.req.inLen.toNat < (responseG 18#32 0#16 0#2).drv.resp.consumed.toNat
      ∧ (responseG 0#32 32769#16 1#2).drv.req.outCap.toNat < (responseG 0#32 32769#16 1#2).drv.resp.written.toNat
      ∧ (responseG 0#32 32769#16 1#2).drv.fresh = true
      ∧ (responseG 17#32 6#16 3#2).drv.resp.consumed.toNat ≤ (responseG 17#32 6#16 3#2).drv.req.inLen.toNat
      ∧ (responseG 17#32 6#16 3#2).drv.resp.written.toNat ≤ (responseG 17#32 6#16 3#2).drv.req.outCap.toNat := by decide

/-- The branches of R139 and R140: no input left (V-DRV-6), input left without progress (V-DRV-9), input left with progress
(V-DRV-11), and a second IDAT to move to (program P2). -/
theorem witness_SpanEndGoesOnOrFails :
    let none := spanG 3#16 3#16 17#32 0#2 lineG
    let stalled := spanG 0#16 0#16 0#32 0#2 lineG
    let two := { stalled with tab := { stalled.tab with idx := [⟨41#32, 0#32⟩, ⟨54#32, 1#32⟩] } }
    none.drv.fresh = false ∧ none.left = 0 ∧ none.laterIdat = false
      ∧ stalled.drv.fresh = false ∧ 0 < stalled.left ∧ stalled.drv.resp.consumed = 0#32 ∧ stalled.drv.resp.written = 0#16
      ∧ ¬(none.drv.resp.consumed = 0#32 ∧ none.drv.resp.written = 0#16)
      ∧ two.drv.curOfs = (two.tab.idx.getD two.drv.ci.toNat ⟨0#32, 0#32⟩).len ∧ two.drv.ci.toNat + 1 < two.tab.idx.length := by
  decide

theorem witness_FilterByteIsLatched :
    Claims.filterTable.length = 5 ∧ (spanG 0#16 6#16 17#32 2#2 lineG).line.slPos = 0 := by decide

/-- A data byte that is not the last of its row, and the last one. -/
theorem witness_DataByteIsReconstructed :
    0 < (atSecond 1#8 1#8 1#3).line.slPos ∧ (atSecond 1#8 1#8 1#3).line.slPos ≠ (atSecond 1#8 1#8 1#3).hdr.stride := by decide

theorem witness_LastDataByteRunsThePixelFormat :
    0 < (spanG 2#16 6#16 17#32 2#2 ⟨buf [0x10#8, 0#8], buf [0#8, 0#8], 2, 0#3, 0⟩).line.slPos
      ∧ (spanG 2#16 6#16 17#32 2#2 ⟨buf [0x10#8, 0#8], buf [0#8, 0#8], 2, 0#3, 0⟩).line.slPos = engineG.hdr.stride := by decide

/-- Both comparison clauses of Paeth: a wins a tie (V-FIL-8), and b beats c. -/
theorem witness_PaethPicksTheClosestNeighbour :
    let dist := fun (a b c v : Byte) => ((a.toNat : Int) + b.toNat - c.toNat - v.toNat).natAbs
    dist 255#8 255#8 0#8 255#8 ≤ dist 255#8 255#8 0#8 255#8 ∧ dist 255#8 255#8 0#8 255#8 ≤ dist 255#8 255#8 0#8 0#8
      ∧ dist 10#8 20#8 10#8 20#8 < dist 10#8 20#8 10#8 10#8 ∧ dist 10#8 20#8 10#8 20#8 ≤ dist 10#8 20#8 10#8 10#8 := by decide

theorem witness_DirectRowIsPackedAndPresented :
    Claims.formatTable.length = 9 ∧ (rowOf [0x80#8] [] 0#8 8#8).cmd.scale = 1#8 := by decide

/-- Scenario S3's accumulator. -/
def accS3 : List Sum := [⟨0#16, 0#16, 0#16⟩, ⟨0#16, 0#16, 0#16⟩]

/-- Row 0 of S3 does not end its block row; a row 4 would be past the last whole one; before row 0 no slot holds anything. -/
theorem witness_BlockRowIsAccumulated :
    (rowS3 [0#8] 0 accS3).cmd.scale = 2#8 ∧ 1 < (rowS3 [0#8] 0 accS3).hdr.outW.toNat
      ∧ (sumAt (rowS3 [0#8] 0 accS3).pix.acc 1).AtMost (255 * 2 * (0 % 2))
      ∧ (rowS3 [0#8] 4 accS3).hdr.outH.toNat * (rowS3 [0#8] 4 accS3).cmd.scale.toNat ≤ (rowS3 [0#8] 4 accS3).line.y
      ∧ (rowS3 [0#8] 0 accS3).line.y < (rowS3 [0#8] 0 accS3).hdr.outH.toNat * (rowS3 [0#8] 0 accS3).cmd.scale.toNat
      ∧ (rowS3 [0#8] 0 accS3).line.y % (rowS3 [0#8] 0 accS3).cmd.scale.toNat ≠ (rowS3 [0#8] 0 accS3).cmd.scale.toNat - 1 := by
  unfold Sum.AtMost
  decide

theorem witness_BlockRowEndEmitsTheMeans :
    (rowS3 [0#8] 3 accS3).cmd.scale = 2#8 ∧ 1 < (rowS3 [0#8] 3 accS3).hdr.outW.toNat
      ∧ (sumAt (buf [⟨510#16, 0#16, 510#16⟩]) 0).AtMost (255 * 2 * (2 - 1))
      ∧ (rowS3 [0#8] 3 accS3).line.y < (rowS3 [0#8] 3 accS3).hdr.outH.toNat * (rowS3 [0#8] 3 accS3).cmd.scale.toNat
      ∧ (rowS3 [0#8] 3 accS3).line.y % (rowS3 [0#8] 3 accS3).cmd.scale.toNat = (rowS3 [0#8] 3 accS3).cmd.scale.toNat - 1 := by
  unfold Sum.AtMost
  decide

theorem witness_AlphaNeverReachesTheOutput :
    ∃ t u, exec .indexed8 (rowOf [2#8] palS3 3#8 8#8) = .next t
      ∧ exec .indexed8 { rowOf [2#8] palS3 3#8 8#8 with tab := { (rowOf [2#8] palS3 3#8 8#8).tab with alpha := [7#8] } } = .next u :=
  ⟨_, _, rfl, rfl⟩

/-- A state whose next turn is the host's, with one move. -/
def hostTurn (s : State) (m : HostMove) : State := { s with turns := [.host], hostQ := [m] }

/-- An access, an acknowledgement, and each behind a write that waits. -/
theorem witness_HostTurnRunsTheDecodedAccess :
    (∀ w ∈ [HostMove.writeInput 0x104A#32 9#8], sinkG.waits w = true) ∧
    (hostTurn sinkG (.access (.read 4#12 .word))).turns = .host :: []
      ∧ (hostTurn sinkG (.access (.read 4#12 .word))).hostQ = .access (.read 4#12 .word) :: []
      ∧ decode (.reg (.read 4#12 .word)) = .ok .rdStatus ∧ (hostTurn sinkG .rowAck).hostQ = .rowAck :: [] := by decide

/-- SETUP, and in CONSUME a fresh response, y = H, a span byte, and the end of a span. -/
theorem witness_BlockTurnRunsTheDecodedUnit :
    { inPhase .setup with turns := [.block] }.turns = .block :: [] ∧ (inPhase .setup).phase = .setup
      ∧ (responseG 17#32 6#16 2#2).phase = .consume ∧ (responseG 17#32 6#16 2#2).drv.fresh = true
      ∧ decode (.istat (responseG 17#32 6#16 2#2).drv.resp.status) = .ok .streamDone
      ∧ decode (.filt ((spanG 0#16 6#16 17#32 2#2 lineG).dict.read 0)) = .ok .filtNone
      ∧ (spanG 0#16 6#16 17#32 2#2 lineG).drv.spPos.toNat < (spanG 0#16 6#16 17#32 2#2 lineG).drv.spEnd.toNat
      ∧ ¬(spanG 6#16 6#16 17#32 2#2 lineG).drv.spPos.toNat < (spanG 6#16 6#16 17#32 2#2 lineG).drv.spEnd.toNat
      ∧ (spanG 6#16 6#16 17#32 2#2 { lineG with y := 2 }).line.y
        = (spanG 6#16 6#16 17#32 2#2 { lineG with y := 2 }).hdr.h.toNat := by decide

theorem witness_UnscheduledTurnsFollowThePhase :
    (inPhase .setup).turns = [] ∧ (inPhase .setup).phase = .setup ∧ engineG.turns = [] ∧ engineG.phase = .engine
      ∧ engineG.engineQ = [] ∧ engineG.hostQ = [] ∧ { engineG with engineQ := [answerG] }.engineQ ≠ []
      ∧ sinkG.waits .rowAck = false ∧ engineG.waits (.writeInput 0x104A#32 9#8) = true ∧ State.reset.turns = [] ∧ State.reset.phase = .idle
      ∧ State.reset.hostQ = [] ∧ sinkG.phase = .sink := by decide

/-- Busy, the first and last byte of G's window and the bytes beside it, which wait; idle, nothing waits. -/
theorem witness_HostInputWritesRespectTheWindow :
    (hostTurn sinkG (.writeInput 0x1000#32 9#8)).turns = .host :: []
      ∧ (hostTurn sinkG (.writeInput 0x1000#32 9#8)).hostQ = [] ++ .writeInput 0x1000#32 9#8 :: [] ∧ sinkG.busy = true
      ∧ sinkG.cmd.base.toNat ≤ (0x1000#32).toNat ∧ (0x1049#32).toNat < sinkG.cmd.base.toNat + sinkG.cmd.len.toNat
      ∧ ¬(0x104A#32).toNat < sinkG.cmd.base.toNat + sinkG.cmd.len.toNat ∧ ¬sinkG.cmd.base.toNat ≤ (0x0FFF#32).toNat
      ∧ sinkG.waits (.writeInput 0x104A#32 9#8) = true ∧ sinkG.waits (.writeInput 0x0FFF#32 9#8) = true
      ∧ State.reset.busy = false ∧ Memory.wf State.reset.mem = true := by decide

/-- A write outside the window waits behind an acknowledgement and lands when the command has ended (R90, R193). -/
theorem test_waiting_write :
    after (fun t => (t.phase, t.mem, t.hostQ))
        (step { sinkG with turns := [.host], hostQ := [.writeInput 0x104A#32 9#8, .rowAck] })
      = some (.consume, [], [.writeInput 0x104A#32 9#8])
      ∧ after State.mem (step (hostTurn State.reset (.writeInput 0x104A#32 9#8))) = some [(0x104A, 9#8)] := by decide

theorem witness_RowWordsAreReadOnlyInSink :
    (hostTurn sinkG (.readRow 1#32)).turns = .host :: [] ∧ (hostTurn sinkG (.readRow 1#32)).hostQ = .readRow 1#32 :: []
      ∧ sinkG.phase = .sink ∧ (1#32).toNat < sinkG.hdr.outW.toNat ∧ sinkG.hdr.outW.toNat ≤ (2#32).toNat
      ∧ engineG.phase ≠ .sink := by decide

theorem witness_InstructionsKeepWhatTheyDoNotName :
    (∃ t, exec .rowAck sinkG = .next t) ∧ (∀ v, Instr.rowAck ≠ .wrInBase v) ∧ ∀ a, encode .rowAck ≠ .reg a :=
  ⟨⟨_, rfl⟩, fun _ h => (nomatch h), fun _ h => (nomatch h)⟩

theorem witness_BlockNeverWritesDict :
    ∃ t, exec .filtNone (spanG 0#16 6#16 17#32 2#2 lineG) = .next t ∧ (spanG 0#16 6#16 17#32 2#2 lineG).streaming = true
      ∧ (∀ scale, Instr.filtNone ≠ .decode scale) ∧ t.busy = true :=
  ⟨_, rfl, rfl, fun _ h => (nomatch h), rfl⟩

/-- A step from each phase of G that is no reset. -/
theorem witness_PhaseFollowsItsTransitions :
    sinkG.turns.head? ≠ some .reset ∧ (after State.phase (step (hostTurn sinkG .rowAck))).isSome = true
      ∧ (after State.phase (step (spanG 0#16 6#16 17#32 2#2 lineG))).isSome = true
      ∧ (after State.phase (step { engineG with engineQ := [answerG] })).isSome = true := by decide

theorem witness_StatusInvariantIsKept :
    sinkG.StatusInv ∧ engineG.StatusInv ∧ (after State.phase (step (hostTurn sinkG .rowAck))).isSome = true := by
  unfold State.StatusInv
  decide

/-- A host write to INPUT, which changes it, and a step that does not. -/
theorem witness_InputIsChangedByTheHostOnly :
    Memory.wf State.reset.mem = true
      ∧ after State.mem (step (hostTurn State.reset (.writeInput 5#32 9#8))) = some [(5, 9#8)] := by decide

theorem witness_RowNumberingIsKept : sinkG.RowsInv ∧ ∃ t, step (hostTurn sinkG .rowAck) = .next t := by
  refine ⟨⟨rfl, (fun h => nomatch h), fun k row h => ?_⟩, _, rfl⟩
  cases k with
  | zero => cases h; rfl
  | succ k => cases k <;> cases h

/-- An outstanding request, a span, and a presented row. -/
theorem witness_InputWindowInvariantIsKept :
    engineG.InputInv ∧ (spanG 0#16 6#16 17#32 2#2 lineG).InputInv ∧ sinkG.InputInv
      ∧ (after State.phase (step { engineG with engineQ := [answerG] })).isSome = true := by
  unfold State.InputInv
  refine ⟨?_, ?_, ?_, ?_⟩ <;> decide

theorem witness_DictionaryInvariantIsKept :
    engineG.DictInv ∧ (spanG 0#16 6#16 17#32 2#2 lineG).DictInv ∧ sinkG.DictInv
      ∧ (after State.phase (step { engineG with engineQ := [answerG] })).isSome = true := by
  unfold State.DictInv
  refine ⟨?_, ?_, ?_, ?_⟩ <;> decide

/-- An outstanding request, a byte that ends a row, a presented row, and row 1 of S3 with sums at its bound. -/
theorem witness_LineInvariantIsKept :
    (engineG.LineInv ∧ (spanG 2#16 6#16 17#32 2#2 ⟨buf [0x10#8, 0#8], buf [0#8, 0#8], 2, 0#3, 0⟩).LineInv ∧ sinkG.LineInv)
      ∧ (engineG.PixelInv ∧ (spanG 2#16 6#16 17#32 2#2 ⟨buf [0x10#8, 0#8], buf [0#8, 0#8], 2, 0#3, 0⟩).PixelInv ∧ sinkG.PixelInv)
      ∧ (rowS3 [0#8] 1 [⟨510#16, 0#16, 510#16⟩, ⟨0#16, 510#16, 0#16⟩]).PixelInv
      ∧ (after State.phase (step (spanG 2#16 6#16 17#32 2#2 ⟨buf [0x10#8, 0#8], buf [0#8, 0#8], 2, 0#3, 0⟩))).isSome = true := by
  unfold State.LineInv State.PixelInv Sum.AtMost
  refine ⟨⟨?_, ?_, ?_⟩, ⟨?_, ?_, ?_⟩, ?_, ?_⟩ <;> decide

theorem witness_OperandsAreStableWhileBusy :
    sinkG.turns.head? ≠ some .reset ∧ sinkG.busy = true
      ∧ after State.busy (step (hostTurn sinkG (.access (.write 8#12 .word 5#32)))) = some true := by decide

theorem witness_DecodeSucceedsOnlyWhenComplete :
    (spanG 6#16 6#16 17#32 2#2 { lineG with y := 2 }).streaming = true
      ∧ (spanG 6#16 6#16 17#32 2#2 { lineG with y := 2 }).status.ok = false
      ∧ after (fun t => t.status.ok) (step (spanG 6#16 6#16 17#32 2#2 { lineG with y := 2 })) = some true := by decide

end Sys2Proof.Tests
end

section
/-! PROOFS. The register accesses that start no command, and the row sink port's acknowledgement (R98 to R101, R103 to R105). -/

namespace Sys2Proof.Machine

/-! ## What each operation does, case by case -/

theorem writeOperand_idle (put : State → State) {s : State} (h : s.busy = false) : writeOperand put s = put s := by
  simp [writeOperand, h]

theorem writeOperand_busy (put : State → State) {s : State} (h : s.busy = true) : writeOperand put s = s := by
  simp [writeOperand, h]

theorem acknowledgeRow_sink {s : State} (h : s.phase = .sink) : acknowledgeRow s = { s with phase := .consume } :=
  if_pos h

theorem acknowledgeRow_of_ne_sink {s : State} (h : s.phase ≠ .sink) : acknowledgeRow s = s :=
  if_neg h

/-- A flag cleared by `and not`, as a case split on the clearing bit. -/
theorem and_not_eq_ite (flag clear : Bool) : (flag && !clear) = if clear then false else flag := by
  cases clear <;> simp

/-! ## Accesses that reach no register -/

theorem reservedAccess_read_iff (offset : BitVec 12) (size : AccessSize) :
    reservedAccess (.read offset size) = true ↔ size ≠ .word ∨ offset.toNat % 4 ≠ 0 ∨ 0x44 ≤ offset.toNat := by
  simp [reservedAccess, bitvec_eq_iff_toNat, BitVec.le_def, or_assoc]

theorem reservedAccess_write (offset : BitVec 12) (size : AccessSize) (v : Word) :
    reservedAccess (.write offset size v) = reservedAccess (.read offset size) := rfl

/-- The row of a register is no row of a reserved access. -/
theorem RowOf.not_reserved {a : Access} {o : BitVec 12} {i : Instr} (h : RowOf a o i) :
    reservedAccess (.read o .word) = false := by
  obtain ⟨-, -, haligned, hbelow⟩ := h
  simpa [reservedAccess, haligned, BitVec.not_le] using hbelow

theorem readRow?_reserved {o : BitVec 12} (h : reservedAccess (.read o .word) = true) : readRow? o = none := by
  cases hr : readRow? o with
  | none => rfl
  | some i => rw [(readRow?_spec hr).not_reserved] at h; cases h

theorem writeRow?_reserved {o : BitVec 12} (v : Word) (h : reservedAccess (.read o .word) = true) :
    writeRow? o v = none := by
  cases hr : writeRow? o v with
  | none => rfl
  | some i => rw [(writeRow?_spec hr).not_reserved] at h; cases h

/-- R104: an access that reaches no register decodes to RSV_REG. -/
theorem decodeReg_reserved {a : Access} (h : reservedAccess a = true) : decodeReg a = .rsvReg a := by
  cases a with
  | read offset size =>
    cases size with
    | byte => rfl
    | half => rfl
    | word => simp [decodeReg, readRow?_reserved h]
  | write offset size v =>
    cases size with
    | byte => rfl
    | half => rfl
    | word => simp [decodeReg, writeRow?_reserved v h]

/-- Settles O10: the eleven writes of R103 ignore their word; R104's accesses are the reserved ones of the decoder. -/
theorem readOnlyAndReservedAccessesChangeNothing : Obligations.ReadOnlyAndReservedAccessesChangeNothing := by
  intro s v
  constructor
  · simp only [List.forall_mem_cons]
    exact ⟨rfl, rfl, rfl, rfl, rfl, rfl, rfl, rfl, rfl, rfl, rfl, nofun⟩
  · intro offset size h
    have hr := (reservedAccess_read_iff offset size).mpr h
    exact ⟨decodeReg_reserved hr, decodeReg_reserved ((reservedAccess_write offset size v).trans hr), rfl, rfl⟩

/-! ## STATUS -/

/-- Bit `i` of a word as a digit of its number. -/
theorem getLsbD_eq_iff {n : Nat} (w : BitVec n) (i : Nat) (b : Bool) : w.getLsbD i = b ↔ w.toNat / 2 ^ i % 2 = b.toNat := by
  rw [BitVec.getLsbD, Nat.testBit_eq_decide_div_mod_eq]
  cases b <;> simp

/-- R21's fields at their weights; the reserved bits weigh nothing. -/
theorem statusWord_toNat (s : State) :
    s.statusWord.toNat = s.phase.code.toNat * 2 ^ 16 + s.status.cause.code.toNat * 2 ^ 8 + s.status.ignored.toNat * 2 ^ 4
      + s.status.fail.toNat * 2 ^ 3 + s.status.ok.toNat * 2 ^ 2 + s.status.done.toNat * 2 + s.busy.toNat := by
  simp only [State.statusWord, toNat_append_add, BitVec.toNat_ofBool, BitVec.toNat_ofNat]
  omega

/-- Settles O5: the value read is the STATUS word, and each field is a digit of its number. -/
theorem statusReadReturnsItsFields : Obligations.StatusReadReturnsItsFields := by
  intro s
  have hphase := s.phase.code.isLt
  have hcause := s.status.cause.code.isLt
  have hignored := s.status.ignored.toNat_lt
  have hfail := s.status.fail.toNat_lt
  have hok := s.status.ok.toNat_lt
  have hdone := s.status.done.toNat_lt
  have hbusy := s.busy.toNat_lt
  refine ⟨s.statusWord, rfl, ?_⟩
  simp only [getLsbD_eq_iff, bitvec_eq_iff_toNat, toNat_field, statusWord_toNat, BitVec.toNat_ofNat]
  omega

/-- Settles O8: `writeStatus` clears with `and not`, a split on the bit of the word. -/
theorem statusWriteClearsOnlyItsOnes : Obligations.StatusWriteClearsOnlyItsOnes := by
  intro s v
  simp only [← and_not_eq_ite]
  rfl

/-! ## The writable registers and the row sink port -/

/-- Settles O7: the three writes are `writeOperand`, which BUSY decides. -/
theorem operandWritesOnlyWhileIdle : Obligations.OperandWritesOnlyWhileIdle := by
  intro s v
  constructor <;> intro hbusy
  · simp only [exec, execWrInBase, execWrInLen, execWrCtx, writeOperand_idle _ hbusy, and_self]
  · simp only [exec, execWrInBase, execWrInLen, execWrCtx, writeOperand_busy _ hbusy, and_self]

/-- Settles O9: IRQ_EN's write has no guard, and the interrupt line is a view of DONE and E. -/
theorem irqEnableIsWrittenAtAnyTime : Obligations.IrqEnableIsWrittenAtAnyTime := by
  intro s v
  exact ⟨_, rfl, rfl, rfl⟩

/-- Settles O15: the acknowledgement is `acknowledgeRow`, which the phase decides. -/
theorem rowAckActsOnlyInSink : Obligations.RowAckActsOnlyInSink := by
  intro s
  constructor <;> intro hphase
  · simp only [exec, execRowAck, acknowledgeRow_sink hphase]
  · simp only [exec, execRowAck, acknowledgeRow_of_ne_sink hphase]

end Sys2Proof.Machine
end

section
/-! PROOFS. The chunk scanner: the chunks of the walk, the IHDR stage, and INFO and DECODE around them (R106 to R126). -/

namespace Sys2Proof.Machine

/-! ## The chunks of the walk (R116 to R122) -/

/-- R117, R122: a chunk inside the input does its work and advances `pos`. -/
theorem chunkStep_inside {len : Word} {s : State} (work : Nat → State → State)
    (h : s.tab.pos + 8 + len.toNat ≤ s.cmd.len.toNat) :
    chunkStep len work s = walkAdvance len (work (s.tab.pos + 8) s) :=
  if_neg (Nat.not_lt.mpr h)

/-- R117: a chunk past the input ends the walk. -/
theorem chunkStep_past {len : Word} {s : State} (work : Nat → State → State)
    (h : s.cmd.len.toNat < s.tab.pos + 8 + len.toNat) : chunkStep len work s = walkStop s :=
  if_pos h

theorem exec_ihdr_walking {s : State} (len : Word) (h : s.tab.walking = true) :
    exec (.ihdr len) s = .next (skipStep len s) := by
  simp only [exec, execIhdr, h, if_true]

theorem exec_ihdr_first {s : State} (len : Word) (h : s.tab.walking = false) :
    exec (.ihdr len) s = .next (ihdrFirst s.cmd.op len s).settle := by
  simp only [exec, execIhdr, h, Bool.false_eq_true, if_false]

/-- A list whose first `n` entries are overwritten (R118, R119). -/
theorem getElem?_overwrite {α : Type} (f : Nat → α) (l : List α) (n k : Nat) :
    ((List.range n).map f ++ l.drop n)[k]? = if k < n then some (f k) else l[k]? := by
  split
  · next hk => rw [List.getElem?_append_left (by simpa using hk)]; simp [hk]
  · next hk =>
    rw [List.getElem?_append_right (by simpa using hk), List.getElem?_drop]
    congr 1
    simp only [List.length_map, List.length_range]
    omega

/-- Settles O16: `plteWork` overwrites the first entries of `Pal`. -/
theorem plteStoresItsTriples : Obligations.PlteStoresItsTriples := by
  intro s len h
  refine ⟨plteStep len s, rfl, ?_⟩
  rw [plteStep, chunkStep_inside _ h]
  exact ⟨rfl, getElem?_overwrite _ _ _⟩

theorem trnsWork_other {s : State} (len : Word) (p : Nat) (h : s.hdr.c ≠ 3#8) : trnsWork len p s = s :=
  if_neg h

theorem trnsWork_indexed {s : State} (len : Word) (p : Nat) (h : s.hdr.c = 3#8) :
    trnsWork len p s = { s with tab := { s.tab with
      alpha := (List.range (min len.toNat 256)).map (fun k => s.inByte (p + k)) ++ s.tab.alpha.drop (min len.toNat 256)
      trnsN := BitVec.ofNat 9 (min len.toNat 256) } } :=
  if_pos h

/-- Settles O17: `trnsWork` overwrites the first entries of `Alpha` for C = 3 and does nothing otherwise. -/
theorem trnsStoresAlphaOnlyForIndexed : Obligations.TrnsStoresAlphaOnlyForIndexed := by
  intro s len h
  constructor <;> intro hc
  · simp only [exec, execTrns, trnsStep, chunkStep_inside _ h, trnsWork_other len _ hc]
    rfl
  · refine ⟨trnsStep len s, rfl, ?_⟩
    rw [trnsStep, chunkStep_inside _ h, trnsWork_indexed len _ hc]
    exact ⟨rfl, getElem?_overwrite _ _ _⟩

theorem idatWork_eq (len : Word) (p : Nat) (s : State) :
    idatWork len p s = { s with tab := { s.tab with
      idx := if s.tab.idx.length < 64 then s.tab.idx ++ [⟨BitVec.ofNat 32 p, len⟩] else s.tab.idx } } := by
  by_cases hcap : s.tab.idx.length < 64
  · rw [if_pos hcap]; exact if_pos hcap
  · rw [if_neg hcap]; exact if_neg hcap

/-- Settles O18: `idatWork` appends below the cap of 64. -/
theorem idatIsRecordedUpToTheCap : Obligations.IdatIsRecordedUpToTheCap := by
  intro s len h
  simp only [exec, execIdat, idatStep, chunkStep_inside _ h, idatWork_eq]
  rfl

/-- Settles O19: IEND is `walkStop`, and the other types are `skipStep`, whose work is none. -/
theorem iendEndsTheWalkAndOthersAreSkipped : Obligations.IendEndsTheWalkAndOthersAreSkipped := by
  intro s len type
  refine ⟨rfl, fun h => ?_⟩
  have hskip : skipStep len s = { s with tab := { s.tab with pos := s.tab.pos + 12 + len.toNat } } :=
    chunkStep_inside skipWork h
  exact ⟨congrArg _ hskip, fun hw => (exec_ihdr_walking len hw).trans (congrArg _ hskip)⟩

/-- Settles O20: all five chunks are a `chunkStep`, which stops the walk before its work. -/
theorem chunkPastTheInputEndsTheWalk : Obligations.ChunkPastTheInputEndsTheWalk := by
  intro s len type h hw
  have hstop (work : Nat → State → State) :
      Host.Outcome.next (φ := Fault) (ρ := Refusal) (chunkStep len work s) = .next (walkStop s) :=
    congrArg _ (chunkStep_past work h)
  simp only [List.forall_mem_cons]
  exact ⟨hstop _, hstop _, hstop _, hstop _, (exec_ihdr_walking len hw).trans (hstop _), nofun⟩

/-! ## Failures and successes of SETUP (R176, R177) -/

/-- A failure of a SETUP step, whatever command word was latched: the result registers are those loaded so far. -/
theorem failedWith_raiseFatal {s u : State} {cmd : Latched} (c : Cause) (h : KeepsOutsideSetup { s with cmd := cmd } u) :
    FailedWith c u.res s (raiseFatal c u) := by
  rw [h.1]
  exact ⟨rfl, rfl, rfl, rfl, rfl, rfl, rfl, rfl, rfl, rfl, rfl, rfl, rfl, rfl⟩

/-! ## The IHDR stage (R108, R111 to R113) -/

/-- R112's conditions on C and D, field by field. -/
theorem supportedPair_eq_false_iff (c d : Byte) :
    supportedPair c d = false ↔ (d ≠ 8#8 ∧ d ≠ 16#8) ∨ (c ≠ 0#8 ∧ c ≠ 2#8 ∧ c ≠ 3#8 ∧ c ≠ 4#8 ∧ c ≠ 6#8)
      ∨ (c = 3#8 ∧ d = 16#8) := by
  simp only [supportedPair, Bool.and_eq_false_iff, Bool.or_eq_false_iff, beq_eq_false_iff_ne, Bool.not_eq_false',
    Bool.and_eq_true, beq_iff_eq, or_assoc, and_assoc]

/-- R112's condition, read from the file. -/
theorem headerBad_loadHeader_iff (s : State) : headerBad (loadHeader s) = true ↔ Claims.UnsupportedHeader s := by
  simp only [headerBad, formatSupported_eq, Bool.or_eq_true, Bool.not_eq_true', beq_iff_eq, bne_iff_ne, decide_eq_true_eq,
    supportedPair_eq_false_iff, or_assoc]
  rfl

/-- R113 after R111 is the loaded header of the claims. -/
theorem loadBpp_loadHeader (s : State) : loadBpp (loadHeader s) = Claims.headerLoaded s := by
  have hfmt := fmt_fields s.res.fmt (bytesPerPixel (s.inByte 25) (s.inByte 24)) (s.inByte 25) (s.inByte 24)
  simp only [loadBpp, loadHeader, hfmt]
  rfl

theorem ihdrFirst_short {op : CmdOp} {s : State} (len : Word) (h : s.cmd.len.toNat < ihdrMinLen op) :
    ihdrFirst op len s = .fail .truncatedInput s := by
  rw [ihdrFirst, failIf_true _ _ (by simpa using h), Work.andThen_fail]

theorem ihdrFirst_badLength {op : CmdOp} {len : Word} {s : State} (h : ihdrMinLen op ≤ s.cmd.len.toNat)
    (hlen : len ≠ 13#32) : ihdrFirst op len s = .fail .badIhdr s := by
  rw [ihdrFirst, failIf_false _ _ (by simpa using h), Work.andThen_ok, failIf_true _ _ (by simpa using hlen),
    Work.andThen_fail]

theorem ihdrFirst_info {s : State} (h : ihdrMinLen .info ≤ s.cmd.len.toNat) : ihdrFirst .info 13#32 s = .ok s := by
  rw [ihdrFirst, failIf_false _ _ (decide_eq_false (Nat.not_lt.mpr h)), Work.andThen_ok, failIf_false _ _ (by decide)]
  rfl

theorem ihdrFirst_decode {s : State} (h : ihdrMinLen .decode ≤ s.cmd.len.toNat) :
    ihdrFirst .decode 13#32 s =
      (failIf (headerBad (loadHeader s)) .unsupportedIhdr (loadHeader s)).andThen fun s => .ok (loadBpp s) := by
  rw [ihdrFirst, failIf_false _ _ (decide_eq_false (Nat.not_lt.mpr h)), Work.andThen_ok, failIf_false _ _ (by decide)]
  rfl

theorem ihdrFirst_unsupported {s : State} (h : ihdrMinLen .decode ≤ s.cmd.len.toNat) (hbad : Claims.UnsupportedHeader s) :
    ihdrFirst .decode 13#32 s = .fail .unsupportedIhdr (loadHeader s) := by
  rw [ihdrFirst_decode h, failIf_true _ _ ((headerBad_loadHeader_iff s).mpr hbad), Work.andThen_fail]

theorem ihdrFirst_supported {s : State} (h : ihdrMinLen .decode ≤ s.cmd.len.toNat) (hgood : ¬Claims.UnsupportedHeader s) :
    ihdrFirst .decode 13#32 s = .ok (Claims.headerLoaded s) := by
  have hbad : headerBad (loadHeader s) = false := Bool.eq_false_iff.mpr fun hb => hgood ((headerBad_loadHeader_iff s).mp hb)
  rw [ihdrFirst_decode h, failIf_false _ _ hbad, Work.andThen_ok, loadBpp_loadHeader]

/-- Settles O21, along the order of `ihdrFirst`'s checks. -/
theorem firstIhdrIsCheckedAndLoaded : Obligations.FirstIhdrIsCheckedAndLoaded := by
  intro s len hw
  refine ⟨_, exec_ihdr_first len hw, ?_⟩
  have hmin : (if s.cmd.op = .info then 24 else 29) = ihdrMinLen s.cmd.op := by cases s.cmd.op <;> rfl
  rw [hmin]
  split
  · next hshort => rw [ihdrFirst_short len hshort]; exact failedWith_raiseFatal _ (.refl s)
  next hlong =>
  split
  · next hlen => rw [ihdrFirst_badLength (Nat.le_of_not_lt hlong) hlen]; exact failedWith_raiseFatal _ (.refl s)
  next hlen =>
  obtain rfl := not_not.mp hlen
  cases hop : s.cmd.op with
  | info =>
    rw [hop] at hlong
    rw [if_pos rfl, ihdrFirst_info (Nat.le_of_not_lt hlong), Work.settle_ok]
  | decode =>
    rw [hop] at hlong
    rw [if_neg nofun]
    constructor <;> intro hhdr
    · rw [ihdrFirst_unsupported (Nat.le_of_not_lt hlong) hhdr]
      exact failedWith_raiseFatal _ (keepsOutsideSetup_loadHeader s)
    · rw [ihdrFirst_supported (Nat.le_of_not_lt hlong) hhdr, Work.settle_ok]

/-! ## The checks before the IHDR stage (R106 to R108) -/

theorem windowCheck_past {s : State} (h : 2 ^ 32 < s.cmd.base.toNat + s.cmd.len.toNat) :
    windowCheck s = .fail .badBuffer s :=
  failIf_true _ _ (decide_eq_true h)

theorem windowCheck_inside {s : State} (h : s.cmd.base.toNat + s.cmd.len.toNat ≤ 2 ^ 32) : windowCheck s = .ok s :=
  failIf_false _ _ (decide_eq_false (Nat.not_lt.mpr h))

/-- The signature gate's eight bytes are the two words of R72. -/
theorem signature_iff (s : State) : (List.range 8).map s.inByte = signature ↔ Claims.HasSignature s := by
  have hlo := be32_eq_iff (s.inByte 0) (s.inByte 1) (s.inByte 2) (s.inByte 3) 0x89#8 0x50#8 0x4E#8 0x47#8
  have hhi := be32_eq_iff (s.inByte 4) (s.inByte 5) (s.inByte 6) (s.inByte 7) 0x0D#8 0x0A#8 0x1A#8 0x0A#8
  refine Iff.trans ?_ (and_congr hlo hhi).symm
  simp [List.range_succ, signature, and_assoc]

theorem signatureGate_short {s : State} (h : s.cmd.len.toNat < 8) : signatureGate s = .fail .truncatedInput s := by
  rw [signatureGate, failIf_true _ _ (decide_eq_true h), Work.andThen_fail]

theorem signatureGate_mismatch {s : State} (h : 8 ≤ s.cmd.len.toNat) (hsig : ¬Claims.HasSignature s) :
    signatureGate s = .fail .badSignature s := by
  rw [signatureGate, failIf_false _ _ (decide_eq_false (Nat.not_lt.mpr h)), Work.andThen_ok,
    failIf_true _ _ (bne_iff_ne.mpr fun e => hsig ((signature_iff s).mp e))]

theorem signatureGate_match {s : State} (h : 8 ≤ s.cmd.len.toNat) (hsig : Claims.HasSignature s) :
    signatureGate s = .ok s := by
  rw [signatureGate, failIf_false _ _ (decide_eq_false (Nat.not_lt.mpr h)), Work.andThen_ok,
    failIf_false _ _ (bne_eq_false_iff_eq.mpr ((signature_iff s).mpr hsig))]

/-- Only the type IHDR decodes to the IHDR row (R73). -/
theorem decodeChunk_eq_ihdr {len type len' : Word} (h : decodeChunk len type = .ihdr len') :
    type = 0x49484452#32 ∧ len' = len := by
  unfold decodeChunk at h
  by_cases htype : type = 0x49484452#32
  · rw [if_pos htype] at h
    cases h
    exact ⟨htype, rfl⟩
  · rw [if_neg htype] at h
    split_ifs at h

theorem firstChunk_short {op : CmdOp} {s : State} (h : s.cmd.len.toNat < ihdrMinLen op) :
    firstChunk op s = .fail .truncatedInput s := by
  rw [firstChunk, failIf_true _ _ (decide_eq_true h), Work.andThen_fail]

theorem firstChunk_of_not_hasIhdr {op : CmdOp} {s : State} (h : ihdrMinLen op ≤ s.cmd.len.toNat)
    (hihdr : ¬Claims.HasIhdr s) : firstChunk op s = .fail .badIhdr s := by
  rw [firstChunk, failIf_false _ _ (decide_eq_false (Nat.not_lt.mpr h)), Work.andThen_ok]
  split
  · next len hd =>
    obtain ⟨htype, rfl⟩ := decodeChunk_eq_ihdr hd
    exact ihdrFirst_badLength h fun hlen => hihdr ⟨hlen, htype⟩
  · rfl

theorem firstChunk_of_hasIhdr {op : CmdOp} {s : State} (h : ihdrMinLen op ≤ s.cmd.len.toNat)
    (hihdr : Claims.HasIhdr s) : firstChunk op s = ihdrFirst op 13#32 s := by
  obtain ⟨hlen, htype⟩ := hihdr
  rw [firstChunk, failIf_false _ _ (decide_eq_false (Nat.not_lt.mpr h)), Work.andThen_ok, hlen, htype]
  rfl

/-! ## The SETUP step of a command word (log 30), and INFO (R109) -/

/-- The state the SETUP step of a command word runs from: its own op and scale latched (log 30). -/
def latchUnit (op : CmdOp) (scale : Byte) (s : State) : State := { s with cmd := { s.cmd with op := op, scale := scale } }

theorem exec_info_eq (s : State) : exec .info s = .next (setupInfo (latchUnit .info s.cmd.scale s)).settle := rfl

theorem exec_decode_eq (scale : Byte) (s : State) :
    exec (.decode scale) s = .next (setupDecode (latchUnit .decode scale s)).settle := rfl

/-- Settles O24, along the order of INFO's checks. -/
theorem infoReturnsTheDimensions : Obligations.InfoReturnsTheDimensions := by
  intro s
  refine ⟨_, exec_info_eq s, ?_⟩
  set a := latchUnit .info s.cmd.scale s
  have hfail (c : Cause) : FailedWith c s.res s (raiseFatal c a) := failedWith_raiseFatal (u := a) c (.refl a)
  unfold setupInfo
  split
  · next hwin => rw [windowCheck_past (s := a) hwin]; exact hfail _
  next hwin =>
  rw [windowCheck_inside (s := a) (Nat.le_of_not_lt hwin), Work.andThen_ok]
  split
  · next hlen => rw [signatureGate_short (s := a) hlen]; exact hfail _
  next hlen =>
  constructor <;> intro hsig
  · rw [signatureGate_mismatch (s := a) (Nat.le_of_not_lt hlen) hsig]; exact hfail _
  rw [signatureGate_match (s := a) (Nat.le_of_not_lt hlen) hsig, Work.andThen_ok]
  split
  · next hmin => rw [firstChunk_short (op := .info) (s := a) hmin]; exact hfail _
  next hmin =>
  have hmin : ihdrMinLen .info ≤ a.cmd.len.toNat := Nat.le_of_not_lt hmin
  constructor <;> intro hihdr
  · rw [firstChunk_of_not_hasIhdr hmin hihdr]; exact hfail _
  · rw [firstChunk_of_hasIhdr hmin hihdr, ihdrFirst_info hmin]
    exact ⟨rfl, rfl, rfl, rfl, rfl, rfl, rfl, rfl, rfl, rfl, rfl, rfl, rfl, rfl⟩

/-! ## DECODE on a supported header (R97, R110, R123 to R126) -/

/-- What is left of R112's condition on a supported header: bounds on W and H, and one of the nine pairs. -/
theorem supported_of_not_unsupportedHeader {s : State} (h : ¬Claims.UnsupportedHeader s) :
    (s.be32 16).toNat < 2 ^ 31 ∧ (s.be32 20).toNat < 2 ^ 31 ∧ supportedPair (s.inByte 25) (s.inByte 24) = true := by
  simp only [Claims.UnsupportedHeader, not_or, not_le] at h
  obtain ⟨-, -, hw, hh, hd, hc, hcd, -⟩ := h
  refine ⟨hw, hh, ?_⟩
  rw [← Bool.not_eq_false, supportedPair_eq_false_iff, not_or, not_or]
  exact ⟨hd, hc, hcd⟩

/-- R113's bpp is at most 8, so its 4-bit register loses nothing. -/
theorem toNat_bpp {c d : Byte} (h : supportedPair c d = true) : (BitVec.ofNat 4 (Claims.bppOf c d)).toNat = Claims.bppOf c d := by
  simp only [supportedPair, Bool.and_eq_true, Bool.or_eq_true, beq_iff_eq] at h
  obtain ⟨⟨hd | hd, (((hc | hc) | hc) | hc) | hc⟩, -⟩ := h <;> subst hd <;> subst hc <;> decide

theorem scaleCheck_valid {s : State} (h : s.cmd.scale = 1#8 ∨ s.cmd.scale = 2#8 ∨ s.cmd.scale = 4#8) :
    scaleCheck s = .ok s := by
  refine failIf_false _ _ ?_
  rcases h with h | h | h <;> rw [h] <;> rfl

/-- R97's checks before the walk, passed: the header is loaded. -/
theorem setupHeader_supported {s : State} (hwin : s.cmd.base.toNat + s.cmd.len.toNat ≤ 2 ^ 32)
    (hscale : s.cmd.scale = 1#8 ∨ s.cmd.scale = 2#8 ∨ s.cmd.scale = 4#8) (hlen : 29 ≤ s.cmd.len.toNat)
    (hsig : Claims.HasSignature s) (hihdr : Claims.HasIhdr s) (hhdr : ¬Claims.UnsupportedHeader s) :
    setupHeader s = .ok (Claims.headerLoaded s) := by
  rw [setupHeader, windowCheck_inside hwin, Work.andThen_ok, scaleCheck_valid hscale, Work.andThen_ok,
    signatureGate_match (by omega) hsig, Work.andThen_ok, firstChunk_of_hasIhdr (op := .decode) hlen hihdr,
    ihdrFirst_supported hlen hhdr]

/-- The walk after R114 changes the tables only. -/
theorem walk_walkInit_eq (n : Nat) (s : State) : ∃ tab, walk n (walkInit s) = { s with tab := tab } :=
  ⟨_, (walk_law n (walkInit s)).1⟩

/-- R123's loads. -/
def loadCounts (s : State) : State :=
  { s with res := { s.res with nidat := BitVec.ofNat 32 s.nIdat, paln := palnWord s.tab.plteN s.tab.trnsN } }

theorem walkEnd_none {s : State} (h : s.tab.idx.length = 0) : walkEnd s = .fail .noIdat (loadCounts s) :=
  failIf_true _ _ (beq_iff_eq.mpr h)

theorem walkEnd_some {s : State} (h : s.tab.idx.length ≠ 0) : walkEnd s = .ok (loadCounts s) :=
  failIf_false _ _ (beq_eq_false_iff_ne.mpr h)

/-- R124's quotients are W and H at scale 1 too. -/
theorem loadOutput_eq (s : State) :
    loadOutput s = { s with
      hdr := { s.hdr with
        outW := BitVec.ofNat 31 (s.hdr.w.toNat / s.cmd.scale.toNat), outH := BitVec.ofNat 31 (s.hdr.h.toNat / s.cmd.scale.toNat) }
      res := { s.res with
        outW := BitVec.ofNat 32 (s.hdr.w.toNat / s.cmd.scale.toNat), outH := BitVec.ofNat 32 (s.hdr.h.toNat / s.cmd.scale.toNat) } } := by
  by_cases h : s.cmd.scale = 1#8 <;> simp [loadOutput, h]

/-- A quotient of a 32-bit number fills its register as the number it is. -/
theorem ofNat_div_eq_zero {n : Nat} (d : Nat) (h : n < 2 ^ 32) : BitVec.ofNat 32 (n / d) = 0#32 ↔ n / d = 0 := by
  have hq : n / d ≤ n := Nat.div_le_self n d
  rw [bitvec_eq_iff_toNat, BitVec.toNat_ofNat, Nat.mod_eq_of_lt (by omega), BitVec.toNat_ofNat, Nat.zero_mod]

theorem outputDims_check (s : State) :
    ((loadOutput s).res.outW == 0#32 || (loadOutput s).res.outH == 0#32) = true ↔
      s.hdr.w.toNat / s.cmd.scale.toNat = 0 ∨ s.hdr.h.toNat / s.cmd.scale.toNat = 0 := by
  simp only [loadOutput_eq, Bool.or_eq_true, beq_iff_eq, ofNat_div_eq_zero _ s.hdr.w.isLt, ofNat_div_eq_zero _ s.hdr.h.isLt]

theorem outputDims_zero {s : State}
    (h : s.hdr.w.toNat / s.cmd.scale.toNat = 0 ∨ s.hdr.h.toNat / s.cmd.scale.toNat = 0) :
    outputDims s = .fail .zeroOutput (loadOutput s) :=
  failIf_true _ _ ((outputDims_check s).mpr h)

theorem outputDims_nonzero {s : State}
    (h : ¬(s.hdr.w.toNat / s.cmd.scale.toNat = 0 ∨ s.hdr.h.toNat / s.cmd.scale.toNat = 0)) :
    outputDims s = .ok (loadOutput s) :=
  failIf_false _ _ (Bool.eq_false_iff.mpr fun hc => h ((outputDims_check s).mp hc))

/-- R125's loads. -/
def loadStride (s : State) : State :=
  { s with hdr := { s.hdr with stride := s.strideOf }, res := { s.res with stride := BitVec.ofNat 32 s.strideOf } }

theorem keepsOutsideSetup_loadStride (s : State) : KeepsOutsideSetup s (loadStride s) := ⟨rfl, rfl⟩

theorem strideCheck_over {s : State} (h : Config.maxStride < s.strideOf) : strideCheck s = .fail .capacity s := by
  rw [strideCheck, failIf_true _ _ (decide_eq_true h), Work.andThen_fail]

theorem strideCheck_within {s : State} (h : s.strideOf ≤ Config.maxStride) : strideCheck s = .ok (loadStride s) := by
  rw [strideCheck, failIf_false _ _ (decide_eq_false (Nat.not_lt.mpr h)), Work.andThen_ok]
  rfl

/-- R126: both line buffers read 0 at every index (R45). -/
theorem byteAt_zeroLine (stride k : Nat) : byteAt (zeroLine stride) k = 0#8 := by
  simp only [byteAt, Buffer.read, zeroLine, Rest.read, List.getD_eq_getElem?_getD, List.getElem?_replicate]
  split <;> rfl

/-- R126: at scale 2 and 4 the slots in use read 0 (R48). -/
theorem sumAt_driverInit {s : State} (h : s.cmd.scale = 2#8 ∨ s.cmd.scale = 4#8) {j : Nat} (hj : j < s.hdr.outW.toNat) :
    sumAt (driverInit s).pix.acc j = ⟨0#16, 0#16, 0#16⟩ := by
  simp only [sumAt, Buffer.read, driverInit, if_pos h, List.getD_eq_getElem?_getD, List.getElem?_replicate, if_pos hj,
    Option.getD_some]

/-- R129's first request: the whole dictionary, its header flag up (R126). -/
theorem firstRequest_grant (u : State) :
    (issueRequest (driverInit u)).drv.req.parseHdr = true ∧ (issueRequest (driverInit u)).drv.first = false
      ∧ (issueRequest (driverInit u)).drv.req.outOfs = 0#15 ∧ (issueRequest (driverInit u)).drv.req.outCap = 32768#16 :=
  ⟨rfl, rfl, rfl, rfl⟩

/-- The first request hands over to the engine; STATUS, the rows and the outside are as they were before SETUP. -/
theorem firstRequest_frame {s u : State} {cmd : Latched} (h : KeepsOutsideSetup { s with cmd := cmd } u) :
    (issueRequest (driverInit u)).phase = .engine ∧ (issueRequest (driverInit u)).status = s.status
      ∧ (issueRequest (driverInit u)).presented = s.presented ∧ SameOutside s (issueRequest (driverInit u)) := by
  rw [h.1]
  exact ⟨rfl, rfl, rfl, rfl, rfl, rfl, rfl, rfl, rfl, rfl, rfl, rfl, rfl⟩

/-- Settles O26, along the stages of SETUP after the header: the walk's counts, the output size, the stride, the first request. -/
theorem decodeReachesItsFirstRequest : Obligations.DecodeReachesItsFirstRequest := by
  intro s scale hwin hscale hlen hsig hihdr hhdr
  set a := latchUnit .decode scale s
  have hheader : setupHeader a = .ok (Claims.headerLoaded a) := setupHeader_supported hwin hscale hlen hsig hihdr hhdr
  obtain ⟨hw, -, hpair⟩ := supported_of_not_unsupportedHeader hhdr
  obtain ⟨tab, hwalk⟩ := walk_walkInit_eq (walkFuel s) (Claims.headerLoaded a)
  refine ⟨_, _, exec_decode_eq scale s, hwalk.symm, ?_⟩
  have htail : chunkWalk (Claims.headerLoaded a) = walkEnd { Claims.headerLoaded a with tab := tab } := congrArg walkEnd hwalk
  rw [setupDecode, hheader, Work.andThen_ok, htail]
  intro n res1 w h res2 stride
  set b := loadCounts { Claims.headerLoaded a with tab := tab }
  split
  · next hn => rw [walkEnd_none hn]; exact failedWith_raiseFatal (u := b) _ ⟨rfl, rfl⟩
  next hn =>
  rw [walkEnd_some hn, Work.andThen_ok]
  have hkeep : KeepsOutsideSetup { s with cmd := a.cmd } (loadOutput b) := ⟨rfl, rfl⟩
  have hres : (loadOutput b).res = res2 := congrArg State.res (loadOutput_eq b)
  have hfail (c : Cause) : FailedWith c res2 s (raiseFatal c (loadOutput b)) := hres ▸ failedWith_raiseFatal c hkeep
  split
  · next hzero => rw [outputDims_zero (s := b) hzero]; exact hfail _
  next hpos =>
  rw [outputDims_nonzero (s := b) hpos, Work.andThen_ok]
  have hstride : (loadOutput b).strideOf = stride := congrArg ((s.be32 16).toNat * ·) (toNat_bpp hpair)
  rw [← hstride]
  split
  · next hover => rw [strideCheck_over hover]; exact hfail _
  next hover =>
  rw [strideCheck_within (Nat.le_of_not_lt hover), Work.andThen_ok, Work.settle_ok]
  obtain ⟨hphase, hstatus, hpresented, hsame⟩ := firstRequest_frame (hkeep.trans (keepsOutsideSetup_loadStride _))
  obtain ⟨hparse, hfirst, hofs, hcap⟩ := firstRequest_grant (loadStride (loadOutput b))
  refine ⟨hphase, hstatus, hpresented, hsame, hparse, hfirst, hofs, hcap,
    driverInit (loadStride (loadOutput b)), rfl, ?_, rfl, rfl, rfl, fun k => ⟨byteAt_zeroLine _ k, byteAt_zeroLine _ k⟩, ?_⟩
  · rw [← hres, loadStride, loadOutput_eq]
    rfl
  · intro hne j hj
    have hscale : scale = 2#8 ∨ scale = 4#8 := hscale.resolve_left hne
    exact sumAt_driverInit hscale (hj.trans_eq (outDim_eq hw).symm)

end Sys2Proof.Machine
end

section
/-! PROOFS. The inflate driver: issuing a request, taking a response, and the end of a span (R127 to R140). -/

namespace Sys2Proof.Machine

/-! ## The next request (R127 to R129) -/

theorem laterIdat_iff (s : State) : s.laterIdat = true ↔ s.drv.ci.toNat + 1 < s.tab.idx.length := decide_eq_true_iff

theorem hasMore_iff (s : State) : s.hasMore = true ↔ 0 < s.left ∨ s.drv.ci.toNat + 1 < s.tab.idx.length := by
  rw [State.hasMore, Bool.or_eq_true, decide_eq_true_iff, laterIdat_iff]

/-- R128 after R127: where the cursor stops short of the last entry only on input left, HAS_MORE says that there is some. -/
theorem hasMore_eq_of_stopped {s : State} (h : s.drv.ci.toNat + 1 < s.tab.idx.length → 0 < s.left) :
    s.hasMore = decide (0 < s.left) :=
  Bool.eq_iff_iff.mpr <| (hasMore_iff s).trans <| (or_iff_left_of_imp h).trans decide_eq_true_iff.symm

/-- Settles O27, from R127's closed form: the request is R129's for the entry reached. -/
theorem requestCarriesTheCurrentSlice : Obligations.RequestCarriesTheCurrentSlice := by
  intro s hci hcap
  obtain ⟨k, hge, hlt, hskip, hstop, hskipped⟩ := skipEmpty_spec hcap s.nIdat s.drv.ci s.drv.curOfs (Nat.le_add_left _ _) hci
  set ofs := if k = s.drv.ci.toNat then s.drv.curOfs else 0#32
  let v : State := { s with drv := { s.drv with ci := BitVec.ofNat 16 k, curOfs := ofs } }
  have hv : skipEmptyIdats s = v := by simp only [skipEmptyIdats, hskip, v]
  have hk : v.drv.ci.toNat = k := (BitVec.toNat_ofNat k 16).trans (Nat.mod_eq_of_lt (by omega))
  have hentry : v.entry = s.tab.idx.getD k ⟨0#32, 0#32⟩ := congrArg (s.tab.idx.getD · _) hk
  have hleft : v.left = (s.tab.idx.getD k ⟨0#32, 0#32⟩).len.toNat - ofs.toNat := by rw [State.left, hentry]
  have hmore : v.hasMore = decide (0 < v.left) := hasMore_eq_of_stopped (by rwa [hk, hleft])
  refine ⟨k, hge, hlt, ?_, hstop, hskipped⟩
  rw [issueRequest_eq, hv, State.nextRequest, hmore, hleft, hentry]
  rfl

/-! ## A fresh response (R134 to R136) -/

theorem outOfBounds_eq_false_iff (s : State) :
    s.outOfBounds = false ↔ s.drv.resp.consumed.toNat ≤ s.drv.req.inLen.toNat
      ∧ s.drv.resp.written.toNat ≤ s.drv.req.outCap.toNat := by
  simp only [State.outOfBounds, Bool.or_eq_false_iff, decide_eq_false_iff_not, Nat.not_lt]

theorem responseCheck_inBounds {s : State} (h : s.outOfBounds = false) : responseCheck s = .ok (takeResponse s) := by
  rw [responseCheck, failIf_false _ _ h, Work.andThen_ok]

/-- R134: the response check is one for every status but ERROR. -/
theorem exec_fresh {s : State} (h : s.drv.fresh = true) :
    ∀ i ∈ [Instr.needMoreInput, .hasMoreOutput, .streamDone], exec i s = .next (responseCheck s).settle := by
  have hcheck (spanEnd : Work) : Host.Outcome.next (φ := Fault) (ρ := Refusal)
      (if s.drv.fresh then responseCheck s else spanEnd).settle = .next (responseCheck s).settle := by rw [if_pos h]
  simp only [List.forall_mem_cons]
  exact ⟨hcheck _, hcheck _, hcheck _, nofun⟩

/-- R136's `mod Wd`: a span ends at the end of the dictionary at the latest, and wraps only there. -/
theorem ofNat_mod_wd {n : Nat} (h : n ≤ 32768) :
    BitVec.ofNat 15 (n % Config.wd) = if n = 32768 then 0#15 else BitVec.ofNat 15 n := by
  split
  · next hn => rw [hn]; rfl
  · next hn => exact congrArg _ (Nat.mod_eq_of_lt (Nat.lt_of_le_of_ne h hn))

/-- Settles O30. -/
theorem responseInBoundsIsTaken : Obligations.ResponseInBoundsIsTaken := by
  intro s hfresh hconsumed hwritten hspan i hi
  rw [exec_fresh hfresh i hi, responseCheck_inBounds ((outOfBounds_eq_false_iff s).mpr ⟨hconsumed, hwritten⟩), Work.settle_ok]
  simp only [takeResponse, ofNat_mod_wd hspan, BitVec.ofNat_toNat]

/-! ## The end of a span (R139, R140) -/

/-- R139, on the cursor. -/
theorem advanceIdat_cursor (s : State) :
    advanceIdat s = { s with drv := { s.drv with
      ci := if s.drv.curOfs = s.entry.len ∧ s.drv.ci.toNat + 1 < s.tab.idx.length then s.drv.ci + 1#16 else s.drv.ci
      curOfs := if s.drv.curOfs = s.entry.len ∧ s.drv.ci.toNat + 1 < s.tab.idx.length then 0#32 else s.drv.curOfs } } := by
  simp only [advanceIdat, laterIdat_iff]
  split <;> rfl

/-- A failure leaves nothing of the cursor R139 moved. -/
theorem raiseFatal_advanceIdat (c : Cause) (s : State) : raiseFatal c (advanceIdat s) = raiseFatal c s := by
  rw [advanceIdat_eq]
  rfl

theorem failedWith_raiseFatal_advanceIdat (c : Cause) (s : State) : FailedWith c s.res s (raiseFatal c (advanceIdat s)) :=
  raiseFatal_advanceIdat c s ▸ failedWith_raiseFatal c (.refl s)

theorem nextOrStalled_stalled {s : State} (h : s.drv.resp.consumed = 0#32 ∧ s.drv.resp.written = 0#16) :
    nextOrStalled s = .fail .engineProtocol s := by
  rw [nextOrStalled, failIf_true _ _ (by simp [h]), Work.andThen_fail]

theorem nextOrStalled_progress {s : State} (h : ¬(s.drv.resp.consumed = 0#32 ∧ s.drv.resp.written = 0#16)) :
    nextOrStalled s = .ok (issueRequest s) := by
  rw [nextOrStalled, failIf_false _ _ (by simpa using h), Work.andThen_ok]

theorem spanEndNeedMore_none {s : State} (h : ¬(advanceIdat s).hasMore = true) :
    spanEndNeedMore s = .fail .streamTruncated (advanceIdat s) := by
  rw [spanEndNeedMore, failIf_true _ _ (by simpa using h), Work.andThen_fail]

theorem spanEndNeedMore_more {s : State} (h : (advanceIdat s).hasMore = true) :
    spanEndNeedMore s = nextOrStalled (advanceIdat s) := by
  rw [spanEndNeedMore, failIf_false _ _ (by simpa using h), Work.andThen_ok]

theorem exec_needMoreInput_checked {s : State} (h : s.drv.fresh = false) :
    exec .needMoreInput s = .next (spanEndNeedMore s).settle := by
  simp only [exec, execNeedMoreInput, h, Bool.false_eq_true, if_false]

theorem exec_hasMoreOutput_checked {s : State} (h : s.drv.fresh = false) :
    exec .hasMoreOutput s = .next (nextOrStalled (advanceIdat s)).settle := by
  simp only [exec, execHasMoreOutput, spanEndHasMore, h, Bool.false_eq_true, if_false]

theorem exec_streamDone_checked {s : State} (h : s.drv.fresh = false) :
    exec .streamDone s = .next (raiseFatal .streamTruncated (advanceIdat s)) := by
  simp only [exec, execStreamDone, spanEndDone, h, Bool.false_eq_true, if_false, Work.settle_fail]

/-- Settles O32: R139 moves the cursor, then each status takes its branch of R140. -/
theorem spanEndGoesOnOrFails : Obligations.SpanEndGoesOnOrFails := by
  intro s hchecked advance u more stalled
  have hu : advanceIdat s = u := advanceIdat_cursor s
  have hmore : (advanceIdat s).hasMore = true ↔ more := by rw [hu]; exact hasMore_iff u
  have hstall (h : stalled) : nextOrStalled (advanceIdat s) = .fail .engineProtocol (advanceIdat s) :=
    nextOrStalled_stalled (by rw [hu]; exact h)
  have hnext (h : ¬stalled) : nextOrStalled (advanceIdat s) = .ok (issueRequest u) := by
    rw [hu]; exact nextOrStalled_progress h
  have hfail (c : Cause) : FailedWith c s.res s (raiseFatal c (advanceIdat s)) := failedWith_raiseFatal_advanceIdat c s
  refine ⟨⟨_, exec_streamDone_checked hchecked, hfail _⟩,
    ⟨_, exec_needMoreInput_checked hchecked, fun hm => ?_, fun hm hs => ?_, fun hm hs => ?_⟩,
    ⟨_, exec_hasMoreOutput_checked hchecked, fun hs => ?_, fun hs => ?_⟩⟩
  · rw [spanEndNeedMore_none (mt hmore.mp hm)]; exact hfail _
  · rw [spanEndNeedMore_more (hmore.mpr hm), hstall hs]; exact hfail _
  · rw [spanEndNeedMore_more (hmore.mpr hm), hnext hs, Work.settle_ok]
  · rw [hstall hs]; exact hfail _
  · rw [hnext hs, Work.settle_ok]

end Sys2Proof.Machine
end

section
/-! PROOFS. The scanline filters: the predictors, one data byte, and the failures of the FILT and PIXFMT families (R112,
R143 to R150). -/

namespace Sys2Proof.Machine

/-! ## The predictors (R146 to R150) -/

/-- How far `v` is from a + b − c, over the integers (R150's pa, pb and pc). -/
def paethDist (a b c v : Byte) : Nat := ((a.toNat : Int) + b.toNat - c.toNat - v.toNat).natAbs

/-- R150's three branches, with what each says about the distances: b is taken only if it is strictly closer than a, and c
only if it is strictly closer than both. -/
theorem predPaeth_cases (a b c : Byte) :
    (predPaeth a b c = a ∧ paethDist a b c a ≤ paethDist a b c b ∧ paethDist a b c a ≤ paethDist a b c c)
      ∨ (predPaeth a b c = b ∧ paethDist a b c b < paethDist a b c a ∧ paethDist a b c b ≤ paethDist a b c c)
      ∨ (predPaeth a b c = c ∧ paethDist a b c c < paethDist a b c a ∧ paethDist a b c c < paethDist a b c b) := by
  by_cases ha : paethDist a b c a ≤ paethDist a b c b ∧ paethDist a b c a ≤ paethDist a b c c
  · exact .inl ⟨if_pos ha, ha⟩
  by_cases hb : paethDist a b c b ≤ paethDist a b c c
  · exact .inr (.inl ⟨(if_neg ha).trans (if_pos hb), by omega, hb⟩)
  · exact .inr (.inr ⟨(if_neg ha).trans (if_neg hb), by omega, Nat.lt_of_not_le hb⟩)

/-- Settles O38, branch by branch: the neighbour taken is as close as the other two, and strictly closer than those before it. -/
theorem paethPicksTheClosestNeighbour : Obligations.PaethPicksTheClosestNeighbour := by
  intro a b c p dist r
  obtain ⟨hr, hab, hac⟩ | ⟨hr, hba, hbc⟩ | ⟨hr, hca, hcb⟩ := predPaeth_cases a b c
  · rw [show r = a from hr]
    exact ⟨.inl rfl, le_rfl, hab, hac, fun _ _ => rfl, fun hba _ => absurd hba hab.not_gt⟩
  · rw [show r = b from hr]
    exact ⟨.inr (.inl rfl), hba.le, le_rfl, hbc, fun hab _ => absurd hab hba.not_ge, fun _ _ => rfl⟩
  · rw [show r = c from hr]
    exact ⟨.inr (.inr rfl), hca.le, hcb.le, le_rfl, fun _ hac => absurd hac hca.not_ge, fun _ hbc => absurd hbc hcb.not_ge⟩

/-- R149: the halved sum of two bytes is a byte. -/
theorem toNat_predAverage (a b c : Byte) : (predAverage a b c).toNat = (a.toNat + b.toNat) / 2 := by
  have ha := a.isLt
  have hb := b.isLt
  rw [predAverage, BitVec.toNat_ofNat, Nat.mod_eq_of_lt (by omega)]

/-- Settles O37: three predictors are their own rule, and Average's quotient does not wrap. -/
theorem simplePredictorsAreExact : Obligations.SimplePredictorsAreExact :=
  fun a b c => ⟨rfl, rfl, rfl, toNat_predAverage a b c⟩

/-! ## The failures (R112, R143) -/

/-- A failure leaves nothing of the span byte it took. -/
theorem raiseFatal_takeSpanByte (c : Cause) (s : State) : raiseFatal c (takeSpanByte s) = raiseFatal c s := rfl

/-- Settles O34: both instructions raise their failure, whatever the byte or the pair. -/
theorem invalidFiltersAndFormatsFail : Obligations.InvalidFiltersAndFormatsFail := by
  intro s v c d
  have hfail (cause : Cause) : FailedWith cause s.res s (raiseFatal cause s) := failedWith_raiseFatal cause (.refl s)
  exact ⟨⟨_, rfl, raiseFatal_takeSpanByte .badFilter s ▸ hfail .badFilter⟩, ⟨_, rfl, hfail .unsupportedIhdr⟩⟩

/-! ## A data byte (R144, R145) -/

/-- R137, R141: each of the five filters is `filterStep` with its code and its predictor. -/
theorem exec_filterTable (s : State) : ∀ p ∈ Claims.filterTable, exec p.1 s = .next (filterStep p.2.1 p.2.2 s) := by
  simp only [Claims.filterTable, List.forall_mem_cons]
  exact ⟨rfl, rfl, rfl, rfl, rfl, nofun⟩

/-- R145: inside a record and before its last byte, the span byte is stored and the row goes on. -/
theorem filterStep_data (f : BitVec 3) (pred : Predictor) {s : State} (hpos : 0 < s.line.slPos)
    (hlast : s.line.slPos ≠ s.hdr.stride) : filterStep f pred s = storeDataByte pred s.spanByte (takeSpanByte s) := by
  have hrow : (storeDataByte pred s.spanByte (takeSpanByte s)).line.slPos ≠ s.hdr.stride + 1 :=
    fun h => hlast (Nat.succ.inj h)
  rw [filterStep, if_neg hpos.ne', dataByte]
  exact if_neg hrow

/-- R145: a stored data byte is the raw byte plus its prediction, and the other bytes of `Cur` stay. -/
theorem byteAt_storeDataByte (pred : Predictor) (v : Byte) (s : State) (k : Nat) :
    byteAt (storeDataByte pred v s).line.cur k =
      if k = s.line.slPos - 1 then reconstruct pred v (s.line.slPos - 1) s else byteAt s.line.cur k :=
  Buffer.read_write _ _ _ _ k

/-- Settles O35: the five filters share `filterStep`, which stores the byte under the predictor of its row. -/
theorem dataByteIsReconstructed : Obligations.DataByteIsReconstructed := by
  intro p hp s hpos hlast i bpp a b c
  refine ⟨storeDataByte p.2.2 s.spanByte (takeSpanByte s), ?_, rfl, byteAt_storeDataByte p.2.2 s.spanByte (takeSpanByte s)⟩
  rw [exec_filterTable s p hp, filterStep_data _ _ hpos hlast]

end Sys2Proof.Machine
end

section
/-! PROOFS. The pixel pipeline: packing, the end of a row at scale 1, and the end of a block row at scale 2 or 4 (R153 to
R170). -/

namespace Sys2Proof.Machine

/-! ## Packing (R163) -/

/-- R163, bit by bit: below bit 5 blue, below bit 11 green, above it red, each without its lowest bits. -/
theorem getLsbD_pack (p : Rgb) {i : Nat} (hi : i < 16) :
    (pack p).getLsbD i =
      if i < 5 then p.b.getLsbD (3 + i) else if i < 11 then p.g.getLsbD (i - 3) else p.r.getLsbD (i - 8) := by
  interval_cases i <;> simp [pack]

/-- Settles O39: each field is a range of `getLsbD_pack`'s bits. -/
theorem packKeepsTheUpperBits : Obligations.PackKeepsTheUpperBits := by
  intro p
  refine ⟨?red, ?green, ?blue⟩ <;> ext i hi <;>
    rw [BitVec.getElem_extractLsb', BitVec.getElem_extractLsb', getLsbD_pack p (by omega)]
  case red => rw [if_neg (by omega), if_neg (by omega)]; congr 1; omega
  case green => rw [if_neg (by omega), if_pos (by omega)]; congr 1; omega
  case blue => rw [if_pos (by omega), Nat.zero_add]

/-! ## The end of a row (R153, R165, R170) -/

/-- R154 to R162: each of the nine formats is `rowEnd` under the rule of its row. -/
theorem exec_formatTable (s : State) : ∀ p ∈ Claims.formatTable, exec p.1 s = .next (rowEnd p.2 s) := by
  simp only [Claims.formatTable, List.forall_mem_cons]
  exact ⟨rfl, rfl, rfl, rfl, rfl, rfl, rfl, rfl, rfl, nofun⟩

theorem nextRow_swapLines (s : State) : Claims.NextRow s (swapLines s).line :=
  ⟨rfl, rfl, rfl, rfl, byteAt_swapLines_cur s⟩

/-- R165, R166: at scale 1 the row's words are presented, and the accumulator stays. -/
theorem rowEnd_direct (ex : Extract) {s : State} (h : s.scale = 1) :
    rowEnd ex s = Claims.rowPresented s (swapLines s).line { s.pix with out := s.pix.out.load (directWords ex s) } := by
  simp only [rowEnd, rowDispatch, if_pos h, if_true]
  rfl

/-- R165, R169: the last row of a block row is added, and the means are presented. -/
theorem rowEnd_means (ex : Extract) {s : State} (h : s.scale ≠ 1) (hend : blockRowEnds s = true) :
    rowEnd ex s = Claims.rowPresented s (swapLines s).line (emitMeans (accumulated ex s) s) := by
  simp only [rowEnd, rowDispatch, if_neg h, if_pos hend, if_true]
  rfl

/-- Settles O40: the nine formats share `rowEnd`, which at scale 1 loads the row's words into `Out` and presents them. -/
theorem directRowIsPackedAndPresented : Obligations.DirectRowIsPackedAndPresented := by
  intro p hp s hs
  have hscale : s.scale = 1 := congrArg BitVec.toNat hs
  have hexec := exec_formatTable s p hp
  rw [rowEnd_direct p.2 hscale] at hexec
  exact ⟨_, _, hexec, nextRow_swapLines s, rfl, wordAt_directWords p.2 s⟩

/-! ## The accumulator and the means (R168, R169) -/

/-- A buffer whose first `n` elements are loaded from a rule. -/
theorem Buffer.read_load_range {α : Type} (free : Nat → Nat → α) (b : Buffer α) (f : Nat → α) (n k : Nat) :
    (b.load ((List.range n).map f)).read free k = if k < n then f k else b.read free k := by
  rw [Buffer.read_load, List.length_map, List.length_range]
  split
  · next hk => simp [List.getD_eq_getElem?_getD, hk]
  · rfl

/-- R168: a row that is added changes the slots of the output columns and no other. -/
theorem sumAt_accumulated_eq (ex : Extract) {s : State} (hy : s.line.y < s.hdr.outH.toNat * s.scale) (j : Nat) :
    sumAt (accumulated ex s) j =
      if j < s.hdr.outW.toNat then Claims.slotAfter (sumAt s.pix.acc j) (ex s.line.cur s.tab.pal) s.scale j
      else sumAt s.pix.acc j := by
  rw [accumulated, if_pos hy, sumAt, Buffer.read_load_range, slotSum_eq]
  rfl

/-- R168: a slot with room for another row's columns takes their exact lane sums. -/
theorem toNat_slotAfter (ex : Nat → Rgb) {scale bound : Nat} (j : Nat) {a : Sum} (ha : a.AtMost bound)
    (hroom : bound + 255 * scale < 2 ^ 16) :
    (Claims.slotAfter a ex scale j).r.toNat = a.r.toNat + Claims.laneSum Rgb.r ex scale j
      ∧ (Claims.slotAfter a ex scale j).g.toNat = a.g.toNat + Claims.laneSum Rgb.g ex scale j
      ∧ (Claims.slotAfter a ex scale j).b.toNat = a.b.toNat + Claims.laneSum Rgb.b ex scale j := by
  obtain ⟨hr, hg, hb⟩ := ha
  have hlane (lane : Rgb → Byte) : Claims.laneSum lane ex scale j ≤ 255 * scale :=
    sum_bytes_le (fun k => lane (ex (j * scale + k))) scale
  exact ⟨(toNat_add_le hr (hlane _) hroom).1, (toNat_add_le hg (hlane _) hroom).1, (toNat_add_le hb (hlane _) hroom).1⟩

theorem wordAt_emitMeans (acc : Buffer Sum) (s : State) (j : Nat) :
    wordAt (emitMeans acc s).out j =
      if j < s.hdr.outW.toNat then pack ((sumAt acc j).mean (s.scale * s.scale)) else wordAt s.pix.out j :=
  Buffer.read_load_range _ _ _ _ j

theorem sumAt_emitMeans (acc : Buffer Sum) (s : State) (j : Nat) :
    sumAt (emitMeans acc s).acc j = if j < s.hdr.outW.toNat then Sum.zero else sumAt acc j := by
  simp only [emitMeans, sumAt, Buffer.read_load, List.length_replicate]
  split
  · next hj => exact List.getD_replicate _ hj
  · rfl

/-- Settles O42: `emitMeans` packs and zeroes the slots of the row just added, and no sum wraps, since a block row adds at most
255·s² to each. -/
theorem blockRowEndEmitsTheMeans : Obligations.BlockRowEndEmitsTheMeans := by
  intro p hp s hs hy hlast scale ex mean
  have hscale : scale = 2 ∨ scale = 4 := hs.imp (congrArg BitVec.toNat) (congrArg BitVec.toNat)
  have hne : s.scale ≠ 1 := show scale ≠ 1 by omega
  have hroom : 255 * scale * (scale - 1) + 255 * scale < 2 ^ 16 := by obtain h | h := hscale <;> rw [h] <;> decide
  have hexec := exec_formatTable s p hp
  rw [rowEnd_means p.2 hne ((blockRowEnds_iff s).mpr ⟨hy, hlast⟩)] at hexec
  refine ⟨_, _, hexec, nextRow_swapLines s, fun j => ?_⟩
  intro a b
  have hword : wordAt (emitMeans (accumulated p.2 s) s).out j =
      if j < s.hdr.outW.toNat then mean b.r.toNat b.g.toNat b.b.toNat else wordAt s.pix.out j := by
    rw [wordAt_emitMeans, sumAt_accumulated_eq p.2 hy, ← sq]
    split <;> rfl
  have hslot : sumAt (emitMeans (accumulated p.2 s) s).acc j = if j < s.hdr.outW.toNat then ⟨0#16, 0#16, 0#16⟩ else a := by
    rw [sumAt_emitMeans, sumAt_accumulated_eq p.2 hy]
    split <;> rfl
  refine ⟨hword, hslot, fun hj ha => ?_⟩
  obtain ⟨hr, hg, hb⟩ := toNat_slotAfter ex j ha hroom
  rw [hword, if_pos hj, hr, hg, hb]

end Sys2Proof.Machine
end

section
/-! PROOFS. The two shared ends of a command: the frame of each, and the STATUS word it leaves (R176, R177). -/

namespace Sys2Proof.Machine

/-- R177: the shared success entry, from any state. -/
theorem succeededWith_finishOk (s : State) : SucceededWith s.res s (finishOk s) :=
  ⟨rfl, rfl, rfl, rfl, rfl, rfl, rfl, rfl, rfl, rfl, rfl, rfl, rfl, rfl⟩

theorem busy_of_idle {s : State} (h : s.phase = .idle) : s.busy = false := by
  rw [State.busy, h]
  rfl

/-- R21 in phase IDLE: PHASE and BUSY read 0, so the word is made of the stored fields alone. -/
theorem statusWord_idle {s : State} (h : s.phase = .idle) :
    s.statusWord = 0#13 ++ 0#3 ++ 0#4 ++ s.status.cause.code ++ 0#3 ++ BitVec.ofBool s.status.ignored
      ++ BitVec.ofBool s.status.fail ++ BitVec.ofBool s.status.ok ++ BitVec.ofBool s.status.done ++ 0#1 := by
  rw [State.statusWord, busy_of_idle h, h]
  rfl

/-- R176: a failure leaves its cause above DONE and FAIL. -/
theorem statusWord_raiseFatal (c : Cause) {s : State} (h : s.status.ignored = false) :
    (raiseFatal c s).statusWord = (c.code.setWidth 32 <<< 8) ||| 0x0000000A#32 := by
  rw [statusWord_idle (raiseFatal_phase c s), raiseFatal_status, h]
  cases c <;> rfl

/-- R177: a success leaves DONE and OK, and IGNORED as it was. -/
theorem statusWord_finishOk {s : State} (hfail : s.status.fail = false) (hcause : s.status.cause = .none) :
    (finishOk s).statusWord = if s.status.ignored then 0x00000016#32 else 0x00000006#32 := by
  rw [statusWord_idle (finishOk_phase s), finishOk_status, hfail, hcause]
  cases s.status.ignored <;> rfl

/-- Settles O13: both entries change STATUS and the phase only, and the words are read from the fields they set. -/
theorem commandEndsWriteStatus : Obligations.CommandEndsWriteStatus := by
  intro c s
  exact ⟨failedWith_raiseFatal c (.refl s), succeededWith_finishOk s, statusWord_raiseFatal c, statusWord_finishOk⟩

end Sys2Proof.Machine
end

section
/-! PROOFS. A reset step: the turn that is one, and the views of the state it leaves (R189). -/

namespace Sys2Proof.Machine

/-- A scheduled reset is the step, with its turn taken off the schedule. -/
theorem step_reset {s : State} {ts : List Turn} (h : s.turns = .reset :: ts) :
    step s = .next (resetStep { s with turns := ts }) := by
  simp only [step_eq, fetch, h, takeTurn, runFetched]

@[simp] theorem resetStep_statusWord (s : State) : (resetStep s).statusWord = 0#32 := by
  rw [statusWord_idle (resetStep_phase s), resetStep_status]
  rfl

@[simp] theorem resetStep_irqEnWord (s : State) : (resetStep s).irqEnWord = 0#32 := by
  rw [State.irqEnWord, resetStep_irqEn]
  rfl

@[simp] theorem resetStep_irq (s : State) : (resetStep s).irq = false := by
  rw [State.irq, resetStep_status, Bool.false_and]

/-- Settles O4: the registers are read off the state `resetStep` leaves; the three fixed reads (CMD, CAP_IDAT, CAP_STRIDE)
answer the same from any state. -/
theorem resetStepSetsItsTable : Obligations.ResetStepSetsItsTable := by
  intro s ts h
  exact ⟨_, step_reset h, resetStep_phase _, resetStep_statusWord _, resetStep_inBase _, resetStep_inLen _,
    resetStep_ctx _, resetStep_irqEnWord _, resetStep_res _, resetStep_irq _, rfl, rfl, rfl⟩

end Sys2Proof.Machine
end

section
/-! PROOFS. The decoder and the encoder are inverse to each other on well-formed instructions (R70 to R83, R89). -/

namespace Sys2Proof.Machine

/-! ## Encode, then decode -/

/-- A type that is none of the five known ones decodes to the catch-all row (R17, R121). -/
theorem decodeChunk_other (len : Word) {type : Word} (h : otherType type = true) :
    decodeChunk len type = .otherChunk len type := by
  simp only [otherType, Bool.and_eq_true, bne_iff_ne] at h
  obtain ⟨⟨⟨⟨hihdr, hplte⟩, htrns⟩, hidat⟩, hiend⟩ := h
  rw [decodeChunk, if_neg hihdr, if_neg hplte, if_neg htrns, if_neg hidat, if_neg hiend]

/-- A byte is above the five filter codes exactly when it is none of them (R80). -/
theorem badFilter_iff (v : Byte) : 4#8 < v ↔ v ≠ 0#8 ∧ v ≠ 1#8 ∧ v ≠ 2#8 ∧ v ≠ 3#8 ∧ v ≠ 4#8 := by
  simp only [BitVec.lt_def, ne_eq, bitvec_eq_iff_toNat, BitVec.toNat_ofNat]
  omega

theorem decodeFilt_bad {v : Byte} (h : 4#8 < v) : decodeFilt v = .badFilter v := by
  obtain ⟨h0, h1, h2, h3, h4⟩ := (badFilter_iff v).mp h
  rw [decodeFilt, if_neg h0, if_neg h1, if_neg h2, if_neg h3, if_neg h4]

/-- A selector that decodes to the catch-all row decodes to its own two bytes. -/
theorem decodePixfmt_unsupported {c d : Byte} (h : supportedPair c d = false) :
    decodePixfmt (c ++ d) = .unsupportedPixfmt c d := by
  have hsel : formatSupported c d = false := (formatSupported_eq c d).trans h
  have hdecode := decodePixfmt_formatSelector c d
  rw [formatSupported, hdecode] at hsel
  rw [formatSelector] at hdecode
  rw [hdecode]
  split_ifs at hsel ⊢
  rfl

/-- Settles O2: the catch-all rows and DECODE, whose operands the decoder reads back, one by one; every other row's unit decodes
by its bits alone. -/
theorem encodedInstructionDecodesBack : Obligations.EncodedInstructionDecodesBack := by
  intro i hwf
  cases i with
  | decode scale => exact congrArg _ (decodeCmd_latched ⟨.decode, scale, 0#32, 0#32, 0#32⟩)
  | reservedCmd w => exact congrArg _ (decodeCmd_reserved hwf)
  | otherChunk len type => exact congrArg _ (decodeChunk_other len hwf)
  | badFilter v => exact congrArg _ (decodeFilt_bad (of_decide_eq_true hwf))
  | unsupportedPixfmt c d => exact congrArg _ (decodePixfmt_unsupported (by simpa [Instr.wf] using hwf))
  | rsvReg a => exact congrArg _ (decodeReg_reserved hwf)
  | _ => rfl

/-! ## Decode, then encode -/

/-- `i` is a well-formed instruction with unit `c`. -/
def UnitOf (c : Code) (i : Instr) : Prop := encode i = c ∧ i.wf = true

/-- R70: a DECODE word is its OP, its SCALE and zeros. -/
theorem decode_word_eq {w : Word} (hlow : w.extractLsb' 0 8 = 2#8) (hhigh : w.extractLsb' 16 16 = 0#16) :
    0x00000002#32 ||| ((w.extractLsb' 8 8).setWidth 32 <<< 8) = w := by
  have hbits : ∀ v : Byte, 0x00000002#32 ||| (v.setWidth 32 <<< 8) = (0#16 ++ v ++ 2#8 : Word) := by decide +revert
  rw [hbits, bitvec_eq_iff_toNat]
  simp only [bitvec_eq_iff_toNat, toNat_append_add, toNat_field, BitVec.toNat_ofNat] at hlow hhigh ⊢
  omega

theorem unitOf_decodeCmd (w : Word) : UnitOf (.cmd w) (decodeCmd w) := by
  unfold decodeCmd
  split_ifs with hinfo hdecode
  · exact ⟨congrArg _ hinfo.symm, rfl⟩
  · obtain ⟨hlow, hhigh⟩ := hdecode
    exact ⟨congrArg _ (decode_word_eq hlow hhigh), rfl⟩
  · exact ⟨rfl, (reservedWord_iff w).mpr (not_or.mpr ⟨hinfo, hdecode⟩)⟩

theorem unitOf_decodeChunk (len type : Word) : UnitOf (.chunk len type) (decodeChunk len type) := by
  unfold decodeChunk
  split_ifs with hihdr hplte htrns hidat hiend
  · exact ⟨congrArg _ hihdr.symm, rfl⟩
  · exact ⟨congrArg _ hplte.symm, rfl⟩
  · exact ⟨congrArg _ htrns.symm, rfl⟩
  · exact ⟨congrArg _ hidat.symm, rfl⟩
  · exact ⟨congrArg _ hiend.symm, rfl⟩
  · exact ⟨rfl, by simp [Instr.wf, otherType, *]⟩

theorem unitOf_decodeFilt (f : Byte) : UnitOf (.filt f) (decodeFilt f) := by
  unfold decodeFilt
  split_ifs with h0 h1 h2 h3 h4
  · exact ⟨congrArg _ h0.symm, rfl⟩
  · exact ⟨congrArg _ h1.symm, rfl⟩
  · exact ⟨congrArg _ h2.symm, rfl⟩
  · exact ⟨congrArg _ h3.symm, rfl⟩
  · exact ⟨congrArg _ h4.symm, rfl⟩
  · exact ⟨rfl, decide_eq_true ((badFilter_iff f).mpr ⟨h0, h1, h2, h3, h4⟩)⟩

theorem unitOf_decodePixfmt (sel : Half) : UnitOf (.pixfmt sel) (decodePixfmt sel) := by
  cases hpair : supportedPair (sel.extractLsb' 8 8) (sel.extractLsb' 0 8) with
  | false =>
    have hdecode : decodePixfmt sel = _ := (congrArg decodePixfmt (selector_split sel)).trans (decodePixfmt_unsupported hpair)
    rw [hdecode]
    exact ⟨congrArg _ (selector_split sel).symm, by simp [Instr.wf, hpair]⟩
  | true =>
    rw [selector_split sel]
    generalize sel.extractLsb' 8 8 = c at *
    generalize sel.extractLsb' 0 8 = d at *
    simp only [supportedPair, Bool.and_eq_true, Bool.or_eq_true, beq_iff_eq] at hpair
    obtain ⟨⟨rfl | rfl, (((rfl | rfl) | rfl) | rfl) | rfl⟩, hindexed⟩ := hpair
    case inr.inl.inl.inr => cases hindexed
    all_goals exact ⟨rfl, rfl⟩

theorem unitOf_decodeIstat (st : BitVec 2) : UnitOf (.istat st) (decodeIstat st) := by
  unfold UnitOf
  revert st
  decide

/-- An access that reaches a register is 32 bits wide (R59). -/
theorem word_of_not_reserved {offset : BitVec 12} {size : AccessSize} (h : reservedAccess (.read offset size) = false) :
    size = .word :=
  by_contra fun hsize => Bool.false_ne_true (h.symm.trans ((reservedAccess_read_iff offset size).mpr (.inl hsize)))

theorem unitOf_decodeReg (a : Access) : UnitOf (.reg a) (decodeReg a) := by
  cases hr : reservedAccess a with
  | true => rw [decodeReg_reserved hr]; exact ⟨rfl, hr⟩
  | false =>
    cases a with
    | read offset size =>
      obtain rfl := word_of_not_reserved hr
      cases hrow : readRow? offset with
      | none => rw [readRow?_none hrow] at hr; cases hr
      | some i =>
        obtain ⟨hencode, hwf, -⟩ := readRow?_spec hrow
        rw [decodeReg, hrow]
        exact ⟨hencode, hwf⟩
    | write offset size v =>
      obtain rfl := word_of_not_reserved hr
      cases hrow : writeRow? offset v with
      | none => rw [reservedAccess_write, writeRow?_none hrow] at hr; cases hr
      | some i =>
        obtain ⟨hencode, hwf, -⟩ := writeRow?_spec hrow
        rw [decodeReg, hrow]
        exact ⟨hencode, hwf⟩

/-- Every unit but the port key 0 decodes, to a well-formed instruction of that unit. -/
theorem exists_unitOf {c : Code} (hc : c ≠ .port 0#1) : ∃ i, UnitOf c i := by
  cases c with
  | cmd w => exact ⟨_, unitOf_decodeCmd w⟩
  | chunk len type => exact ⟨_, unitOf_decodeChunk len type⟩
  | filt f => exact ⟨_, unitOf_decodeFilt f⟩
  | pixfmt sel => exact ⟨_, unitOf_decodePixfmt sel⟩
  | istat st => exact ⟨_, unitOf_decodeIstat st⟩
  | reg a => exact ⟨_, unitOf_decodeReg a⟩
  | port key =>
    have hkey : key ≠ 0#1 → key = 1#1 := by decide +revert
    exact ⟨.rowAck, congrArg _ (hkey fun h => hc (congrArg _ h)).symm, rfl⟩

/-- Settles O3: the decoder finds the instruction, and two with one unit decode from it, so they are the same. -/
theorem everyUnitHasOneInstruction : Obligations.EveryUnitHasOneInstruction := by
  intro c hc
  obtain ⟨i, hencode, hwf⟩ := exists_unitOf hc
  refine ⟨i, hwf, hencode, fun j hj hej => ?_⟩
  have hdecode : Except.ok (ε := DecodeError) j = .ok i := by
    rw [← encodedInstructionDecodesBack j hj, ← encodedInstructionDecodesBack i hwf, hej, hencode]
  exact Except.ok.inj hdecode

/-- Settles O1: the thirteen words, by evaluation of the decoder. -/
theorem specWordsDecode : Obligations.SpecWordsDecode :=
  ⟨rfl, rfl, rfl, rfl, rfl, rfl, rfl, rfl, rfl, rfl, rfl, rfl, rfl⟩

end Sys2Proof.Machine
end

section
/-! PROOFS. What every step keeps, said once: the moves of the machine with nothing left to unfold, and the rule that a property
kept by a reset and by every move is kept by every step (R90). -/

namespace Sys2Proof.Machine

/-- Everything a move can do, the unit it decodes run: `StepEffect` with each instruction's own cases in its place. -/
inductive MoveEffect (s : State) : State → Prop where
  | register (t : State) (h : RegEffect s t) : MoveEffect s t
  | acknowledged (hp : s.phase = .sink) : MoveEffect s { s with phase := .consume }
  | rowWord (w : Half) : MoveEffect s { s with rowWord := w }
  | input (addr : Word) (b : Byte) (h : s.busy = false) :
      MoveEffect s { s with mem := Memory.write s.mem addr.toNat b }
  | answered (a : Answer) (hp : s.phase = .engine) : MoveEffect s { s with
      dict := s.dict.fill s.drv.req.outOfs.toNat a.bytes
      engine := a.newE
      drv := { s.drv with resp := a.resp, fresh := true }
      phase := .consume }
  | failed (c : Cause) (res : Results) (hp : s.phase = .setup ∨ s.phase = .consume) (hr : res.rows = s.res.rows) :
      MoveEffect s (raiseFatal c { s with res := res })
  | infoDone (res : Results) (hp : s.phase = .setup) (hr : res.rows = s.res.rows) :
      MoveEffect s (finishOk { s with res := res })
  | firstRequest (u : State) (hp : s.phase = .setup) (hk : KeepsOutsideSetup s u) (hu : u.ReadyToStream) :
      MoveEffect s (issueRequest (driverInit u))
  | taken (hp : s.phase = .consume) (hf : s.drv.fresh = true) (hb : s.outOfBounds = false) : MoveEffect s (takeResponse s)
  | decodeDone (hp : s.phase = .consume) (hy : s.line.y = s.hdr.h.toNat) : MoveEffect s (finishOk s)
  | latched (f : BitVec 3) (hp : s.phase = .consume) (hf : s.drv.fresh = false)
      (hs : s.drv.spPos.toNat < s.drv.spEnd.toNat) (hcode : f.toNat ≤ 4) :
      MoveEffect s (latchFilter f (takeSpanByte s))
  | stored (pred : Predictor) (v : Byte) (hp : s.phase = .consume) (hf : s.drv.fresh = false)
      (hs : s.drv.spPos.toNat < s.drv.spEnd.toNat) (hz : s.line.slPos ≠ 0) (hl : s.line.slPos ≠ s.hdr.stride) :
      MoveEffect s (storeDataByte pred v (takeSpanByte s))
  | rowEnded (pred : Predictor) (v : Byte) (t : State) (hp : s.phase = .consume) (hf : s.drv.fresh = false)
      (hy : s.line.y ≠ s.hdr.h.toNat) (hs : s.drv.spPos.toNat < s.drv.spEnd.toNat) (hz : s.line.slPos ≠ 0)
      (h : RowEndEffect (storeDataByte pred v (takeSpanByte s)) t) : MoveEffect s t
  | nextRequest (hp : s.phase = .consume) (hf : s.drv.fresh = false) : MoveEffect s (issueRequest (advanceIdat s))

theorem SpanByteEffect.moveEffect {s t : State} (h : SpanByteEffect s t) (hp : s.phase = .consume)
    (hf : s.drv.fresh = false) (hy : s.line.y ≠ s.hdr.h.toNat) (hs : s.drv.spPos.toNat < s.drv.spEnd.toNat) :
    MoveEffect s t := by
  cases h with
  | failed c => exact .failed c s.res (.inr hp) rfl
  | latched f hcode => exact .latched f hp hf hs hcode
  | data pred v hz hl => exact .stored pred v hp hf hs hz fun h => hl (congrArg (· + 1) h)
  | rowEnd pred v t hz h => exact .rowEnded pred v t hp hf hy hs hz h

theorem StepEffect.moveEffect {s t : State} (h : StepEffect s t) : MoveEffect s t := by
  cases h with
  | pass => exact .register _ .same
  | register t h => exact .register _ h
  | acknowledge =>
    by_cases hp : s.phase = .sink
    · rw [acknowledgeRow_sink hp]; exact .acknowledged hp
    · rw [acknowledgeRow_of_ne_sink hp]; exact .register _ .same
  | rowWord w => exact .rowWord w
  | input addr b h => exact .input addr b h
  | command t hp h =>
    obtain ⟨c, res, hr, rfl⟩ | ⟨res, hr, rfl⟩ | ⟨u, hk, hu, rfl⟩ := exec_latched_effect h
    · exact .failed c res (.inl hp) hr
    · exact .infoDone res hp hr
    · exact .firstRequest u hp hk hu
  | response t hp hf h =>
    obtain ⟨c, rfl⟩ | ⟨hb, rfl⟩ := exec_decodeIstat_fresh hf h
    · exact .failed c s.res (.inr hp) rfl
    · exact .taken hp hf hb
  | success hp _ hy => exact .decodeDone hp hy
  | spanByte t hp hf hy hs h => exact (exec_decodeFilt_effect h).moveEffect hp hf hy hs
  | spanEnd t hp hf _ _ h =>
    obtain ⟨c, rfl⟩ | rfl := exec_decodeIstat_spanEnd hf h
    · exact .failed c s.res (.inr hp) rfl
    · exact .nextRequest hp hf
  | engine a hp => exact .answered a hp

/-- The state as a move finds it: its turn and its move taken from the queues. -/
def State.withQueues (s : State) (turns : List Turn) (hostQ : List HostMove) (engineQ : List Answer) : State :=
  { s with turns := turns, hostQ := hostQ, engineQ := engineQ }

/-- A step is a reset that `turns` schedules, or a move. -/
theorem step_cases {s t : State} (h : step s = .next t) :
    (∃ ts, s.turns = .reset :: ts ∧ t = resetStep { s with turns := ts })
      ∨ ∃ ts hq eq, MoveEffect (s.withQueues ts hq eq) t := by
  obtain hreset | ⟨ts, hq, eq, he⟩ := step_effect h
  · exact .inl hreset
  · exact .inr ⟨ts, hq, eq, he.moveEffect⟩

/-- Unless a reset is scheduled, a step is a move. -/
theorem step_move {s t : State} (hn : s.turns.head? ≠ some .reset) (h : step s = .next t) :
    ∃ ts hq eq, MoveEffect (s.withQueues ts hq eq) t := by
  obtain ⟨ts, hts, -⟩ | hmove := step_cases h
  · exact absurd (congrArg List.head? hts) hn
  · exact hmove

/-- A property of the state that does not look at the queues, and that resets and moves keep, is kept by every step. -/
theorem step_keeps {P : State → Prop} (queues : ∀ s ts hq eq, P s → P (State.withQueues s ts hq eq))
    (reset : ∀ s, P (resetStep s)) (move : ∀ s t, P s → MoveEffect s t → P t) {s t : State} (hs : P s)
    (h : step s = .next t) : P t := by
  obtain ⟨ts, -, rfl⟩ | ⟨ts, hq, eq, he⟩ := step_cases h
  · exact reset _
  · exact move _ _ (queues s ts hq eq hs) he

/-! ## Frames of the larger moves -/

/-- What the end of a row leaves as it was: all but the lines, the pixel buffers, and the presentation of a row. -/
theorem RowEndEffect.frame {s t : State} (h : RowEndEffect s t) :
    (t = { s with line := (swapLines s).line, pix := t.pix })
      ∨ t = presentRow { s with line := (swapLines s).line, pix := t.pix } := by
  cases h with
  | direct ex => exact .inr rfl
  | means ex => exact .inr rfl
  | added ex => exact .inl rfl

/-- A register access that neither starts nor fails a command changes the registers the host sees, and nothing of the command
that runs. -/
theorem RegEffect.inside {s t : State} (h : RegEffect s t) :
    (t = { s with
        status := { s.status with done := t.status.done, ignored := t.status.ignored }
        inBase := t.inBase, inLen := t.inLen, ctx := t.ctx, irqEn := t.irqEn, bus := t.bus, draws := t.draws }
      ∧ (s.status.done = false → t.status.done = false)
      ∧ (s.busy = true → t.inBase = s.inBase ∧ t.inLen = s.inLen ∧ t.ctx = s.ctx))
    ∨ s.busy = false ∧ ((∃ v, t = startCommand v s) ∨ ∃ v, t = failReserved v s) := by
  cases h with
  | inBase v hb => exact .inl ⟨rfl, id, fun h => absurd h (by simp [hb])⟩
  | inLen v hb => exact .inl ⟨rfl, id, fun h => absurd h (by simp [hb])⟩
  | ctx v hb => exact .inl ⟨rfl, id, fun h => absurd h (by simp [hb])⟩
  | cleared d g => exact .inl ⟨rfl, fun h => by simp [h], fun _ => ⟨rfl, rfl, rfl⟩⟩
  | started v hb => exact .inr ⟨hb, .inl ⟨v, rfl⟩⟩
  | failed v hb => exact .inr ⟨hb, .inr ⟨v, rfl⟩⟩
  | same => exact .inl ⟨rfl, id, fun _ => ⟨rfl, rfl, rfl⟩⟩
  | value v => exact .inl ⟨rfl, id, fun _ => ⟨rfl, rfl, rfl⟩⟩
  | drawn v => exact .inl ⟨rfl, id, fun _ => ⟨rfl, rfl, rfl⟩⟩
  | irqEn e => exact .inl ⟨rfl, id, fun _ => ⟨rfl, rfl, rfl⟩⟩
  | ignored hb => exact .inl ⟨rfl, id, fun _ => ⟨rfl, rfl, rfl⟩⟩

theorem busy_iff {s : State} : s.busy = true ↔ s.phase ≠ .idle := bne_iff_ne

theorem busy_eq_false_iff {s : State} : s.busy = false ↔ s.phase = .idle := bne_eq_false_iff_eq

/-- While DECODE streams a command runs (R50). -/
theorem streaming_busy {s : State} (h : s.streaming = true) : s.busy = true := by
  refine busy_iff.mpr fun hp => ?_
  rw [State.streaming, hp] at h
  cases h

end Sys2Proof.Machine
end

section
/-! PROOFS. The phase, STATUS, the row numbering and the operands along every step (R21, R32, R38, R50, R138, R170, R195). -/

namespace Sys2Proof.Machine

/-! ## The phase (R50) -/

theorem canFollow_refl (p : Phase) : p.canFollow p = true := by cases p <;> rfl

theorem RegEffect.canFollow {s t : State} (h : RegEffect s t) : s.phase.canFollow t.phase = true := by
  obtain ⟨ht, -⟩ | ⟨hb, ⟨v, rfl⟩ | ⟨v, rfl⟩⟩ := h.inside
  · rw [ht]; exact canFollow_refl _
  · rw [busy_eq_false_iff.mp hb]; rfl
  · rw [busy_eq_false_iff.mp hb]; rfl

theorem MoveEffect.canFollow {s t : State} (h : MoveEffect s t) : s.phase.canFollow t.phase = true := by
  cases h with
  | register t h => exact h.canFollow
  | acknowledged hp => rw [hp]; rfl
  | rowWord w => exact canFollow_refl _
  | input addr b h => exact canFollow_refl _
  | answered a hp => rw [hp]; rfl
  | failed c res hp => obtain hp | hp := hp <;> rw [hp] <;> rfl
  | infoDone res hp => rw [hp]; rfl
  | firstRequest u hp => rw [hp]; rfl
  | taken hp => exact canFollow_refl _
  | decodeDone hp => rw [hp]; rfl
  | latched f hp => exact canFollow_refl _
  | stored pred v hp => exact canFollow_refl _
  | rowEnded pred v t hp hf hy hs hz h =>
    obtain ht | ht := h.frame
    · rw [ht]; exact canFollow_refl _
    · rw [ht, hp]; rfl
  | nextRequest hp => rw [hp]; rfl

/-- Settles O51: each move takes one of R50's transitions or none. -/
theorem phaseFollowsItsTransitions : Obligations.PhaseFollowsItsTransitions := by
  intro s t hn h
  obtain ⟨ts, hq, eq, he⟩ := step_move hn h
  exact he.canFollow

/-! ## STATUS (R21) -/

/-- The STATUS fields a running command leaves at 0 (R21, R94). -/
def Status.Clear (st : Status) : Prop := st.done = false ∧ st.ok = false ∧ st.fail = false ∧ st.cause = .none

theorem State.StatusInv.clear {s : State} (h : s.StatusInv) (hp : s.phase ≠ .idle) : s.status.Clear := h.2 (busy_iff.mpr hp)

theorem statusInv_of_clear {s : State} (h : s.status.Clear) : s.StatusInv := by
  refine ⟨fun hboth => ?_, fun _ => h⟩
  rw [h.2.1] at hboth
  exact Bool.false_ne_true hboth.1

theorem statusInv_raiseFatal (c : Cause) (s : State) : (raiseFatal c s).StatusInv :=
  ⟨fun h => Bool.false_ne_true h.1, fun h => absurd h Bool.false_ne_true⟩

theorem statusInv_finishOk {s : State} (h : s.status.Clear) : (finishOk s).StatusInv := by
  obtain ⟨-, -, hfail, -⟩ := h
  exact ⟨fun hboth => Bool.false_ne_true (hfail.symm.trans hboth.2), fun h => absurd h Bool.false_ne_true⟩

/-- A register access clears DONE at most, so it keeps R21's invariants; a command's start sets them up. -/
theorem RegEffect.statusInv {s t : State} (h : RegEffect s t) (hs : s.StatusInv) : t.StatusInv := by
  obtain ⟨ht, hdone, -⟩ | ⟨-, ⟨v, rfl⟩ | ⟨v, rfl⟩⟩ := h.inside
  · rw [ht]
    refine ⟨hs.1, fun hb => ?_⟩
    obtain ⟨hd, hrest⟩ := hs.2 hb
    exact ⟨hdone hd, hrest⟩
  · exact statusInv_of_clear ⟨rfl, rfl, rfl, rfl⟩
  · exact statusInv_raiseFatal _ _

theorem MoveEffect.statusInv {s t : State} (h : MoveEffect s t) (hs : s.StatusInv) : t.StatusInv := by
  have busyClear (p : Phase) (hp : s.phase = p) (hne : p ≠ .idle) : s.status.Clear := hs.clear (hp ▸ hne)
  cases h with
  | register t h => exact h.statusInv hs
  | acknowledged hp => exact statusInv_of_clear (busyClear _ hp nofun)
  | rowWord w => exact hs
  | input addr b h => exact hs
  | answered a hp => exact statusInv_of_clear (busyClear _ hp nofun)
  | failed c res => exact statusInv_raiseFatal _ _
  | infoDone res hp => exact statusInv_finishOk (busyClear _ hp nofun)
  | firstRequest u hp hk =>
    have hclear := busyClear _ hp nofun
    rw [hk.1]
    exact statusInv_of_clear hclear
  | taken hp => exact statusInv_of_clear (busyClear _ hp nofun)
  | decodeDone hp => exact statusInv_finishOk (busyClear _ hp nofun)
  | latched f hp => exact statusInv_of_clear (busyClear _ hp nofun)
  | stored pred v hp => exact statusInv_of_clear (busyClear _ hp nofun)
  | rowEnded pred v t hp hf hy hs' hz h =>
    have hclear := busyClear _ hp nofun
    obtain ht | ht := h.frame <;> rw [ht] <;> exact statusInv_of_clear hclear
  | nextRequest hp =>
    have hclear := busyClear _ hp nofun
    rw [advanceIdat_eq]
    exact statusInv_of_clear hclear

/-- Settles O52: a busy state has a clear STATUS, so a move that does not end the command keeps it clear, and one that does sets
one of OK and FAIL. -/
theorem statusInvariantIsKept : Obligations.StatusInvariantIsKept := by
  intro s t hs h
  exact step_keeps (P := State.StatusInv) (fun _ _ _ _ => id) (fun _ => statusInv_of_clear ⟨rfl, rfl, rfl, rfl⟩)
    (fun _ _ hs he => he.statusInv hs) hs h

/-! ## The presented rows (R32, R170) -/

theorem rowsInv_none {s : State} (hrows : s.res.rows = 0#32) (hnone : s.presented = []) : s.RowsInv := by
  refine ⟨?_, fun _ => hnone, fun k row h => ?_⟩
  · rw [hrows, hnone]; rfl
  · rw [hnone] at h; cases h

/-- Outside SETUP the invariant looks at ROWS and the rows only. -/
theorem State.RowsInv.of_eq {s t : State} (h : s.RowsInv) (hrows : t.res.rows = s.res.rows)
    (hpresented : t.presented = s.presented) (hp : t.phase ≠ .setup) : t.RowsInv := by
  obtain ⟨hcount, -, hindex⟩ := h
  refine ⟨?_, fun h => absurd h hp, fun k row hk => hindex k row ?_⟩
  · rw [hrows, hpresented, hcount]
  · rw [← hpresented, hk]

/-- R170: the row presented next carries the next index, and ROWS counts it. -/
theorem State.RowsInv.presentRow {s : State} (h : s.RowsInv) : (presentRow s).RowsInv := by
  obtain ⟨hcount, -, hindex⟩ := h
  refine ⟨?_, nofun, fun k row hk => ?_⟩
  · rw [presentRow_res, presentRow_presented, List.length_append, hcount, BitVec.ofNat_add]
    rfl
  · rw [presentRow_presented, List.getElem?_append] at hk
    split at hk
    · exact hindex k row hk
    · next hge =>
      obtain ⟨hlast, rfl⟩ : k - s.presented.length = 0 ∧ _ = row := by simpa [List.getElem?_singleton] using hk
      rw [show k = s.presented.length by omega]
      exact hcount

theorem RegEffect.rowsInv {s t : State} (h : RegEffect s t) (hs : s.RowsInv) : t.RowsInv := by
  obtain ⟨ht, -⟩ | ⟨-, ⟨v, rfl⟩ | ⟨v, rfl⟩⟩ := h.inside
  · rw [ht]; exact hs
  · exact rowsInv_none rfl rfl
  · exact rowsInv_none rfl rfl

theorem MoveEffect.rowsInv {s t : State} (h : MoveEffect s t) (hs : s.RowsInv) : t.RowsInv := by
  cases h with
  | register t h => exact h.rowsInv hs
  | acknowledged hp => exact hs.of_eq rfl rfl nofun
  | rowWord w => exact hs
  | input addr b h => exact hs
  | answered a hp => exact hs.of_eq rfl rfl nofun
  | failed c res hp hr => exact hs.of_eq hr rfl nofun
  | infoDone res hp hr => exact hs.of_eq hr rfl nofun
  | firstRequest u hp hk =>
    refine rowsInv_none rfl ?_
    rw [hk.1]
    exact hs.2.1 hp
  | taken hp => exact hs
  | decodeDone hp => exact hs.of_eq rfl rfl nofun
  | latched f hp => exact hs
  | stored pred v hp => exact hs
  | rowEnded pred v t hp hf hy hs' hz h =>
    obtain ht | ht := h.frame <;> rw [ht]
    · exact hs
    · exact State.RowsInv.presentRow hs
  | nextRequest hp =>
    rw [advanceIdat_eq]
    exact hs.of_eq rfl rfl nofun

/-- Settles O54: only `presentRow` adds a row, and it counts it; a command's start and a reset empty the list and ROWS
together. -/
theorem rowNumberingIsKept : Obligations.RowNumberingIsKept := by
  intro s t hs h
  exact step_keeps (P := State.RowsInv) (fun _ _ _ _ => id) (fun _ => rowsInv_none rfl rfl)
    (fun _ _ hs he => he.rowsInv hs) hs h

/-! ## The operands (R38, R195) -/

/-- The operand registers are as they were, and so is the latched command while a command runs. -/
def OperandsKept (s t : State) : Prop :=
  t.inBase = s.inBase ∧ t.inLen = s.inLen ∧ t.ctx = s.ctx ∧ (t.busy = true → t.cmd = s.cmd)

theorem operandsKept_raiseFatal (c : Cause) (s : State) : OperandsKept s (raiseFatal c s) :=
  ⟨rfl, rfl, rfl, fun h => absurd h Bool.false_ne_true⟩

theorem operandsKept_finishOk (s : State) : OperandsKept s (finishOk s) :=
  ⟨rfl, rfl, rfl, fun h => absurd h Bool.false_ne_true⟩

theorem MoveEffect.operandsKept {s t : State} (h : MoveEffect s t) (hb : s.busy = true) : OperandsKept s t := by
  cases h with
  | register t h =>
    obtain ⟨ht, -, hops⟩ | ⟨hidle, -⟩ := h.inside
    · obtain ⟨hbase, hlen, hctx⟩ := hops hb
      exact ⟨hbase, hlen, hctx, fun _ => by rw [ht]⟩
    · exact absurd (hb.symm.trans hidle) nofun
  | acknowledged hp => exact ⟨rfl, rfl, rfl, fun _ => rfl⟩
  | rowWord w => exact ⟨rfl, rfl, rfl, fun _ => rfl⟩
  | input addr b h => exact ⟨rfl, rfl, rfl, fun _ => rfl⟩
  | answered a hp => exact ⟨rfl, rfl, rfl, fun _ => rfl⟩
  | failed c res => exact operandsKept_raiseFatal c s
  | infoDone res => exact operandsKept_finishOk s
  | firstRequest u hp hk => rw [hk.1]; exact ⟨rfl, rfl, rfl, fun _ => rfl⟩
  | taken hp => exact ⟨rfl, rfl, rfl, fun _ => rfl⟩
  | decodeDone hp => exact operandsKept_finishOk s
  | latched f hp => exact ⟨rfl, rfl, rfl, fun _ => rfl⟩
  | stored pred v hp => exact ⟨rfl, rfl, rfl, fun _ => rfl⟩
  | rowEnded pred v t hp hf hy hs hz h => obtain ht | ht := h.frame <;> rw [ht] <;> exact ⟨rfl, rfl, rfl, fun _ => rfl⟩
  | nextRequest hp => rw [advanceIdat_eq]; exact ⟨rfl, rfl, rfl, fun _ => rfl⟩

/-- Settles O59: only a register access writes an operand register, and only while BUSY = 0; only a command's start and its end
write the latched command. -/
theorem operandsAreStableWhileBusy : Obligations.OperandsAreStableWhileBusy := by
  intro s t hn hb h
  obtain ⟨ts, hq, eq, he⟩ := step_move hn h
  exact he.operandsKept hb

/-! ## Success (R138) -/

/-- While DECODE streams, a move that raises OK is the success of R138. -/
theorem MoveEffect.success {s t : State} (h : MoveEffect s t) (hs : s.streaming = true) (hok : s.status.ok = false)
    (hok' : t.status.ok = true) : s.phase = .consume ∧ s.line.y = s.hdr.h.toNat := by
  have kept (hkept : t.status.ok = s.status.ok) : s.phase = .consume ∧ s.line.y = s.hdr.h.toNat :=
    absurd (hkept.symm.trans hok') (by rw [hok]; exact Bool.false_ne_true)
  have notSetup (hp : s.phase = .setup) : s.phase = .consume ∧ s.line.y = s.hdr.h.toNat := by
    rw [State.streaming, hp] at hs; cases hs
  cases h with
  | register t h =>
    obtain ⟨ht, -⟩ | ⟨hidle, -⟩ := h.inside
    · exact kept (by rw [ht])
    · exact absurd ((streaming_busy hs).symm.trans hidle) nofun
  | acknowledged hp => exact kept rfl
  | rowWord w => exact kept rfl
  | input addr b h => exact kept rfl
  | answered a hp => exact kept rfl
  | failed c res => cases hok'
  | infoDone res hp => exact notSetup hp
  | firstRequest u hp hk => exact notSetup hp
  | taken hp => exact kept rfl
  | decodeDone hp hy => exact ⟨hp, hy⟩
  | latched f hp => exact kept rfl
  | stored pred v hp => exact kept rfl
  | rowEnded pred v t hp hf hy hs hz h => exact kept (by obtain ht | ht := h.frame <;> rw [ht] <;> rfl)
  | nextRequest hp => exact kept (by rw [advanceIdat_eq]; rfl)

/-- Settles O60: a reset clears OK, and every move but R138's success keeps it or is no move of a streaming state. -/
theorem decodeSucceedsOnlyWhenComplete : Obligations.DecodeSucceedsOnlyWhenComplete := by
  intro s t hs hok h hok'
  obtain ⟨ts, -, rfl⟩ | ⟨ts, hq, eq, he⟩ := step_cases h
  · cases hok'
  · exact he.success hs hok hok'

end Sys2Proof.Machine
end

section
/-! PROOFS. The input window and the dictionary while DECODE streams (R43, R54, R55, R117, R127 to R137). -/

namespace Sys2Proof.Machine

/-! ## What a phase says of streaming and of an outstanding request -/

theorem streaming_of_engine {s : State} (h : s.phase = .engine) : s.streaming = true := by rw [State.streaming, h]

theorem streaming_of_consume {s : State} (h : s.phase = .consume) : s.streaming = true := by rw [State.streaming, h]

theorem streaming_of_sink {s : State} (h : s.phase = .sink) : s.streaming = true := by rw [State.streaming, h]

theorem awaiting_of_engine {s : State} (h : s.phase = .engine) : s.awaiting = true := by rw [State.awaiting, h]; rfl

theorem awaiting_of_consume {s : State} (h : s.phase = .consume) : s.awaiting = s.drv.fresh := by
  rw [State.awaiting, h]; rfl

theorem awaiting_of_sink {s : State} (h : s.phase = .sink) : s.awaiting = false := by rw [State.awaiting, h]; rfl

theorem awaiting_of_not_streaming {s : State} (h : s.streaming = false) : s.awaiting = false := by
  cases hp : s.phase <;> simp [State.streaming, State.awaiting, hp] at h ⊢

/-! ## The input window (R54, R117, R129, R135) -/

/-- What `InputInv` says of a streaming state, whatever the phase: the window, the recorded entries, the cursor in its entry. -/
structure State.WindowOk (s : State) : Prop where
  window : s.cmd.base.toNat + s.cmd.len.toNat ≤ 2 ^ 32
  idx : s.IdxInv
  cursor : CursorIn s.tab.idx (s.drv.ci, s.drv.curOfs)

/-- The outstanding request's slice is the rest of the cursor's entry (R129). -/
def State.SliceOk (s : State) : Prop :=
  s.drv.req.inLen.toNat = s.left
    ∧ (0 < s.left → s.drv.req.inAddr.toNat = s.cmd.base.toNat + s.entry.ptr.toNat + s.drv.curOfs.toNat)

theorem State.InputInv.windowOk {s : State} (h : s.InputInv) (hs : s.streaming = true) : s.WindowOk := by
  obtain ⟨hwin, hentries, hci, hcap, hofs, -⟩ := h hs
  exact ⟨hwin, ⟨hentries, hcap⟩, hci, hofs⟩

theorem State.InputInv.sliceOk {s : State} (h : s.InputInv) (hs : s.streaming = true) (ha : s.awaiting = true) :
    s.SliceOk := by
  obtain ⟨-, -, -, -, -, hslice, -⟩ := h hs
  exact hslice ha

theorem State.InputInv.checked_in_sink {s : State} (h : s.InputInv) (hp : s.phase = .sink) : s.drv.fresh = false := by
  obtain ⟨-, -, -, -, -, -, hfresh⟩ := h (streaming_of_sink hp)
  exact hfresh hp

theorem State.WindowOk.inputInv {s : State} (h : s.WindowOk) (hslice : s.awaiting = true → s.SliceOk)
    (hfresh : s.phase = .sink → s.drv.fresh = false) : s.InputInv :=
  fun _ => ⟨h.window, h.idx.1, h.cursor.1, h.idx.2, h.cursor.2, hslice, hfresh⟩

theorem inputInv_of_not_streaming {s : State} (h : s.streaming = false) : s.InputInv :=
  fun hs => absurd (h.symm.trans hs) Bool.false_ne_true

/-- The entry under a cursor is one of those recorded, so it lies in the window (R117). -/
theorem State.WindowOk.entry_in_window {s : State} (h : s.WindowOk) :
    s.entry.ptr.toNat + s.entry.len.toNat ≤ s.cmd.len.toNat := by
  refine h.idx.1 _ ?_
  rw [State.entry, List.getD_eq_getElem _ _ h.cursor.1]
  exact List.getElem_mem _

theorem State.WindowOk.skipEmptyIdats {s : State} (h : s.WindowOk) : (skipEmptyIdats s).WindowOk :=
  ⟨h.window, h.idx, skipEmpty_cursorIn _ h.idx.2 h.cursor⟩

/-- R129: no term of the request's address wraps, its slice not being empty. -/
theorem State.WindowOk.sliceOk_sendRequest {s : State} (h : s.WindowOk) : (sendRequest s).SliceOk := by
  have hentry := h.entry_in_window
  have hwin := h.window
  have hlen := s.entry.len.isLt
  constructor
  · change (BitVec.ofNat 32 s.left).toNat = s.left
    rw [BitVec.toNat_ofNat, State.left]
    omega
  · intro hleft
    change 0 < s.left at hleft
    change (s.cmd.base + s.entry.ptr + s.drv.curOfs).toNat = s.cmd.base.toNat + s.entry.ptr.toNat + s.drv.curOfs.toNat
    rw [State.left] at hleft
    simp only [BitVec.toNat_add]
    omega

/-- R127 to R129: a request issued from a cursor in its entry. -/
theorem State.WindowOk.inputInv_issueRequest {s : State} (h : s.WindowOk) : (issueRequest s).InputInv := by
  have hskip := h.skipEmptyIdats
  exact State.WindowOk.inputInv ⟨hskip.window, hskip.idx, hskip.cursor⟩ (fun _ => hskip.sliceOk_sendRequest) nofun

theorem State.WindowOk.advanceIdat {s : State} (h : s.WindowOk) : (advanceIdat s).WindowOk := by
  have hcursor := advanceIdat_cursorIn h.idx.2 h.cursor
  rw [advanceIdat_eq]
  exact ⟨h.window, h.idx, hcursor⟩

/-- R54, R126: the first request starts at the first recorded entry. -/
theorem State.ReadyToStream.windowOk_driverInit {s : State} (h : s.ReadyToStream) : (driverInit s).WindowOk :=
  ⟨h.window, h.idx, h.some_idat, Nat.zero_le _⟩

/-- R135: a response in bounds leaves the cursor in its entry. -/
theorem State.WindowOk.takeResponse {s : State} (h : s.WindowOk) (hslice : s.SliceOk) (hb : s.outOfBounds = false) :
    (takeResponse s).WindowOk := by
  refine ⟨h.window, h.idx, h.cursor.1, ?_⟩
  obtain ⟨hconsumed, -⟩ := (outOfBounds_eq_false_iff s).mp hb
  have hofs : s.drv.curOfs.toNat ≤ s.entry.len.toNat := h.cursor.2
  have hlen := s.entry.len.isLt
  rw [hslice.1, State.left] at hconsumed
  change (s.drv.curOfs + s.drv.resp.consumed).toNat ≤ s.entry.len.toNat
  rw [BitVec.toNat_add]
  omega

theorem RegEffect.inputInv {s t : State} (h : RegEffect s t) (hs : s.InputInv) : t.InputInv := by
  obtain ⟨ht, -⟩ | ⟨-, ⟨v, rfl⟩ | ⟨v, rfl⟩⟩ := h.inside
  · rw [ht]; exact hs
  · exact inputInv_of_not_streaming rfl
  · exact inputInv_of_not_streaming rfl

theorem MoveEffect.inputInv {s t : State} (h : MoveEffect s t) (hs : s.InputInv) : t.InputInv := by
  cases h with
  | register t h => exact h.inputInv hs
  | acknowledged hp =>
    have hw := hs.windowOk (streaming_of_sink hp)
    exact State.WindowOk.inputInv ⟨hw.window, hw.idx, hw.cursor⟩
      (fun ha => absurd ((hs.checked_in_sink hp).symm.trans ha) Bool.false_ne_true) nofun
  | rowWord w => exact hs
  | input addr b h => exact hs
  | answered a hp =>
    have hw := hs.windowOk (streaming_of_engine hp)
    exact State.WindowOk.inputInv ⟨hw.window, hw.idx, hw.cursor⟩
      (fun _ => hs.sliceOk (streaming_of_engine hp) (awaiting_of_engine hp)) nofun
  | failed c res => exact inputInv_of_not_streaming rfl
  | infoDone res => exact inputInv_of_not_streaming rfl
  | firstRequest u hp hk hu => exact hu.windowOk_driverInit.inputInv_issueRequest
  | taken hp hf hb =>
    have hslice := hs.sliceOk (streaming_of_consume hp) ((awaiting_of_consume hp).trans hf)
    exact ((hs.windowOk (streaming_of_consume hp)).takeResponse hslice hb).inputInv
      (fun ha => absurd ((awaiting_of_consume (s := takeResponse s) hp).symm.trans ha) Bool.false_ne_true) (fun _ => rfl)
  | decodeDone hp => exact inputInv_of_not_streaming rfl
  | latched f hp => exact hs
  | stored pred v hp => exact hs
  | rowEnded pred v t hp hf hy hs' hz h =>
    obtain ht | ht := h.frame <;> rw [ht]
    · exact hs
    · have hw := hs.windowOk (streaming_of_consume hp)
      exact State.WindowOk.inputInv ⟨hw.window, hw.idx, hw.cursor⟩ nofun (fun _ => hf)
  | nextRequest hp => exact (hs.windowOk (streaming_of_consume hp)).advanceIdat.inputInv_issueRequest

/-- Settles O55: SETUP hands over a window and entries inside it, each request is for the rest of the cursor's entry, and a
response in bounds consumes no more than that. -/
theorem inputWindowInvariantIsKept : Obligations.InputWindowInvariantIsKept := by
  intro s t hs h
  exact step_keeps (P := State.InputInv) (fun _ _ _ _ => id) (fun _ => inputInv_of_not_streaming rfl)
    (fun _ _ hs he => he.inputInv hs) hs h

/-! ## The dictionary (R43, R55, R82, R136) -/

/-- The outstanding request grants `Dict` from `dict_ofs` to its end (R129). -/
def State.GrantOk (s : State) : Prop :=
  s.drv.req.outOfs = s.drv.dictOfs ∧ s.drv.req.outCap.toNat + s.drv.dictOfs.toNat = Config.wd

/-- The span being consumed lies in `Dict`, its response checked (R136, R137). -/
def State.SpanOk (s : State) : Prop :=
  s.drv.spPos.toNat ≤ s.drv.spEnd.toNat ∧ s.drv.spEnd.toNat ≤ Config.wd ∧ s.drv.fresh = false

theorem State.GrantOk.dictInv {s : State} (h : s.GrantOk) (ha : s.awaiting = true) : s.DictInv :=
  ⟨fun _ => h, fun _ hn => absurd (ha.symm.trans hn) nofun⟩

theorem State.SpanOk.dictInv {s : State} (h : s.SpanOk) (ha : s.awaiting = false) : s.DictInv :=
  ⟨fun hn => absurd (ha.symm.trans hn) nofun, fun _ _ => h⟩

theorem dictInv_of_not_streaming {s : State} (h : s.streaming = false) : s.DictInv :=
  ⟨fun ha => absurd ((awaiting_of_not_streaming h).symm.trans ha) nofun, fun hs => absurd (h.symm.trans hs) nofun⟩

theorem grantOk_issueRequest (s : State) : (issueRequest s).GrantOk := by
  refine ⟨rfl, ?_⟩
  change (BitVec.ofNat 16 (32768 - s.drv.dictOfs.toNat)).toNat + s.drv.dictOfs.toNat = 32768
  have := s.drv.dictOfs.isLt
  rw [BitVec.toNat_ofNat]
  omega

theorem dictInv_issueRequest (s : State) : (issueRequest s).DictInv := (grantOk_issueRequest s).dictInv rfl

/-- R136: what a response in bounds has written ends inside `Dict`. -/
theorem State.GrantOk.spanOk_takeResponse {s : State} (h : s.GrantOk) (hb : s.outOfBounds = false) :
    (takeResponse s).SpanOk := by
  obtain ⟨-, hwritten⟩ := (outOfBounds_eq_false_iff s).mp hb
  have hgrant : s.drv.req.outCap.toNat + s.drv.dictOfs.toNat = 32768 := h.2
  have hstart : (s.drv.dictOfs.setWidth 16).toNat = s.drv.dictOfs.toNat := by
    have := s.drv.dictOfs.isLt
    rw [BitVec.toNat_setWidth]
    omega
  have hend : (BitVec.ofNat 16 (s.drv.dictOfs.toNat + s.drv.resp.written.toNat)).toNat
      = s.drv.dictOfs.toNat + s.drv.resp.written.toNat := by
    rw [BitVec.toNat_ofNat]
    omega
  refine ⟨?_, ?_, rfl⟩
  · change (s.drv.dictOfs.setWidth 16).toNat ≤ (BitVec.ofNat 16 (s.drv.dictOfs.toNat + s.drv.resp.written.toNat)).toNat
    omega
  · change (BitVec.ofNat 16 (s.drv.dictOfs.toNat + s.drv.resp.written.toNat)).toNat ≤ 32768
    omega

/-- R137: a byte taken from a span that is not used up stays in the span. -/
theorem State.SpanOk.takeSpanByte {s : State} (h : s.SpanOk) (hs : s.drv.spPos.toNat < s.drv.spEnd.toNat) :
    (takeSpanByte s).SpanOk := by
  obtain ⟨-, hend, hfresh⟩ := h
  refine ⟨?_, hend, hfresh⟩
  change (s.drv.spPos + 1#16).toNat ≤ s.drv.spEnd.toNat
  rw [BitVec.toNat_add, BitVec.toNat_ofNat]
  omega

theorem RegEffect.dictInv {s t : State} (h : RegEffect s t) (hs : s.DictInv) : t.DictInv := by
  obtain ⟨ht, -⟩ | ⟨-, ⟨v, rfl⟩ | ⟨v, rfl⟩⟩ := h.inside
  · rw [ht]; exact hs
  · exact dictInv_of_not_streaming rfl
  · exact dictInv_of_not_streaming rfl

theorem MoveEffect.dictInv {s t : State} (h : MoveEffect s t) (hs : s.DictInv) : t.DictInv := by
  have span (hp : s.phase = .consume) (hf : s.drv.fresh = false) : s.SpanOk :=
    hs.2 (streaming_of_consume hp) ((awaiting_of_consume hp).trans hf)
  cases h with
  | register t h => exact h.dictInv hs
  | acknowledged hp =>
    have hspan : s.SpanOk := hs.2 (streaming_of_sink hp) (awaiting_of_sink hp)
    exact State.SpanOk.dictInv hspan hspan.2.2
  | rowWord w => exact hs
  | input addr b h => exact hs
  | answered a hp => exact State.GrantOk.dictInv (hs.1 (awaiting_of_engine hp)) rfl
  | failed c res => exact dictInv_of_not_streaming rfl
  | infoDone res => exact dictInv_of_not_streaming rfl
  | firstRequest u => exact dictInv_issueRequest _
  | taken hp hf hb =>
    have hgrant : s.GrantOk := hs.1 ((awaiting_of_consume hp).trans hf)
    exact (hgrant.spanOk_takeResponse hb).dictInv (awaiting_of_consume (s := takeResponse s) hp)
  | decodeDone hp => exact dictInv_of_not_streaming rfl
  | latched f hp hf hs' =>
    exact State.SpanOk.dictInv ((span hp hf).takeSpanByte hs') ((awaiting_of_consume (s := latchFilter f _) hp).trans hf)
  | stored pred v hp hf hs' =>
    exact State.SpanOk.dictInv ((span hp hf).takeSpanByte hs') ((awaiting_of_consume (s := storeDataByte pred v _) hp).trans hf)
  | rowEnded pred v t hp hf hy hs' hz h =>
    have hspan := (span hp hf).takeSpanByte hs'
    obtain ht | ht := h.frame
    · have hpt : t.phase = .consume := by rw [ht]; exact hp
      have hft : t.drv.fresh = false := by rw [ht]; exact hf
      refine State.SpanOk.dictInv ?_ ((awaiting_of_consume hpt).trans hft)
      rw [ht]; exact hspan
    · rw [ht]; exact State.SpanOk.dictInv hspan rfl
  | nextRequest hp => exact dictInv_issueRequest _

/-- Settles O56: a request grants the rest of `Dict`, a response in bounds leaves a span inside it, and a span byte is taken only
from a span that is not used up. -/
theorem dictionaryInvariantIsKept : Obligations.DictionaryInvariantIsKept := by
  intro s t hs h
  exact step_keeps (P := State.DictInv) (fun _ _ _ _ => id) (fun _ => dictInv_of_not_streaming rfl)
    (fun _ _ hs he => he.dictInv hs) hs h

end Sys2Proof.Machine
end

section
/-! PROOFS. The line buffers, the output size, ROWS and the accumulator while DECODE streams (R45 to R48, R124, R125, R141 to
R145, R153, R165 to R169). -/

namespace Sys2Proof.Machine

/-! ## The two invariants, on the parts of the state they look at -/

/-- `LineInv`'s bounds. -/
structure LineOk (hdr : Header) (line : Line) : Prop where
  stride_pos : 1 ≤ hdr.stride
  stride_le : hdr.stride ≤ Config.maxStride
  cur : line.cur.head.length = hdr.stride
  prev : line.prev.head.length = hdr.stride
  slPos : line.slPos ≤ hdr.stride
  filter : line.f.toNat ≤ 4
  y : line.y ≤ hdr.h.toNat

/-- `PixelInv`'s bounds, y being the rows done so far. -/
structure PixelOk (cmd : Latched) (hdr : Header) (y : Nat) (rows : Word) (pix : Pixels) : Prop where
  scale : cmd.scale = 1#8 ∨ cmd.scale = 2#8 ∨ cmd.scale = 4#8
  bpp : 1 ≤ hdr.bpp.toNat
  stride : hdr.stride = hdr.w.toNat * hdr.bpp.toNat
  outW : hdr.outW.toNat = hdr.w.toNat / cmd.scale.toNat
  outH : hdr.outH.toNat = hdr.h.toNat / cmd.scale.toNat
  rows : rows.toNat = y / cmd.scale.toNat
  out : pix.out.head.length ≤ Config.maxStride
  acc : pix.acc.head.length ≤ Config.maxStride
  sums : cmd.scale ≠ 1#8 → ∀ j, j < hdr.outW.toNat →
    (sumAt pix.acc j).AtMost (255 * cmd.scale.toNat * (y % cmd.scale.toNat))

/-- Both invariants at once: the pixel pipeline's needs the line's bound on y. -/
def State.ScanOk (s : State) : Prop :=
  s.streaming = true → LineOk s.hdr s.line ∧ PixelOk s.cmd s.hdr s.line.y s.res.rows s.pix

theorem scanOk_iff (s : State) : s.ScanOk ↔ s.LineInv ∧ s.PixelInv := by
  have hline : s.LineInv ↔ (s.streaming = true → LineOk s.hdr s.line) :=
    imp_congr_right fun _ => ⟨fun ⟨h1, h2, h3, h4, h5, h6, h7⟩ => ⟨h1, h2, h3, h4, h5, h6, h7⟩,
      fun ⟨h1, h2, h3, h4, h5, h6, h7⟩ => ⟨h1, h2, h3, h4, h5, h6, h7⟩⟩
  have hpix : s.PixelInv ↔ (s.streaming = true → PixelOk s.cmd s.hdr s.line.y s.res.rows s.pix) :=
    imp_congr_right fun _ => ⟨fun ⟨h1, h2, h3, h4, h5, h6, h7, h8, h9⟩ => ⟨h1, h2, h3, h4, h5, h6, h7, h8, h9⟩,
      fun ⟨h1, h2, h3, h4, h5, h6, h7, h8, h9⟩ => ⟨h1, h2, h3, h4, h5, h6, h7, h8, h9⟩⟩
  rw [hline, hpix, ← imp_and]
  exact .rfl

theorem scanOk_of_not_streaming {s : State} (h : s.streaming = false) : s.ScanOk :=
  fun hs => absurd (h.symm.trans hs) Bool.false_ne_true

/-! ## The lines (R45, R46, R126, R142, R145, R153) -/

theorem length_zeroLine (stride : Nat) : (zeroLine stride).head.length = stride := List.length_replicate

theorem State.ReadyToStream.lineOk {s : State} (h : s.ReadyToStream) : LineOk s.hdr (driverInit s).line :=
  ⟨h.stride_pos, h.stride_le, length_zeroLine _, length_zeroLine _, Nat.zero_le _, Nat.zero_le _, Nat.zero_le _⟩

theorem LineOk.after_latchFilter {s : State} (h : LineOk s.hdr s.line) {f : BitVec 3} (hf : f.toNat ≤ 4) :
    LineOk s.hdr (latchFilter f s).line :=
  ⟨h.stride_pos, h.stride_le, h.cur, h.prev, h.stride_pos, hf, h.y⟩

/-- R145: a data byte of the row lands inside `Cur`. -/
theorem LineOk.length_storeDataByte {s : State} (h : LineOk s.hdr s.line) (hz : s.line.slPos ≠ 0) (pred : Predictor) (v : Byte) :
    (storeDataByte pred v s).line.cur.head.length = s.hdr.stride := by
  have hpos := h.slPos
  exact (Buffer.length_write _ _ (by rw [h.cur]; omega)).trans h.cur

theorem LineOk.after_storeDataByte {s : State} (h : LineOk s.hdr s.line) (hz : s.line.slPos ≠ 0)
    (hl : s.line.slPos ≠ s.hdr.stride) (pred : Predictor) (v : Byte) : LineOk s.hdr (storeDataByte pred v s).line :=
  ⟨h.stride_pos, h.stride_le, h.length_storeDataByte hz pred v, h.prev, Nat.lt_of_le_of_ne h.slPos hl, h.filter, h.y⟩

/-- R153: the swap keeps both lines S long, and y does not pass H. -/
theorem LineOk.after_swapLines {s : State} (h : LineOk s.hdr s.line) (hz : s.line.slPos ≠ 0) (hy : s.line.y ≠ s.hdr.h.toNat)
    (pred : Predictor) (v : Byte) : LineOk s.hdr (swapLines (storeDataByte pred v s)).line := by
  refine ⟨h.stride_pos, h.stride_le, ?_, h.length_storeDataByte hz pred v, Nat.zero_le _, h.filter,
    Nat.lt_of_le_of_ne h.y hy⟩
  have hload := Buffer.length_load s.line.prev (List.replicate s.hdr.stride 0#8)
  rw [h.prev, List.length_replicate, Nat.max_self] at hload
  exact hload

/-! ## The pixel pipeline (R46 to R48, R165 to R169) -/

section Pixel

variable {cmd : Latched} {hdr : Header} {y : Nat} {rows : Word} {pix : Pixels} (h : PixelOk cmd hdr y rows pix)

include h

theorem PixelOk.scale_pos : 0 < cmd.scale.toNat := by
  obtain hs | hs | hs := h.scale <;> rw [hs] <;> decide

theorem PixelOk.scale_le : cmd.scale.toNat ≤ 4 := by
  obtain hs | hs | hs := h.scale <;> rw [hs] <;> decide

/-- A row is no wider than its record is long. -/
theorem PixelOk.w_le_stride : hdr.w.toNat ≤ hdr.stride := by
  rw [h.stride]
  exact Nat.le_mul_of_pos_right _ h.bpp

theorem PixelOk.outW_le_stride : hdr.outW.toNat ≤ hdr.stride := by
  rw [h.outW]
  exact (Nat.div_le_self _ _).trans h.w_le_stride

/-- The row presented next is counted without a wrap (R46). -/
theorem PixelOk.rows_succ (hy : y < hdr.h.toNat) : (rows + 1#32).toNat = y / cmd.scale.toNat + 1 := by
  have hrows := h.rows
  have hdiv := Nat.div_le_self y cmd.scale.toNat
  have hh := hdr.h.isLt
  rw [BitVec.toNat_add, BitVec.toNat_ofNat, hrows]
  omega

/-- ROWS never passes OUT_H. -/
theorem PixelOk.rows_le_outH (hy : y ≤ hdr.h.toNat) : rows.toNat ≤ hdr.outH.toNat := by
  rw [h.rows, h.outH]
  exact Nat.div_le_div_right hy

end Pixel

/-- A buffer that keeps its bound takes a row of no more than MAX_STRIDE elements and keeps it. -/
theorem length_load_le {α : Type} {b : Buffer α} {vs : List α} {bound : Nat} (hb : b.head.length ≤ bound)
    (hvs : vs.length ≤ bound) : (b.load vs).head.length ≤ bound := by
  rw [Buffer.length_load]
  exact Nat.max_le.mpr ⟨hvs, hb⟩

theorem length_accumulated_le (ex : Extract) {s : State} {bound : Nat} (hacc : s.pix.acc.head.length ≤ bound)
    (hw : s.hdr.outW.toNat ≤ bound) : (accumulated ex s).head.length ≤ bound := by
  unfold accumulated
  split
  · exact length_load_le hacc (by simpa using hw)
  · exact hacc

theorem Sum.AtMost.mono {a : Sum} {m n : Nat} (h : a.AtMost m) (hmn : m ≤ n) : a.AtMost n :=
  ⟨h.1.trans hmn, h.2.1.trans hmn, h.2.2.trans hmn⟩

theorem scale_eq_one_iff (s : State) : s.scale = 1 ↔ s.cmd.scale = 1#8 := (bitvec_eq_iff_toNat s.cmd.scale 1#8).symm

section RowEnd

variable {s : State} (h : PixelOk s.cmd s.hdr s.line.y s.res.rows s.pix) (hy : s.line.y < s.hdr.h.toNat)
  (hstride : s.hdr.stride ≤ Config.maxStride) (ex : Extract)

include h

include hstride hy in
/-- R166: a direct row. -/
theorem PixelOk.direct (hs : s.scale = 1) : PixelOk s.cmd s.hdr (s.line.y + 1) (s.res.rows + 1#32)
    { s.pix with out := s.pix.out.load (directWords ex s) } := by
  have hone := (scale_eq_one_iff s).mp hs
  refine ⟨h.scale, h.bpp, h.stride, h.outW, h.outH, ?_, length_load_le h.out ?_, h.acc, fun hne => absurd hone hne⟩
  · rw [h.rows_succ hy, hone]
    simp
  · rw [directWords, List.length_map, List.length_range]
    exact h.w_le_stride.trans hstride

include hstride hy in
/-- R169: the end of a block row, which leaves the slots of the output columns at zero. -/
theorem PixelOk.means (hend : blockRowEnds s = true) : PixelOk s.cmd s.hdr (s.line.y + 1) (s.res.rows + 1#32)
    (emitMeans (accumulated ex s) s) := by
  have hw := h.outW_le_stride.trans hstride
  have hlast : s.line.y % s.cmd.scale.toNat = s.cmd.scale.toNat - 1 := ((blockRowEnds_iff s).mp hend).2
  refine ⟨h.scale, h.bpp, h.stride, h.outW, h.outH, ?_, length_load_le h.out ?_, length_load_le ?_ ?_, fun _ j hj => ?_⟩
  · rw [h.rows_succ hy, (succ_mod_of_eq h.scale_pos hlast).2]
  · simpa using hw
  · exact length_accumulated_le ex h.acc hw
  · simpa using hw
  · rw [sumAt_emitMeans, if_pos hj]
    exact ⟨Nat.zero_le _, Nat.zero_le _, Nat.zero_le _⟩

/-- R168: the bound on the sums of a block row allows each of its rows its columns, and the 16-bit sums hold it. -/
theorem PixelOk.sums_accumulated (hs : s.scale ≠ 1) {j : Nat} (hj : j < s.hdr.outW.toNat) :
    (sumAt (accumulated ex s) j).AtMost (255 * s.cmd.scale.toNat * (s.line.y % s.cmd.scale.toNat + 1)) := by
  have hold := h.sums (mt (scale_eq_one_iff s).mpr hs) j hj
  have hmod := Nat.mod_lt s.line.y h.scale_pos
  have hscale := h.scale_le
  have hroom : 255 * s.cmd.scale.toNat * (s.line.y % s.cmd.scale.toNat + 1) ≤ 255 * 4 * 4 :=
    Nat.mul_le_mul (Nat.mul_le_mul_left 255 hscale) (by omega)
  rw [Nat.mul_add, Nat.mul_one] at hroom ⊢
  by_cases hin : s.line.y < s.hdr.outH.toNat * s.scale
  · rw [sumAt_accumulated ex hin hj]
    exact slotSum_atMost _ j hold (hroom.trans_lt (by decide))
  · rw [accumulated, if_neg hin]
    exact hold.mono (Nat.le_add_right _ _)

include hstride hy in
/-- R167, R168: a row that ends no block row. -/
theorem PixelOk.added (hs : s.scale ≠ 1) (hend : blockRowEnds s = false) :
    PixelOk s.cmd s.hdr (s.line.y + 1) s.res.rows { s.pix with acc := accumulated ex s } := by
  have hmod : s.line.y % s.cmd.scale.toNat ≠ s.cmd.scale.toNat - 1 := by
    intro hlast
    by_cases hin : s.line.y < s.hdr.outH.toNat * s.scale
    · exact absurd (hend.symm.trans ((blockRowEnds_iff s).mpr ⟨hin, hlast⟩)) Bool.false_ne_true
    · rw [h.outH] at hin
      exact mod_ne_of_past h.scale_pos hy (Nat.le_of_not_lt hin) hlast
  obtain ⟨hnext, hdiv⟩ := succ_mod_of_ne h.scale_pos hmod
  refine ⟨h.scale, h.bpp, h.stride, h.outW, h.outH, ?_, h.out,
    length_accumulated_le ex h.acc (h.outW_le_stride.trans hstride), fun _ j hj => ?_⟩
  · rw [h.rows, hdiv]
  · rw [hnext]
    exact h.sums_accumulated ex hs hj

include hstride hy in
/-- R165: the end of a row, whichever of the three it is. -/
theorem PixelOk.rowEnd {t : State} (he : RowEndEffect s t) : PixelOk t.cmd t.hdr t.line.y t.res.rows t.pix := by
  cases he with
  | direct ex hs => exact h.direct hy hstride ex hs
  | means ex hs hend => exact h.means hy hstride ex hend
  | added ex hs hend => exact h.added hy hstride ex hs hend

end RowEnd

/-- R126: ROWS and y start at 0, nothing of `Out` is listed, and the slots in use are zero. -/
theorem State.ReadyToStream.pixelOk {s : State} (h : s.ReadyToStream) :
    PixelOk s.cmd s.hdr 0 0#32 (driverInit s).pix := by
  have hw : s.hdr.outW.toNat ≤ Config.maxStride := by
    rw [h.outW]
    refine (Nat.div_le_self _ _).trans (le_trans ?_ h.stride_le)
    rw [h.stride]
    exact Nat.le_mul_of_pos_right _ h.bpp
  refine ⟨h.scale, h.bpp, h.stride, h.outW, h.outH, (Nat.zero_div _).symm, Nat.zero_le _, ?_, fun hne j hj => ?_⟩
  · simp only [driverInit]
    split
    · simpa using hw
    · exact Nat.zero_le _
  · rw [sumAt_driverInit (h.scale.resolve_left hne) hj]
    exact ⟨Nat.zero_le _, Nat.zero_le _, Nat.zero_le _⟩

/-! ## Every step -/

theorem RegEffect.scanOk {s t : State} (h : RegEffect s t) (hs : s.ScanOk) : t.ScanOk := by
  obtain ⟨ht, -⟩ | ⟨-, ⟨v, rfl⟩ | ⟨v, rfl⟩⟩ := h.inside
  · rw [ht]; exact hs
  · exact scanOk_of_not_streaming rfl
  · exact scanOk_of_not_streaming rfl

/-- The end of a row changes neither the command nor the header. -/
theorem RowEndEffect.hdr_line {s t : State} (h : RowEndEffect s t) : t.hdr = s.hdr ∧ t.line = (swapLines s).line := by
  obtain ht | ht := h.frame <;> rw [ht] <;> exact ⟨rfl, rfl⟩

theorem MoveEffect.scanOk {s t : State} (h : MoveEffect s t) (hs : s.ScanOk) : t.ScanOk := by
  cases h with
  | register t h => exact h.scanOk hs
  | acknowledged hp => exact fun _ => hs (streaming_of_sink hp)
  | rowWord w => exact hs
  | input addr b h => exact hs
  | answered a hp => exact fun _ => hs (streaming_of_engine hp)
  | failed c res => exact scanOk_of_not_streaming rfl
  | infoDone res => exact scanOk_of_not_streaming rfl
  | firstRequest u hp hk hu => exact fun _ => ⟨hu.lineOk, hu.pixelOk⟩
  | taken hp => exact hs
  | decodeDone hp => exact scanOk_of_not_streaming rfl
  | latched f hp _ _ hcode =>
    obtain ⟨hline, hpix⟩ := hs (streaming_of_consume hp)
    exact fun _ => ⟨LineOk.after_latchFilter (s := takeSpanByte s) hline hcode, hpix⟩
  | stored pred v hp _ _ hz hl =>
    obtain ⟨hline, hpix⟩ := hs (streaming_of_consume hp)
    exact fun _ => ⟨LineOk.after_storeDataByte (s := takeSpanByte s) hline hz hl pred v, hpix⟩
  | rowEnded pred v t hp hf hy _ hz h =>
    obtain ⟨hline, hpix⟩ := hs (streaming_of_consume hp)
    obtain ⟨hhdr, hlines⟩ := h.hdr_line
    refine fun _ => ⟨?_, PixelOk.rowEnd (s := storeDataByte pred v (takeSpanByte s)) hpix
      (Nat.lt_of_le_of_ne hline.y hy) hline.stride_le h⟩
    rw [hhdr, hlines]
    exact LineOk.after_swapLines (s := takeSpanByte s) hline hz hy pred v
  | nextRequest hp =>
    rw [advanceIdat_eq]
    exact fun _ => hs (streaming_of_consume hp)

/-- Settles O57: the two invariants are kept together (`State.ScanOk`), each move by its own lemma; y ≤ H bounds ROWS by OUT_H. -/
theorem lineInvariantIsKept : Obligations.LineInvariantIsKept := by
  intro s t hline hpix h
  have ht : t.ScanOk := step_keeps (P := State.ScanOk) (fun _ _ _ _ => id) (fun _ => scanOk_of_not_streaming rfl)
    (fun _ _ hs he => he.scanOk hs) ((scanOk_iff s).mpr ⟨hline, hpix⟩) h
  obtain ⟨hline', hpix'⟩ := (scanOk_iff t).mp ht
  refine ⟨hline', hpix', fun hs => ?_⟩
  obtain ⟨hl, hp⟩ := ht hs
  exact hp.rows_le_outH hl.y

/-! ## The reset state (R189) -/

/-- Settles O58: the table's values by evaluation; no command runs, so every invariant but that of the rows is about no phase. -/
theorem resetStateHasItsValuesAndInvariants : Obligations.ResetStateHasItsValuesAndInvariants := by
  obtain ⟨hline, hpix⟩ := (scanOk_iff State.reset).mp (scanOk_of_not_streaming rfl)
  exact ⟨rfl, rfl, rfl, rfl, rfl, rfl, rfl, rfl, statusInv_of_clear ⟨rfl, rfl, rfl, rfl⟩, rfl, rowsInv_none rfl rfl,
    inputInv_of_not_streaming rfl, dictInv_of_not_streaming rfl, hline, hpix⟩

end Sys2Proof.Machine
end

section
/-! PROOFS. The frame of every instruction (R14, R55, R90): which parts of the state no instruction changes, and which one alone
changes each operand register. -/

namespace Sys2Proof.Machine

/-! ## The instructions of the block -/

theorem SameOutside.refl (s : State) : SameOutside s s := ⟨rfl, rfl, rfl, rfl, rfl, rfl, rfl, rfl, rfl, rfl⟩

/-- What an instruction of the block keeps: the outside, and `Dict` unless it ends the command (R55). -/
def BlockFrame (s t : State) : Prop := SameOutside s t ∧ (t.phase = .idle ∨ t.dict = s.dict)

theorem BlockFrame.refl (s : State) : BlockFrame s s := ⟨.refl s, .inr rfl⟩

theorem blockFrame_raiseFatal {s u : State} (c : Cause) (h : SameOutside s u) : BlockFrame s (raiseFatal c u) := ⟨h, .inl rfl⟩

theorem blockFrame_finishOk {s u : State} (h : SameOutside s u) : BlockFrame s (finishOk u) := ⟨h, .inl rfl⟩

theorem KeepsOutsideSetup.blockFrame {s t : State} (h : KeepsOutsideSetup s t) : BlockFrame s t := by
  rw [h.1]
  exact .refl s

theorem WalkStepLaw.blockFrame {s t : State} (h : WalkStepLaw s t) : BlockFrame s t := h.keeps.setup.blockFrame

theorem blockFrame_setupInfo (s : State) : BlockFrame s (setupInfo (latchUnit .info s.cmd.scale s)).settle := by
  obtain ⟨c, h⟩ | h := setupInfo_settle (latchUnit .info s.cmd.scale s) <;> rw [h]
  · exact blockFrame_raiseFatal c (.refl s)
  · exact blockFrame_finishOk (.refl s)

/-- DECODE's SETUP takes a new draw of `Dict` (R126), and keeps the outside. -/
theorem sameOutside_setupDecode (scale : Byte) (s : State) :
    SameOutside s (setupDecode (latchUnit .decode scale s)).settle := by
  obtain ⟨c, u, hk, h⟩ | ⟨u, hk, -, h⟩ := setupDecode_settle (latchUnit .decode scale s) <;> rw [h, hk.1] <;> exact .refl s

theorem blockFrame_ihdr (len : Word) (s : State) :
    BlockFrame s (if s.tab.walking then skipStep len s else (ihdrFirst s.cmd.op len s).settle) := by
  split
  · exact (skipStep_law len s).blockFrame
  · have hends := ihdrFirst_ends s.cmd.op len s
    cases hwork : ihdrFirst s.cmd.op len s with
    | ok u => rw [hwork] at hends; exact hends.1.blockFrame
    | fail c u => rw [hwork] at hends; exact blockFrame_raiseFatal c (KeepsOutsideSetup.blockFrame hends).1

theorem RowEndEffect.blockFrame {s t : State} (h : RowEndEffect s t) : BlockFrame s t := by
  obtain ht | ht := h.frame <;> rw [ht] <;> exact ⟨.refl s, .inr rfl⟩

theorem SpanByteEffect.blockFrame {s t : State} (h : SpanByteEffect s t) : BlockFrame s t := by
  cases h with
  | failed c => exact blockFrame_raiseFatal c (.refl s)
  | latched f => exact ⟨.refl s, .inr rfl⟩
  | data pred v => exact ⟨.refl s, .inr rfl⟩
  | rowEnd pred v t hz h => exact h.blockFrame

theorem blockFrame_decodeIstat {st : BitVec 2} {s t : State} (h : exec (decodeIstat st) s = .next t) : BlockFrame s t := by
  cases hf : s.drv.fresh with
  | true =>
    obtain ⟨c, rfl⟩ | ⟨-, rfl⟩ := exec_decodeIstat_fresh hf h
    · exact blockFrame_raiseFatal c (.refl s)
    · exact ⟨.refl s, .inr rfl⟩
  | false =>
    obtain ⟨c, rfl⟩ | rfl := exec_decodeIstat_spanEnd hf h
    · exact blockFrame_raiseFatal c (.refl s)
    · rw [advanceIdat_eq]; exact ⟨.refl s, .inr rfl⟩

theorem blockFrame_acknowledgeRow (s : State) : BlockFrame s (acknowledgeRow s) := by
  unfold acknowledgeRow
  split <;> exact ⟨.refl s, .inr rfl⟩

/-! ## Every instruction -/

/-- What instruction `i` leaves as it was from `s` to `t`: the moves to come and INPUT always, each operand register but by its
own write, the returned value but by a register access, and `Dict` but by DECODE's SETUP or the end of a command. -/
structure ExecFrame (i : Instr) (s t : State) : Prop where
  mem : t.mem = s.mem
  rowWord : t.rowWord = s.rowWord
  hostQ : t.hostQ = s.hostQ
  engineQ : t.engineQ = s.engineQ
  turns : t.turns = s.turns
  inBase : (∀ v, i ≠ .wrInBase v) → t.inBase = s.inBase
  inLen : (∀ v, i ≠ .wrInLen v) → t.inLen = s.inLen
  ctx : (∀ v, i ≠ .wrCtx v) → t.ctx = s.ctx
  irqEn : (∀ v, i ≠ .wrIrqEn v) → t.irqEn = s.irqEn
  bus : (∀ a, encode i ≠ .reg a) → t.bus = s.bus
  dict : (∀ scale, i ≠ .decode scale) → t.phase = .idle ∨ t.dict = s.dict

theorem SameOutside.execFrame {i : Instr} {s t : State} (h : SameOutside s t)
    (hdict : (∀ scale, i ≠ .decode scale) → t.phase = .idle ∨ t.dict = s.dict) : ExecFrame i s t := by
  obtain ⟨hbase, hlen, hctx, hirq, hmem, hbus, hword, hhost, hengine, hturns⟩ := h
  exact ⟨hmem, hword, hhost, hengine, hturns, fun _ => hbase, fun _ => hlen, fun _ => hctx, fun _ => hirq, fun _ => hbus,
    hdict⟩

theorem BlockFrame.execFrame {i : Instr} {s t : State} (h : BlockFrame s t) : ExecFrame i s t := h.1.execFrame fun _ => h.2

/-- A register access may change the value returned (R102). -/
theorem execFrame_returnValue {i : Instr} {a : Access} (hi : encode i = .reg a) (v : Word) (draws : Nat) (s : State) :
    ExecFrame i s { s with bus := v, draws := draws } :=
  ⟨rfl, rfl, rfl, rfl, rfl, fun _ => rfl, fun _ => rfl, fun _ => rfl, fun _ => rfl, fun h => absurd hi (h a),
    fun _ => .inr rfl⟩

theorem execFrame_returnDiagnostic {i : Instr} {a : Access} (hi : encode i = .reg a) (v : Word) (s : State) :
    ExecFrame i s (returnDiagnostic v s) := by
  unfold returnDiagnostic
  split
  · exact execFrame_returnValue hi _ _ s
  · exact execFrame_returnValue hi _ s.draws s

theorem blockFrame_writeCmd (v : Word) (s : State) : BlockFrame s (writeCmd v s) := by
  unfold writeCmd
  split
  · exact ⟨.refl s, .inr rfl⟩
  · split
    · exact ⟨.refl s, .inl rfl⟩
    · exact ⟨.refl s, .inr rfl⟩

theorem execFrame_writeOperand {i : Instr} {put : State → State} {s : State} (h : ExecFrame i s (put s)) :
    ExecFrame i s (writeOperand put s) := by
  unfold writeOperand
  split
  · exact BlockFrame.execFrame (.refl s)
  · exact h

/-- The frame of every instruction, family by family. -/
theorem exec_frame {i : Instr} {s t : State} (h : exec i s = .next t) : ExecFrame i s t := by
  cases i with
  | info => cases h; exact (blockFrame_setupInfo s).execFrame
  | decode scale => cases h; exact (sameOutside_setupDecode scale s).execFrame fun hne => absurd rfl (hne scale)
  | reservedCmd w => cases h; exact (blockFrame_raiseFatal .badCommand (u := latchCommand w s) (.refl s)).execFrame
  | ihdr len => cases h; exact (blockFrame_ihdr len s).execFrame
  | plte len => cases h; exact (plteStep_law len s).blockFrame.execFrame
  | trns len => cases h; exact (trnsStep_law len s).blockFrame.execFrame
  | idat len => cases h; exact (idatStep_law len s).blockFrame.execFrame
  | iend len => cases h; exact (walkStop_law s).blockFrame.execFrame
  | otherChunk len type => cases h; exact (skipStep_law len s).blockFrame.execFrame
  | filtNone | filtSub | filtUp | filtAverage | filtPaeth =>
    cases h; exact (filterStep_effect _ (by decide) _ s).blockFrame.execFrame
  | badFilter v => cases h; exact (blockFrame_raiseFatal .badFilter (.refl s)).execFrame
  | gray8 | gray16 | rgb8 | rgb16 | indexed8 | grayA8 | grayA16 | rgba8 | rgba16 =>
    cases h; exact (rowEnd_effect _ s).blockFrame.execFrame
  | unsupportedPixfmt c d => cases h; exact (blockFrame_raiseFatal .unsupportedIhdr (.refl s)).execFrame
  | needMoreInput => exact (blockFrame_decodeIstat (st := 0#2) h).execFrame
  | hasMoreOutput => exact (blockFrame_decodeIstat (st := 1#2) h).execFrame
  | streamDone => exact (blockFrame_decodeIstat (st := 2#2) h).execFrame
  | streamError => exact (blockFrame_decodeIstat (st := 3#2) h).execFrame
  | rdCmd | rdStatus | rdInBase | rdInLen | rdCtx | rdIrqEn | rdRows | rdCapIdat | rdCapStride =>
    cases h; exact execFrame_returnValue rfl _ s.draws s
  | rdWidth | rdHeight | rdFmt | rdStride | rdOutW | rdOutH | rdNidat | rdPaln =>
    cases h; exact execFrame_returnDiagnostic rfl _ s
  | wrCmd v => cases h; exact (blockFrame_writeCmd v s).execFrame
  | wrStatus v => cases h; exact BlockFrame.execFrame ⟨.refl s, .inr rfl⟩
  | wrInBase v =>
    cases h
    exact execFrame_writeOperand ⟨rfl, rfl, rfl, rfl, rfl, fun hne => absurd rfl (hne v), fun _ => rfl, fun _ => rfl,
      fun _ => rfl, fun _ => rfl, fun _ => .inr rfl⟩
  | wrInLen v =>
    cases h
    exact execFrame_writeOperand ⟨rfl, rfl, rfl, rfl, rfl, fun _ => rfl, fun hne => absurd rfl (hne v), fun _ => rfl,
      fun _ => rfl, fun _ => rfl, fun _ => .inr rfl⟩
  | wrCtx v =>
    cases h
    exact execFrame_writeOperand ⟨rfl, rfl, rfl, rfl, rfl, fun _ => rfl, fun _ => rfl, fun hne => absurd rfl (hne v),
      fun _ => rfl, fun _ => rfl, fun _ => .inr rfl⟩
  | wrIrqEn v =>
    cases h
    exact ⟨rfl, rfl, rfl, rfl, rfl, fun _ => rfl, fun _ => rfl, fun _ => rfl, fun hne => absurd rfl (hne v), fun _ => rfl,
      fun _ => .inr rfl⟩
  | wrWidth | wrHeight | wrFmt | wrStride | wrOutW | wrOutH | wrRows | wrNidat | wrPaln | wrCapIdat | wrCapStride =>
    cases h; exact BlockFrame.execFrame (.refl s)
  | rsvReg a =>
    cases a with
    | read offset size => cases h; exact execFrame_returnValue rfl _ s.draws s
    | write offset size v => cases h; exact BlockFrame.execFrame (.refl s)
  | rowAck => cases h; exact (blockFrame_acknowledgeRow s).execFrame

/-- Settles O49: the frame of every instruction, without its clause on `Dict`. -/
theorem instructionsKeepWhatTheyDoNotName : Obligations.InstructionsKeepWhatTheyDoNotName := by
  intro i s t h
  obtain ⟨hmem, hword, hhost, hengine, hturns, hbase, hlen, hctx, hirq, hbus, -⟩ := exec_frame h
  exact ⟨hmem, hword, hhost, hengine, hturns, hbase, hlen, hctx, hirq, hbus⟩

/-- Settles O50: `Dict` changes only by DECODE's SETUP and at a command's end, after which nothing is busy. -/
theorem blockNeverWritesDict : Obligations.BlockNeverWritesDict := by
  intro i s t h _ hne hb
  exact ((exec_frame h).dict hne).resolve_left (busy_iff.mp hb)

end Sys2Proof.Machine
end

section
/-! PROOFS. Whose step is next, and the steps without a table row: the host's writes to INPUT and reads of row words, the engine's
answer (R84, R90, R130, R190, R193). -/

namespace Sys2Proof.Machine

/-! ## The scheduler (R90; log 7) -/

theorem step_scheduled {s : State} {k : Turn} {ts : List Turn} (h : s.turns = k :: ts) :
    step s = runFetched (takeTurn k { s with turns := ts }) := by
  rw [step_eq, fetch, h]

theorem step_unscheduled {s : State} (h : s.turns = []) : step s = runFetched (defaultTurn s) := by
  rw [step_eq, fetch, h]

/-- Scheduling one agent in a state that schedules none gives it the step. -/
theorem step_scheduled_only {s : State} (h : s.turns = []) (k : Turn) :
    step { s with turns := [k] } = runFetched (takeTurn k s) := by
  have hs : { s with turns := [] } = s := by rw [← h]
  rw [step_scheduled (s := { s with turns := [k] }) rfl, hs]

theorem takeTurn_host_some {s : State} {m : HostMove} {ms : List HostMove} (h : takeMove s.waits s.hostQ = some (m, ms)) :
    takeTurn .host s = hostMove m { s with hostQ := ms } := by
  rw [takeTurn, h]

theorem takeTurn_host_none {s : State} (h : takeMove s.waits s.hostQ = none) : takeTurn .host s = .act (.next s) := by
  rw [takeTurn, h]

theorem takeTurn_engine_cons {s : State} {a : Answer} {as : List Answer} (h : s.engineQ = a :: as) :
    takeTurn .engine s = .act (engineStep a { s with engineQ := as }) := by
  rw [takeTurn, h]

theorem takeTurn_engine_nil {s : State} (h : s.engineQ = []) : takeTurn .engine s = .act (.next s) := by
  rw [takeTurn, h]

/-- A host turn takes the oldest move that does not wait, and keeps those that do (R90, R193). -/
theorem step_host_move {s : State} {ts : List Turn} {ws ms : List HostMove} {m : HostMove} (ht : s.turns = .host :: ts)
    (hw : ∀ w ∈ ws, s.waits w = true) (hm : s.waits m = false) (hq : s.hostQ = ws ++ m :: ms) :
    step s = runFetched (hostMove m { s with turns := ts, hostQ := ws ++ ms }) := by
  have htake : takeMove s.waits s.hostQ = some (m, ws ++ ms) := hq ▸ takeMove_append hw hm ms
  rw [step_scheduled ht, takeTurn_host_some (s := { s with turns := ts }) htake]

/-- With nothing but waiting moves the host passes. -/
theorem step_host_pass {s : State} {ts : List Turn} (ht : s.turns = .host :: ts) (hw : ∀ w ∈ s.hostQ, s.waits w = true) :
    step s = .next { s with turns := ts } := by
  rw [step_scheduled ht, takeTurn_host_none (s := { s with turns := ts }) (takeMove_eq_none.mpr hw)]
  rfl

/-- Settles O44: accesses and acknowledgements never wait, so the first of them is the move taken. -/
theorem hostTurnRunsTheDecodedAccess : Obligations.HostTurnRunsTheDecodedAccess := by
  intro s ts ws ms ht hw
  refine ⟨fun a i hq hi => ?_, fun hq => step_host_move ht hw rfl hq, fun hq => step_host_pass ht (by rwa [hq])⟩
  rw [← Except.ok.inj hi]
  exact step_host_move ht hw rfl hq

/-! ## The block's turn (R134, R137, R138) -/

section BlockTurn

variable {s : State}

theorem blockMove_setup (hp : s.phase = .setup) :
    blockMove s = .run (if s.cmd.op = .info then .info else .decode s.cmd.scale) s := by
  rw [blockMove, hp, decodeCmd_latched]

variable (hp : s.phase = .consume)

include hp

theorem blockMove_fresh (hf : s.drv.fresh = true) : blockMove s = .run (decodeIstat s.drv.resp.status) s := by
  rw [blockMove, hp]
  exact if_pos hf

variable (hf : s.drv.fresh ≠ true)

include hf

theorem blockMove_done (hy : s.line.y = s.hdr.h.toNat) : blockMove s = .act (.next (finishOk s)) := by
  rw [blockMove, hp]
  exact (if_neg hf).trans (if_pos hy)

variable (hy : s.line.y ≠ s.hdr.h.toNat)

include hy

theorem blockMove_spanByte (hs : s.drv.spPos.toNat < s.drv.spEnd.toNat) :
    blockMove s = .run (decodeFilt s.controlByte) s := by
  rw [blockMove, hp]
  exact (if_neg hf).trans ((if_neg hy).trans (if_pos hs))

theorem blockMove_spanEnd (hs : ¬s.drv.spPos.toNat < s.drv.spEnd.toNat) :
    blockMove s = .run (decodeIstat s.drv.resp.status) s := by
  rw [blockMove, hp]
  exact (if_neg hf).trans ((if_neg hy).trans (if_neg hs))

end BlockTurn

/-- Settles O45, along the order of `blockMove`'s tests. -/
theorem blockTurnRunsTheDecodedUnit : Obligations.BlockTurnRunsTheDecodedUnit := by
  intro s ts ht u
  have hstep : step s = runFetched (blockMove u) := step_scheduled ht
  refine ⟨fun hp => hstep.trans (congrArg runFetched (blockMove_setup (s := u) hp)), fun hp i j hi hj => ?_⟩
  obtain rfl := Except.ok.inj hi
  obtain rfl := Except.ok.inj hj
  rw [hstep]
  split
  · next hf => exact congrArg runFetched (blockMove_fresh (s := u) hp hf)
  next hf =>
  split
  · next hy => exact ⟨_, congrArg runFetched (blockMove_done (s := u) hp hf hy), succeededWith_finishOk u⟩
  next hy =>
  split
  · next hs => exact congrArg runFetched (blockMove_spanByte (s := u) hp hf hy hs)
  next hs => exact congrArg runFetched (blockMove_spanEnd (s := u) hp hf hy hs)

/-! ## No turn scheduled (log 7) -/

/-- The host has a move when one it offers does not wait. -/
theorem exists_takeMove {waits : HostMove → Bool} {ms : List HostMove} (h : ∃ m ∈ ms, waits m = false) :
    ∃ p, takeMove waits ms = some p := by
  obtain ⟨m, hm, hw⟩ := h
  refine Option.ne_none_iff_exists'.mp fun hnone => ?_
  rw [takeMove_eq_none.mp hnone m hm] at hw
  cases hw

theorem defaultTurn_block {s : State} (hp : s.phase = .setup ∨ s.phase = .consume) :
    defaultTurn s = takeTurn .block s := by
  obtain hp | hp := hp <;> rw [defaultTurn, hp]

theorem defaultTurn_engine_answer {s : State} (hp : s.phase = .engine) (hq : s.engineQ ≠ []) :
    defaultTurn s = takeTurn .engine s := by
  obtain ⟨a, as, hq⟩ := List.exists_cons_of_ne_nil hq
  rw [defaultTurn, hp, hq]

theorem defaultTurn_engine_host {s : State} (hp : s.phase = .engine) (hq : s.engineQ = [])
    (hm : ∃ m ∈ s.hostQ, s.waits m = false) : defaultTurn s = takeTurn .host s := by
  obtain ⟨p, hp'⟩ := exists_takeMove hm
  rw [defaultTurn, hp, hq, hp']

theorem defaultTurn_engine_silent {s : State} (hp : s.phase = .engine) (hq : s.engineQ = [])
    (hm : ∀ m ∈ s.hostQ, s.waits m = true) : defaultTurn s = .act (.fault .engineSilent) := by
  rw [defaultTurn, hp, hq, takeMove_eq_none.mpr hm]

theorem defaultTurn_host {s : State} (hp : s.phase = .idle ∨ s.phase = .sink) (hm : ∃ m ∈ s.hostQ, s.waits m = false) :
    defaultTurn s = takeTurn .host s := by
  obtain ⟨p, hp'⟩ := exists_takeMove hm
  obtain hp | hp := hp <;> rw [defaultTurn, hp, hp']

theorem defaultTurn_host_silent {s : State} (hp : s.phase = .idle ∨ s.phase = .sink)
    (hm : ∀ m ∈ s.hostQ, s.waits m = true) : defaultTurn s = .act (.fault .hostSilent) := by
  obtain hp | hp := hp <;> rw [defaultTurn, hp, takeMove_eq_none.mpr hm]

/-- Settles O46, phase by phase as `defaultTurn` does. -/
theorem unscheduledTurnsFollowThePhase : Obligations.UnscheduledTurnsFollowThePhase := by
  intro s ht
  rw [step_unscheduled ht, step_scheduled_only ht, step_scheduled_only ht, step_scheduled_only ht]
  exact ⟨fun hp => congrArg runFetched (defaultTurn_block hp),
    fun hp hq => congrArg runFetched (defaultTurn_engine_answer hp hq),
    fun hp hq hm => congrArg runFetched (defaultTurn_engine_host hp hq hm),
    fun hp hq hm => congrArg runFetched (defaultTurn_engine_silent hp hq hm),
    fun hp hm => congrArg runFetched (defaultTurn_host hp hm),
    fun hp hm => congrArg runFetched (defaultTurn_host_silent hp hm)⟩

/-! ## Reads of row words (R84, R192) -/

/-- Settles O48: a read never waits, and `hostReadRow` answers it by the phase and the row's width. -/
theorem rowWordsAreReadOnlyInSink : Obligations.RowWordsAreReadOnlyInSink := by
  intro s ts ws ms k ht hw hq
  rw [step_host_move ht hw rfl hq]
  exact ⟨fun hp hk => if_pos ⟨hp, hk⟩, fun hout => if_neg fun ⟨hp, hk⟩ => hout.elim (· hp) (Nat.not_le.mpr hk)⟩

/-! ## Writes to INPUT (R53, R67, R90, R193) -/

/-- While BUSY = 0 nothing stands in front of a move. -/
theorem waiting_of_idle {s : State} {ws : List HostMove} (hb : s.busy = false) (hw : ∀ w ∈ ws, s.waits w = true) : ws = [] :=
  List.eq_nil_iff_forall_not_mem.mpr fun w hm => absurd ((waits_of_idle hb w).symm.trans (hw w hm)) nofun

theorem waits_writeInput_busy {s : State} (hb : s.busy = true) (addr : Word) (b : Byte) :
    s.waits (.writeInput addr b) = !s.inWindow addr.toNat := by
  rw [State.waits, hb, Bool.true_and]

theorem inWindow_iff (s : State) (a : Nat) :
    s.inWindow a = true ↔ s.cmd.base.toNat ≤ a ∧ a < s.cmd.base.toNat + s.cmd.len.toNat := by
  rw [State.inWindow, Bool.and_eq_true, decide_eq_true_iff, decide_eq_true_iff]

theorem hostWriteInput_busy {s : State} (hb : s.busy = true) (addr : Word) (b : Byte) :
    hostWriteInput addr b s = .refused .inputWriteWhileBusy :=
  if_pos hb

theorem hostWriteInput_idle {s : State} (hb : s.busy = false) (addr : Word) (b : Byte) :
    hostWriteInput addr b s = .next { s with mem := Memory.write s.mem addr.toNat b } :=
  if_neg (by rw [hb]; exact Bool.false_ne_true)

/-- A host move keeps the moves left, and INPUT but by its own write while BUSY = 0. -/
theorem hostMove_keeps {m : HostMove} {s t : State} (h : runFetched (hostMove m s) = .next t) :
    t.hostQ = s.hostQ ∧ (t.mem = s.mem
      ∨ s.busy = false ∧ ∃ addr b, m = .writeInput addr b ∧ t.mem = Memory.write s.mem addr.toNat b) := by
  cases m with
  | access a => exact ⟨(exec_frame h).hostQ, .inl (exec_frame h).mem⟩
  | rowAck => exact ⟨(exec_frame (i := .rowAck) h).hostQ, .inl (exec_frame (i := .rowAck) h).mem⟩
  | readRow k =>
    simp only [hostMove, runFetched, hostReadRow] at h
    split at h
    · cases h; exact ⟨rfl, .inl rfl⟩
    · cases h
  | writeInput addr b =>
    simp only [hostMove, runFetched] at h
    cases hb : s.busy with
    | true => rw [hostWriteInput_busy hb] at h; cases h
    | false => rw [hostWriteInput_idle hb] at h; cases h; exact ⟨rfl, .inr ⟨rfl, addr, b, rfl, rfl⟩⟩

/-- While BUSY = 1 no host turn changes INPUT, and a move that waits stays offered. -/
theorem step_host_busy {s t : State} {ts : List Turn} {w : HostMove} (ht : s.turns = .host :: ts) (hb : s.busy = true)
    (hq : w ∈ s.hostQ) (hw : s.waits w = true) (h : step s = .next t) : t.mem = s.mem ∧ w ∈ t.hostQ := by
  rw [step_scheduled ht] at h
  cases htake : takeMove s.waits s.hostQ with
  | none =>
    rw [takeTurn_host_none (s := { s with turns := ts }) htake] at h
    cases h
    exact ⟨rfl, hq⟩
  | some p =>
    rw [takeTurn_host_some (s := { s with turns := ts }) htake] at h
    obtain ⟨hhost, hmem⟩ := hostMove_keeps h
    refine ⟨hmem.resolve_right fun ⟨hidle, _⟩ => absurd (hb.symm.trans hidle) nofun, ?_⟩
    obtain ⟨hnow, ws, tl, -, hsplit, hrest⟩ := takeMove_some htake
    have hne : w ≠ p.1 := fun he => absurd (hw.symm.trans ((congrArg s.waits he).trans hnow)) nofun
    change t.hostQ = p.2 at hhost
    rw [hhost, hrest]
    simpa [hsplit, hne] using hq

/-- Settles O47: in the window the write does not wait and is refused; outside it waits; while BUSY = 0 nothing waits, and it is
the move taken. -/
theorem hostInputWritesRespectTheWindow : Obligations.HostInputWritesRespectTheWindow := by
  intro s ts ws ms addr b ht hw hq inside
  refine ⟨fun hb hin => ?_, fun hb hout => ?_, fun hb hwf => ?_⟩
  · have hnow : s.waits (.writeInput addr b) = false := by
      rw [waits_writeInput_busy hb, (inWindow_iff s _).mpr hin]
      rfl
    exact (step_host_move ht hw hnow hq).trans
      (hostWriteInput_busy (s := { s with turns := ts, hostQ := ws ++ ms }) hb addr b)
  · have hwait : s.waits (.writeInput addr b) = true := by
      rw [waits_writeInput_busy hb, Bool.not_eq_true', ← Bool.not_eq_true, inWindow_iff]
      exact hout
    refine ⟨fun t h => step_host_busy ht hb (by simp [hq]) hwait h, fun hms => step_host_pass ht ?_⟩
    rw [hq, hms]
    simpa [or_imp, forall_and] using ⟨hw, hwait⟩
  · obtain rfl := waiting_of_idle hb hw
    exact ⟨rfl, _, (step_host_move ht hw (waits_of_idle hb _) hq).trans
      (hostWriteInput_idle (s := { s with turns := ts, hostQ := ms }) hb addr b), rfl,
      fun a => Memory.read_write hwf addr.toNat b a⟩

/-- A step of `s` as it may change INPUT: not at all, or by the host's first move while BUSY = 0. -/
def InputStep (s t : State) : Prop :=
  t.mem = s.mem ∨ s.busy = false ∧ ∃ addr b ms, s.hostQ = .writeInput addr b :: ms ∧ t.hostQ = ms
    ∧ t.mem = Memory.write s.mem addr.toNat b

theorem blockMove_mem {s t : State} (h : runFetched (blockMove s) = .next t) : t.mem = s.mem := by
  unfold blockMove at h
  split at h
  · exact (exec_frame h).mem
  · split_ifs at h
    · exact (exec_frame h).mem
    · cases h; rfl
    · exact (exec_frame h).mem
    · exact (exec_frame h).mem
  all_goals cases h; rfl

theorem engineStep_mem {a : Answer} {s t : State} (h : engineStep a s = .next t) : t.mem = s.mem := by
  unfold engineStep at h
  split_ifs at h <;> cases h <;> rfl

theorem takeTurn_inputStep {k : Turn} {s t : State} (h : runFetched (takeTurn k s) = .next t) : InputStep s t := by
  cases k with
  | host =>
    cases htake : takeMove s.waits s.hostQ with
    | none => rw [takeTurn_host_none htake] at h; cases h; exact .inl rfl
    | some p =>
      rw [takeTurn_host_some htake] at h
      obtain ⟨hhost, hmem | ⟨hidle, addr, b, hm, hmem⟩⟩ := hostMove_keeps h
      · exact .inl hmem
      · obtain ⟨-, ws, tl, hws, hsplit, hrest⟩ := takeMove_some htake
        obtain rfl := waiting_of_idle hidle hws
        exact .inr ⟨hidle, addr, b, tl, by rw [hsplit, hm]; rfl, hhost.trans hrest, hmem⟩
  | block => exact .inl (blockMove_mem h)
  | engine =>
    cases hq : s.engineQ with
    | nil => rw [takeTurn_engine_nil hq] at h; cases h; exact .inl rfl
    | cons a as => rw [takeTurn_engine_cons hq] at h; exact .inl (engineStep_mem (s := { s with engineQ := as }) h)
  | reset => cases h; exact .inl rfl

theorem step_inputStep {s t : State} (h : step s = .next t) : InputStep s t := by
  cases ht : s.turns with
  | nil =>
    rw [step_unscheduled ht] at h
    obtain ⟨k, -, hk⟩ := defaultTurn_turn h
    exact takeTurn_inputStep hk
  | cons k ts =>
    rw [step_scheduled ht] at h
    exact takeTurn_inputStep (s := { s with turns := ts }) h

/-- Settles O53: every turn but the host's write keeps INPUT, and that write keeps its canonical form. -/
theorem inputIsChangedByTheHostOnly : Obligations.InputIsChangedByTheHostOnly := by
  intro s t h
  obtain hmem | ⟨hidle, addr, b, ms, hq, hq', hmem⟩ := step_inputStep h
  · exact ⟨fun hwf => by rwa [hmem], fun hne => absurd hmem hne⟩
  · exact ⟨fun hwf => hmem ▸ Memory.wf_write hwf addr b, fun _ => ⟨hidle, addr, b, ms, hq, hq', hmem⟩⟩

/-! ## The engine's turn (R130, R190) -/

theorem step_engine {s : State} {a : Answer} {as : List Answer} {ts : List Turn} (ht : s.turns = .engine :: ts)
    (hq : s.engineQ = a :: as) : step s = engineStep a { s with turns := ts, engineQ := as } := by
  rw [step_scheduled ht, takeTurn_engine_cons (s := { s with turns := ts }) hq]
  rfl

theorem engineStep_outOfTurn {s : State} (a : Answer) (hp : s.phase ≠ .engine) : engineStep a s = .next s := if_pos hp

theorem engineStep_outsideSlice {s : State} {a : Answer} (hp : s.phase = .engine)
    (ha : answerInSlice s.drv.req a = false) : engineStep a s = .refused .engineOutsideSlice := by
  rw [engineStep, if_neg (not_not.mpr hp), ha]
  rfl

theorem engineStep_inSlice {s : State} {a : Answer} (hp : s.phase = .engine) (ha : answerInSlice s.drv.req a = true) :
    engineStep a s = .next { s with
      dict := s.dict.fill s.drv.req.outOfs.toNat a.bytes
      engine := a.newE
      drv := { s.drv with resp := a.resp, fresh := true }
      phase := .consume } := by
  rw [engineStep, if_neg (not_not.mpr hp), if_pos ha]

/-- Settles O28: the answer is `Dictionary.fill` of the granted slice. -/
theorem engineStepWritesItsSlice : Obligations.EngineStepWritesItsSlice := by
  intro s a as ts ht hq hp ha
  exact ⟨_, (step_engine ht hq).trans (engineStep_inSlice (s := { s with turns := ts, engineQ := as }) hp ha), rfl,
    fun k => Dictionary.read_fill a.bytes s.dict s.drv.req.outOfs.toNat k⟩

/-- Settles O29: `engineStep` tests the phase, then the slice. -/
theorem engineAnswersOutOfTurnChangeNothing : Obligations.EngineAnswersOutOfTurnChangeNothing := by
  intro s a as ts ht hq
  rw [step_engine ht hq]
  exact ⟨fun hp => engineStep_outOfTurn (s := { s with turns := ts, engineQ := as }) a hp,
    fun hp ha => engineStep_outsideSlice (s := { s with turns := ts, engineQ := as }) hp ha⟩

end Sys2Proof.Machine
end

section
/-! PROOFS. The register window, command starts, the chunk walk's bound, DECODE's checks and the responses that fail (R37, R71,
R92 to R95, R97, R102, R106 to R115, R122, R134, R175). -/

namespace Sys2Proof.Machine

/-! ## Register reads (R37, R102) -/

theorem irqEnWord_eq (s : State) : s.irqEnWord = if s.irqEn then 1#32 else 0#32 := by
  unfold State.irqEnWord
  cases s.irqEn <;> rfl

theorem returnDiagnostic_idle (v : Word) {s : State} (h : s.busy = false) : returnDiagnostic v s = { s with bus := v } :=
  if_neg (by rw [h]; exact Bool.false_ne_true)

theorem returnDiagnostic_busy (v : Word) {s : State} (h : s.busy = true) :
    returnDiagnostic v s = { s with bus := Config.freeRead s.draws, draws := s.draws + 1 } :=
  if_pos h

/-- Settles O6: the exact reads are `returnValue` of their register, the others `returnDiagnostic`, which BUSY decides. -/
theorem registerReadsReturnTheirValues : Obligations.RegisterReadsReturnTheirValues := by
  intro s
  have hirq : exec .rdIrqEn s = .next { s with bus := if s.irqEn then 1#32 else 0#32 } := by rw [← irqEnWord_eq]; rfl
  refine ⟨⟨rfl, rfl, rfl, rfl, hirq, rfl, rfl, rfl⟩, ?_⟩
  have diagnostic (v : Word) : (s.busy = false → Host.Outcome.next (φ := Fault) (ρ := Refusal) (returnDiagnostic v s)
        = .next { s with bus := v })
      ∧ (s.busy = true → ∃ w : Word, Host.Outcome.next (φ := Fault) (ρ := Refusal) (returnDiagnostic v s)
        = .next { s with bus := w, draws := s.draws + 1 }) :=
    ⟨fun hb => congrArg _ (returnDiagnostic_idle v hb), fun hb => ⟨_, congrArg _ (returnDiagnostic_busy v hb)⟩⟩
  simp only [List.forall_mem_cons]
  exact ⟨diagnostic _, diagnostic _, diagnostic _, diagnostic _, diagnostic _, diagnostic _, diagnostic _, diagnostic _, nofun⟩

/-! ## Command starts (R92 to R95) -/

theorem writeCmd_busy (v : Word) {s : State} (h : s.busy = true) :
    writeCmd v s = { s with status := { s.status with ignored := true } } :=
  if_pos h

theorem writeCmd_reserved {v : Word} {s : State} (h : s.busy = false) (hv : reservedWord v = true) :
    writeCmd v s = failReserved v s := by
  rw [writeCmd, if_neg (by rw [h]; exact Bool.false_ne_true), decodeCmd_reserved hv]

/-- The words of R92 that start a command: INFO's and DECODE's. -/
def StartsCommand (v : Word) : Prop := v = 0x00000001#32 ∨ (v.extractLsb' 0 8 = 2#8 ∧ v.extractLsb' 16 16 = 0#16)

theorem writeCmd_start {v : Word} {s : State} (h : s.busy = false) (hv : StartsCommand v) :
    writeCmd v s = startCommand v s := by
  rw [writeCmd, if_neg (by rw [h]; exact Bool.false_ne_true), decodeCmd]
  by_cases hinfo : v = 0x00000001#32
  · rw [if_pos hinfo]
  · rw [if_neg hinfo, if_pos (hv.resolve_left hinfo)]

/-- Among the words that start a command, OP = 1 is INFO's word. -/
theorem op_info_iff {v : Word} (hv : StartsCommand v) : v.extractLsb' 0 4 = 1#4 ↔ v = 0x00000001#32 := by
  obtain rfl | ⟨hlow, -⟩ := hv
  · decide
  · simp only [bitvec_eq_iff_toNat, toNat_field, BitVec.toNat_ofNat] at hlow ⊢
    omega

/-- Settles O11: BUSY decides between R93 and R92, and the latched op is INFO's exactly for its word. -/
theorem cmdWriteStartsOrIsIgnored : Obligations.CmdWriteStartsOrIsIgnored := by
  intro s v
  refine ⟨fun hb => congrArg _ (writeCmd_busy v hb), fun hb hv => ?_⟩
  simp only [← op_info_iff hv]
  exact congrArg _ (writeCmd_start hb hv)

/-- R71's list, read from the fields of the word. -/
theorem reservedWord_fields (v : Word) :
    reservedWord v = true ↔ (v.extractLsb' 0 4 ≠ 1#4 ∧ v.extractLsb' 0 4 ≠ 2#4) ∨ v.extractLsb' 4 4 ≠ 0#4
      ∨ v.extractLsb' 16 16 ≠ 0#16 ∨ (v.extractLsb' 0 4 = 1#4 ∧ v.extractLsb' 8 8 ≠ 0#8) := by
  simp only [reservedWord, Bool.or_eq_true, Bool.and_eq_true, bne_iff_ne, beq_iff_eq, or_assoc]

/-- R95: the failure of a reserved word, the result registers and the rows cleared first. -/
theorem failedWith_failReserved (v : Word) (s : State) :
    FailedWith .badCommand Results.zero { s with presented := [] } (failReserved v s) :=
  ⟨rfl, rfl, rfl, rfl, rfl, rfl, rfl, rfl, rfl, rfl, rfl, rfl, rfl, rfl⟩

/-- Settles O12: both writes are `failReserved`, a failure of the latched command. -/
theorem reservedCommandFailsAtOnce : Obligations.ReservedCommandFailsAtOnce := by
  intro s v hb hv
  exact ⟨failReserved v s, congrArg _ (writeCmd_reserved hb ((reservedWord_fields v).mpr hv)), rfl, failedWith_failReserved v s⟩

/-- Settles O14: both ends set DONE, so the line is E; the reserved word 3 ends its command at once, and STATUS bit 1 clears
DONE. -/
theorem interruptRisesAndFallsWithDone : Obligations.InterruptRisesAndFallsWithDone := by
  intro s
  refine ⟨fun c => rfl, rfl, fun hb he => ?_⟩
  exact ⟨failReserved 3#32 s, _, congrArg _ (writeCmd_reserved hb (by decide)), he, rfl, rfl, rfl, rfl⟩

/-! ## The chunk walk (R114, R115, R122) -/

/-- R115: without room for a header the walk stops. -/
theorem walkStep_noRoom {s : State} (h : s.cmd.len.toNat < s.tab.pos + 8) : walkStep s = walkStop s := if_pos h

theorem walkStep_room {s : State} (h : s.tab.pos + 8 ≤ s.cmd.len.toNat) :
    walkStep s = walkChunk (s.be32 s.tab.pos) (s.be32 (s.tab.pos + 4)) s :=
  if_neg (Nat.not_lt.mpr h)

/-- In the walk a decoded chunk is one step of `walkChunk`, an IHDR being skipped like an unknown type (R121). -/
theorem exec_decodeChunk_walking {s : State} (h : s.tab.walking = true) (len type : Word) :
    exec (decodeChunk len type) s = .next (walkChunk len type s) := by
  unfold walkChunk
  unfold decodeChunk
  split_ifs
  · exact exec_ihdr_walking len h
  all_goals rfl

/-- Settles O22. -/
theorem walkStepRunsTheDecodedChunk : Obligations.WalkStepRunsTheDecodedChunk := by
  intro s
  exact ⟨walkStep_noRoom, fun hw hroom => (exec_decodeChunk_walking hw _ _).trans (congrArg _ (walkStep_room hroom).symm)⟩

/-- R122: from R114's start the fuel is enough. -/
theorem walkInit_endsIn (s : State) : (walkInit s).EndsIn (walkFuel s) := by
  refine ⟨Nat.succ_ne_zero _, fun _ => ?_⟩
  change s.cmd.len.toNat < 33 + 8 + 12 * (s.cmd.len.toNat / 12 + 2 - 1)
  omega

/-- Settles O23: each step stops the walk or advances it by 12, so `walkFuel` of them are enough. -/
theorem walkEndsWithinItsBound : Obligations.WalkEndsWithinItsBound := by
  intro s n
  refine ⟨rfl, fun hn => ?_⟩
  obtain ⟨hsame, hstopped⟩ := walk_of_endsIn (walkInit_endsIn s) n hn
  exact ⟨hsame, hsame ▸ hstopped⟩

/-! ## DECODE's checks (R97, R106 to R112, R175) -/

theorem scaleCheck_invalid {s : State} (h : s.cmd.scale ≠ 1#8 ∧ s.cmd.scale ≠ 2#8 ∧ s.cmd.scale ≠ 4#8) :
    scaleCheck s = .fail .invalidScale s := by
  refine failIf_true _ _ ?_
  simpa [validScale, and_assoc] using h

/-- Settles O25, along the order of DECODE's checks. -/
theorem decodeChecksInOrder : Obligations.DecodeChecksInOrder := by
  intro s scale
  refine ⟨_, exec_decode_eq scale s, ?_⟩
  set a := latchUnit .decode scale s
  have hfail (c : Cause) : FailedWith c s.res s (raiseFatal c a) := failedWith_raiseFatal (u := a) c (.refl a)
  unfold setupDecode setupHeader
  split
  · next hwin => rw [windowCheck_past (s := a) hwin]; exact hfail _
  next hwin =>
  rw [windowCheck_inside (s := a) (Nat.le_of_not_lt hwin), Work.andThen_ok]
  split
  · next hscale => rw [scaleCheck_invalid (s := a) hscale]; exact hfail _
  next hscale =>
  have hscale : scale = 1#8 ∨ scale = 2#8 ∨ scale = 4#8 := by_contra fun hnone => hscale (by simpa [not_or] using hnone)
  rw [scaleCheck_valid (s := a) hscale, Work.andThen_ok]
  split
  · next hlen => rw [signatureGate_short (s := a) hlen]; exact hfail _
  next hlen =>
  constructor <;> intro hsig
  · rw [signatureGate_mismatch (s := a) (Nat.le_of_not_lt hlen) hsig]; exact hfail _
  rw [signatureGate_match (s := a) (Nat.le_of_not_lt hlen) hsig, Work.andThen_ok]
  split
  · next hmin => rw [firstChunk_short (op := .decode) (s := a) hmin]; exact hfail _
  next hmin =>
  have hmin : ihdrMinLen .decode ≤ a.cmd.len.toNat := Nat.le_of_not_lt hmin
  constructor
  · intro hihdr
    rw [firstChunk_of_not_hasIhdr hmin hihdr]
    exact hfail _
  · intro hihdr hbad
    rw [firstChunk_of_hasIhdr hmin hihdr, ihdrFirst_unsupported hmin hbad]
    exact failedWith_raiseFatal .unsupportedIhdr (keepsOutsideSetup_loadHeader a)

/-! ## Responses that fail (R134) -/

theorem outOfBounds_iff (s : State) :
    s.outOfBounds = true ↔ s.drv.req.inLen.toNat < s.drv.resp.consumed.toNat
      ∨ s.drv.req.outCap.toNat < s.drv.resp.written.toNat := by
  rw [State.outOfBounds, Bool.or_eq_true, decide_eq_true_iff, decide_eq_true_iff]

theorem responseCheck_outOfBounds {s : State} (h : s.outOfBounds = true) :
    responseCheck s = .fail .engineProtocol s := by
  rw [responseCheck, failIf_true _ _ h, Work.andThen_fail]

/-- R134: ERROR fails whatever the counts, out of bounds by its own cause. -/
theorem exec_streamError (s : State) :
    exec .streamError s = .next (raiseFatal (if s.outOfBounds then .engineProtocol else .inflateError) s) := by
  cases hb : s.outOfBounds with
  | true => simp [exec, execStreamError, responseError, failIf_true _ _ hb]
  | false => simp [exec, execStreamError, responseError, failIf_false _ _ hb]

/-- Settles O31: the bounds come first in both checks. -/
theorem badResponsesFail : Obligations.BadResponsesFail := by
  intro s
  have hfail (c : Cause) : FailedWith c s.res s (raiseFatal c s) := failedWith_raiseFatal c (.refl s)
  refine ⟨fun hout => ?_, fun hconsumed hwritten => ?_⟩
  · have hb := (outOfBounds_iff s).mpr hout
    refine ⟨⟨_, exec_streamError s, by rw [hb]; exact hfail _⟩, fun hf i hi => ⟨_, exec_fresh hf i hi, ?_⟩⟩
    rw [responseCheck_outOfBounds hb]
    exact hfail _
  · have hb := (outOfBounds_eq_false_iff s).mpr ⟨hconsumed, hwritten⟩
    exact ⟨_, exec_streamError s, by rw [hb]; exact hfail _⟩

end Sys2Proof.Machine
end

section
/-! PROOFS. The ends of a record and of a row: the filter byte, the last data byte under the header's format, a row that is only
accumulated, and what `Alpha` cannot reach (R41, R137 to R145, R153, R164 to R168). -/

namespace Sys2Proof.Machine

/-! ## A record's first and last byte (R142, R144, R145) -/

theorem filterStep_first (f : BitVec 3) (pred : Predictor) {s : State} (h : s.line.slPos = 0) :
    filterStep f pred s = latchFilter f (takeSpanByte s) :=
  if_pos h

/-- Settles O33. -/
theorem filterByteIsLatched : Obligations.FilterByteIsLatched := by
  intro p hp s hz
  rw [exec_filterTable s p hp, filterStep_first p.2.1 p.2.2 hz]
  rfl

/-- R145: the last data byte is stored, and the row ends. -/
theorem filterStep_last (f : BitVec 3) (pred : Predictor) {s : State} (hpos : 0 < s.line.slPos)
    (hlast : s.line.slPos = s.hdr.stride) :
    filterStep f pred s = formatRowEnd (storeDataByte pred s.spanByte (takeSpanByte s)) := by
  have hrow : (storeDataByte pred s.spanByte (takeSpanByte s)).line.slPos = s.hdr.stride + 1 := congrArg (· + 1) hlast
  rw [filterStep, if_neg hpos.ne', dataByte]
  exact if_pos hrow

/-- R81, R112: the row's end is the instruction the header's format decodes to. -/
theorem exec_decodePixfmt_header (s : State) :
    exec (decodePixfmt (formatSelector s.hdr.c s.hdr.d)) s = .next (formatRowEnd s) := by
  unfold formatRowEnd
  rw [decodePixfmt_formatSelector]
  split_ifs <;> rfl

/-- Settles O36: the filters share `filterStep`, whose last byte runs `formatRowEnd`. -/
theorem lastDataByteRunsThePixelFormat : Obligations.LastDataByteRunsThePixelFormat := by
  intro p hp s hpos hlast i bpp a b c
  set u := storeDataByte p.2.2 s.spanByte (takeSpanByte s)
  refine ⟨u.line.cur, byteAt_storeDataByte p.2.2 s.spanByte (takeSpanByte s), ?_⟩
  rw [exec_filterTable s p hp, filterStep_last _ _ hpos hlast]
  exact (exec_decodePixfmt_header u).symm

/-! ## A row that ends no block row (R167, R168) -/

theorem rowEnd_added (ex : Extract) {s : State} (h : s.scale ≠ 1) (hend : ¬blockRowEnds s = true) :
    rowEnd ex s = { s with line := (swapLines s).line, pix := { s.pix with acc := accumulated ex s } } := by
  simp only [rowEnd, rowDispatch, if_neg h, if_neg hend, Bool.false_eq_true, if_false]
  rfl

theorem accumulated_past (ex : Extract) {s : State} (h : s.hdr.outH.toNat * s.scale ≤ s.line.y) :
    accumulated ex s = s.pix.acc :=
  if_neg (Nat.not_lt.mpr h)

/-- Settles O41: a row past the last block row adds nothing; one inside a block row adds its columns, and the sums have room for
every row but the last. -/
theorem blockRowIsAccumulated : Obligations.BlockRowIsAccumulated := by
  intro p hp s hs scale ex
  have hscale : scale = 2 ∨ scale = 4 := hs.imp (congrArg BitVec.toNat) (congrArg BitVec.toNat)
  have hne : s.scale ≠ 1 := show scale ≠ 1 by omega
  have hexec := exec_formatTable s p hp
  constructor
  · intro hpast
    rw [rowEnd_added p.2 hne fun hend => absurd hpast (Nat.not_le.mpr ((blockRowEnds_iff s).mp hend).1),
      accumulated_past p.2 hpast] at hexec
    exact ⟨_, hexec, nextRow_swapLines s⟩
  · intro hy hmid
    rw [rowEnd_added p.2 hne fun hend => hmid ((blockRowEnds_iff s).mp hend).2] at hexec
    refine ⟨_, _, hexec, nextRow_swapLines s, fun j => ?_⟩
    intro a b
    have hslot : b = if j < s.hdr.outW.toNat then Claims.slotAfter a ex scale j else a := sumAt_accumulated_eq p.2 hy j
    refine ⟨hslot, fun hj ha => ?_⟩
    have hroom : 255 * scale * (s.line.y % scale) + 255 * scale < 2 ^ 16 := by
      obtain h | h := hscale <;> rw [h] <;> omega
    rw [hslot, if_pos hj]
    exact toNat_slotAfter ex j ha hroom

/-! ## `Alpha` (R41) -/

/-- The state with another transparency table. -/
def State.withAlpha (s : State) (alpha : List Byte) : State := { s with tab := { s.tab with alpha := alpha } }

/-- Two states agree on all a row, a register or the phase can show. -/
def SameOutput (t u : State) : Prop :=
  u.presented = t.presented ∧ u.pix = t.pix ∧ u.line = t.line ∧ u.phase = t.phase ∧ u.res = t.res ∧ u.status = t.status

theorem SameOutput.refl (s : State) : SameOutput s s := ⟨rfl, rfl, rfl, rfl, rfl, rfl⟩

theorem sameOutput_withAlpha (s : State) (alpha : List Byte) : SameOutput s (s.withAlpha alpha) :=
  ⟨rfl, rfl, rfl, rfl, rfl, rfl⟩

/-- The pixel pipeline does not read `Alpha`. -/
theorem rowEnd_withAlpha (ex : Extract) (s : State) (alpha : List Byte) :
    rowEnd ex (s.withAlpha alpha) = (rowEnd ex s).withAlpha alpha := by
  have hscale : (s.withAlpha alpha).scale = s.scale := rfl
  have hend : blockRowEnds (s.withAlpha alpha) = blockRowEnds s := rfl
  unfold rowEnd rowDispatch
  rw [hscale, hend]
  split
  · rfl
  · split <;> rfl

theorem sameOutput_formatRowEnd (s : State) (alpha : List Byte) :
    SameOutput (formatRowEnd s) (formatRowEnd (s.withAlpha alpha)) := by
  have hrow (ex : Extract) : SameOutput (rowEnd ex s) (rowEnd ex (s.withAlpha alpha)) :=
    rowEnd_withAlpha ex s alpha ▸ sameOutput_withAlpha _ alpha
  have hhdr : (s.withAlpha alpha).hdr = s.hdr := rfl
  unfold formatRowEnd
  rw [hhdr]
  split
  iterate 9 exact hrow _
  exact .refl _

theorem sameOutput_filterStep (f : BitVec 3) (pred : Predictor) (s : State) (alpha : List Byte) :
    SameOutput (filterStep f pred s) (filterStep f pred (s.withAlpha alpha)) := by
  by_cases hz : s.line.slPos = 0
  · rw [filterStep_first f pred hz, filterStep_first f pred (s := s.withAlpha alpha) hz]
    exact sameOutput_withAlpha _ alpha
  have hpos := Nat.pos_of_ne_zero hz
  by_cases hlast : s.line.slPos = s.hdr.stride
  · rw [filterStep_last f pred hpos hlast, filterStep_last f pred (s := s.withAlpha alpha) hpos hlast]
    exact sameOutput_formatRowEnd _ alpha
  · rw [filterStep_data f pred hpos hlast, filterStep_data f pred (s := s.withAlpha alpha) hpos hlast]
    exact sameOutput_withAlpha _ alpha

/-- Settles O43: neither `filterStep` nor `rowEnd` reads `Alpha`, and a failure forgets it. -/
theorem alphaNeverReachesTheOutput : Obligations.AlphaNeverReachesTheOutput := by
  intro i hi s alpha t u ht hu
  change exec i (s.withAlpha alpha) = .next u at hu
  change SameOutput t u
  obtain hi | hi := List.mem_append.mp hi
  all_goals obtain ⟨p, hp, rfl⟩ := List.mem_map.mp hi
  · rw [exec_filterTable _ p hp] at ht hu
    cases ht
    cases hu
    exact sameOutput_filterStep _ _ s alpha
  · rw [exec_formatTable _ p hp, rowEnd_withAlpha] at hu
    rw [exec_formatTable _ p hp] at ht
    cases ht
    cases hu
    exact sameOutput_withAlpha _ alpha

end Sys2Proof.Machine
end
